-- ==== Sys2Proof/Word.lean ====
section
/-! DEFINITION. The word types of the CORE: bytes, 32-bit registers, 64-bit command words, node indices and bit
sequences (00_scope.md R7, 10_state.md R37, 30_encoding.md R90). -/

namespace Sys2Proof

/-- A byte, the unit of both buffers and the width of a symbol (00_scope.md R6 `SYMBOL_BITS`, 20_memory.md R61). -/
abbrev Byte := BitVec 8

/-- The width of a register, a count and a weight (00_scope.md R6, 10_state.md R45). -/
abbrev Word32 := BitVec 32

/-- A command word, as the host writes it to `CMD` (30_encoding.md R90). -/
abbrev CmdWord := BitVec 64

/-- The index of a node entry, 9 bits (10_state.md R37). -/
abbrev NodeIx := BitVec 9

/-- A bit sequence in stream order, first bit first (00_scope.md R7). -/
abbrev Bits := List Bool

end Sys2Proof
end

