-- ==== Sys2Proof/Syntax.lean ====
section
/-! DEFINITION. The 21 commands of the CORE, one constructor per row of spec/opcode_table.json, in the table's order
(30_encoding.md R93), each with the operand of its format (R91, R92). -/

namespace Sys2Proof

/-- A command. An operand has the width of its format, so every value of this type is a command that 30_encoding.md R93
lists and no other. -/
inductive Instr where
  /-- `RESET` (48_system.md R230). -/
  | reset
  /-- `FQ.COUNT` (40_freq_counter.md R110). -/
  | fqCount
  /-- `TB.BUILD` (41_tree_builder.md R120). -/
  | tbBuild
  /-- `CG.GEN` (42_code_generator.md R135). -/
  | cgGen
  /-- `BW.INIT` (43_bit_writer_reader.md R146). -/
  | bwInit
  /-- `BW.PUTBIT b` (43_bit_writer_reader.md R148). -/
  | bwPutbit (b : BitVec 1)
  /-- `BW.PUTBYTE v` (43_bit_writer_reader.md R149). -/
  | bwPutbyte (v : Byte)
  /-- `BW.PUTU32 n` (43_bit_writer_reader.md R150). -/
  | bwPutu32 (n : Word32)
  /-- `BW.FINAL` (43_bit_writer_reader.md R151). -/
  | bwFinal
  /-- `BR.SEEK n` (43_bit_writer_reader.md R154). -/
  | brSeek (n : Word32)
  /-- `BR.GETBIT` (43_bit_writer_reader.md R155). -/
  | brGetbit
  /-- `BR.GETBYTE` (43_bit_writer_reader.md R156). -/
  | brGetbyte
  /-- `BR.GETU32` (43_bit_writer_reader.md R157). -/
  | brGetu32
  /-- `TC.SER` (44_tree_codec.md R167). -/
  | tcSer
  /-- `TC.DES` (44_tree_codec.md R169). -/
  | tcDes
  /-- `EN.SYM v` (45_encoder_decoder_datapath.md R185). -/
  | enSym (v : Byte)
  /-- `EN.PAYLOAD` (45_encoder_decoder_datapath.md R186). -/
  | enPayload
  /-- `DE.SYM` (45_encoder_decoder_datapath.md R188). -/
  | deSym
  /-- `DE.PAYLOAD n` (45_encoder_decoder_datapath.md R189). -/
  | dePayload (n : Word32)
  /-- `COMPRESS` (46_compress.md R200). -/
  | compress
  /-- `DECOMPRESS` (47_decompress.md R215). -/
  | decompress
  deriving DecidableEq, Repr

end Sys2Proof
end

