-- ==== Sys2Proof/WellFormed.lean ====
section
/-! DEFINITION. Well-formed command words: the formats, the opcode table as data with its mask and match (30_encoding.md
R91, R93), and the three checks a command word must pass (R94). An `Instr` needs no check of its own: its operands have
the widths of their formats by type. -/

namespace Sys2Proof

/-- The four formats (30_encoding.md R91). -/
inductive Format where
  | n
  | b1
  | b8
  | w32
  deriving DecidableEq, Repr

/-- How many low bits of `arg` carry the operand (30_encoding.md R91). -/
def formatWidth : Format → Nat
  | .n => 0
  | .b1 => 1
  | .b8 => 8
  | .w32 => 32

/-- The mask column of 30_encoding.md R91. -/
def formatMask : Format → CmdWord
  | .n => 0xFFFFFFFFFFFFFFFF#64
  | .b1 => 0xFFFFFFFFFFFFFFFE#64
  | .b8 => 0xFFFFFFFFFFFFFF00#64
  | .w32 => 0xFFFFFFFF00000000#64

/-- One row of the opcode map of 30_encoding.md R93. -/
structure OpRow where
  op : BitVec 8
  mnemonic : String
  format : Format
  deriving DecidableEq, Repr

/-- The opcode map of 30_encoding.md R93, row for row. -/
def opTable : List OpRow :=
  [⟨0x01#8, "RESET", .n⟩, ⟨0x10#8, "FQ.COUNT", .n⟩, ⟨0x20#8, "TB.BUILD", .n⟩, ⟨0x30#8, "CG.GEN", .n⟩,
   ⟨0x40#8, "BW.INIT", .n⟩, ⟨0x41#8, "BW.PUTBIT", .b1⟩, ⟨0x42#8, "BW.PUTBYTE", .b8⟩, ⟨0x43#8, "BW.PUTU32", .w32⟩,
   ⟨0x44#8, "BW.FINAL", .n⟩] ++
  [⟨0x48#8, "BR.SEEK", .w32⟩, ⟨0x49#8, "BR.GETBIT", .n⟩, ⟨0x4A#8, "BR.GETBYTE", .n⟩, ⟨0x4B#8, "BR.GETU32", .n⟩,
   ⟨0x50#8, "TC.SER", .n⟩, ⟨0x51#8, "TC.DES", .n⟩] ++
  [⟨0x60#8, "EN.SYM", .b8⟩, ⟨0x61#8, "EN.PAYLOAD", .n⟩, ⟨0x68#8, "DE.SYM", .n⟩, ⟨0x69#8, "DE.PAYLOAD", .w32⟩,
   ⟨0x70#8, "COMPRESS", .n⟩, ⟨0x71#8, "DECOMPRESS", .n⟩]

/-- The match column: the opcode shifted left by 56 (30_encoding.md R91). -/
def rowMatch (r : OpRow) : CmdWord := r.op.setWidth 64 <<< 56

/-- A word encodes the command of a row exactly when `w & mask = match` (30_encoding.md R91). -/
def rowEncodes (r : OpRow) (w : CmdWord) : Bool := (w &&& formatMask r.format) == rowMatch r

/-- The field `op = w[63:56]` (30_encoding.md R90). -/
def opField (w : CmdWord) : BitVec 8 := w.extractLsb' 56 8

/-- The field `rsv = w[55:32]` (30_encoding.md R90). -/
def rsvField (w : CmdWord) : BitVec 24 := w.extractLsb' 32 24

/-- The field `arg = w[31:0]` (30_encoding.md R90). -/
def argField (w : CmdWord) : Word32 := w.extractLsb' 0 32

/-- The format of an opcode of the table, `none` for an unassigned one. -/
def formatOf (op : BitVec 8) : Option Format := (opTable.find? (fun r => r.op == op)).map OpRow.format

/-- Check 1: the opcode is in the table (30_encoding.md R94). -/
def opAssigned (w : CmdWord) : Bool := (formatOf (opField w)).isSome

/-- Check 2: the reserved bits are zero (30_encoding.md R90, R94). -/
def reservedZero (w : CmdWord) : Bool := rsvField w == 0

/-- Check 3: no bit of `arg` outside the format's operand is set (30_encoding.md R91, R94). -/
def operandFits (w : CmdWord) : Bool :=
  match formatOf (opField w) with
  | none => true
  | some f => decide ((argField w).toNat < 2 ^ formatWidth f)

/-- A word that passes all three checks is a command; every other word is illegal (30_encoding.md R94, R95). -/
def wellFormed (w : CmdWord) : Bool := opAssigned w && reservedZero w && operandFits w

end Sys2Proof
end

