-- ==== Sys2Proof/Decode.lean ====
section
/-! DEFINITION. The command decoder, total on every 64-bit word and rejecting by name (30_encoding.md R90 to R95), and
after it the encoder of the assembler's rule `(op << 56) | operand` (R97). -/

namespace Sys2Proof

/-- Why a word is no command (30_encoding.md R94). All three end as `IllegalCommand`. -/
inductive DecodeError where
  /-- The `op` value is not in the table. -/
  | opUnassigned
  /-- `rsv` is not zero. -/
  | reservedNonzero
  /-- A bit of `arg` outside the format's operand is set. -/
  | operandTooWide
  deriving DecidableEq, Repr

/-- Operand assembly: the operand is the low `k` bits of `arg`, and the bits above it must be zero
(30_encoding.md R91, R92). -/
def takeOperand (k : Nat) (arg : Word32) (mk : BitVec k → Instr) : Except DecodeError Instr :=
  if arg.toNat < 2 ^ k then .ok (mk (arg.setWidth k)) else .error .operandTooWide

/-- Format `N`: no operand, all of `arg` zero (30_encoding.md R91). -/
def takeNone (arg : Word32) (i : Instr) : Except DecodeError Instr := takeOperand 0 arg (fun _ => i)

/-- The opcode map, on a word whose reserved bits are zero (30_encoding.md R93). -/
def decodeFields (op : BitVec 8) (arg : Word32) : Except DecodeError Instr :=
  if op = 0x01#8 then takeNone arg .reset
  else if op = 0x10#8 then takeNone arg .fqCount
  else if op = 0x20#8 then takeNone arg .tbBuild
  else if op = 0x30#8 then takeNone arg .cgGen
  else if op = 0x40#8 then takeNone arg .bwInit
  else if op = 0x41#8 then takeOperand 1 arg .bwPutbit
  else if op = 0x42#8 then takeOperand 8 arg .bwPutbyte
  else if op = 0x43#8 then takeOperand 32 arg .bwPutu32
  else if op = 0x44#8 then takeNone arg .bwFinal
  else if op = 0x48#8 then takeOperand 32 arg .brSeek
  else if op = 0x49#8 then takeNone arg .brGetbit
  else if op = 0x4A#8 then takeNone arg .brGetbyte
  else if op = 0x4B#8 then takeNone arg .brGetu32
  else if op = 0x50#8 then takeNone arg .tcSer
  else if op = 0x51#8 then takeNone arg .tcDes
  else if op = 0x60#8 then takeOperand 8 arg .enSym
  else if op = 0x61#8 then takeNone arg .enPayload
  else if op = 0x68#8 then takeNone arg .deSym
  else if op = 0x69#8 then takeOperand 32 arg .dePayload
  else if op = 0x70#8 then takeNone arg .compress
  else if op = 0x71#8 then takeNone arg .decompress
  else .error .opUnassigned

/-- The command that a word written to `CMD` encodes, or why there is none (30_encoding.md R90 to R94). -/
def decode (w : CmdWord) : Except DecodeError Instr :=
  if reservedZero w then decodeFields (opField w) (argField w) else .error .reservedNonzero

/-- The instruction this decoder reads from a word of spec/opcode_table.json whose low `nbits` bits are those of `w` and
whose other bits are zero. A command is one 64-bit word, so the table's numbering is the word's own (30_encoding.md R90). -/
def decodeTableWord (nbits w : Nat) : Option Instr := (decode (BitVec.ofNat 64 (w % 2 ^ nbits))).toOption

/-- The opcode of a command (30_encoding.md R93). -/
def opcodeOf : Instr → BitVec 8
  | .reset => 0x01#8
  | .fqCount => 0x10#8
  | .tbBuild => 0x20#8
  | .cgGen => 0x30#8
  | .bwInit => 0x40#8
  | .bwPutbit _ => 0x41#8
  | .bwPutbyte _ => 0x42#8
  | .bwPutu32 _ => 0x43#8
  | .bwFinal => 0x44#8
  | .brSeek _ => 0x48#8
  | .brGetbit => 0x49#8
  | .brGetbyte => 0x4A#8
  | .brGetu32 => 0x4B#8
  | .tcSer => 0x50#8
  | .tcDes => 0x51#8
  | .enSym _ => 0x60#8
  | .enPayload => 0x61#8
  | .deSym => 0x68#8
  | .dePayload _ => 0x69#8
  | .compress => 0x70#8
  | .decompress => 0x71#8

/-- The operand of a command as the field `arg`, zero for format `N` (30_encoding.md R92). -/
def operandOf : Instr → Word32
  | .bwPutbit b => b.setWidth 32
  | .bwPutbyte v => v.setWidth 32
  | .bwPutu32 n => n
  | .brSeek n => n
  | .enSym v => v.setWidth 32
  | .dePayload n => n
  | .reset => 0
  | .fqCount => 0
  | .tbBuild => 0
  | .cgGen => 0
  | .bwInit => 0
  | .bwFinal => 0
  | .brGetbit => 0
  | .brGetbyte => 0
  | .brGetu32 => 0
  | .tcSer => 0
  | .tcDes => 0
  | .enPayload => 0
  | .deSym => 0
  | .compress => 0
  | .decompress => 0

/-- The command word: `(op << 56) | operand` (30_encoding.md R97). -/
def encode (i : Instr) : CmdWord := ((opcodeOf i).setWidth 64 <<< 56) ||| (operandOf i).setWidth 64

end Sys2Proof
end

