-- ==== Sys2Proof/Config.lean ====
section
/-! DEFINITION. The parameters of one instance of the CORE (00_scope.md R6) and the one free value, the byte an
unwritten place of `IBUF` holds (93_implementation_defined.md U1). -/

namespace Sys2Proof

/-- A buffer capacity in bytes: any value from 4 to 2^29 - 1 (00_scope.md R6, 92_eei_decisions.md D7 `OPEN`). -/
abbrev Capacity := { n : Nat // 4 ≤ n ∧ n ≤ 2 ^ 29 - 1 }

/-- The two open parameters, constant for the life of the machine (10_state.md R43).
DESIGN CHOICE (log entry 1): they travel in the state, so that every statement holds for every capacity. -/
structure Config where
  /-- `IN_CAP`, the capacity of `IBUF` in bytes. -/
  inCap : Capacity
  /-- `OUT_CAP`, the capacity of `OBUF` in bytes. -/
  outCap : Capacity
  deriving DecidableEq, Repr

/-- The capacities the test vectors of 95_test_vectors.md assume.
DESIGN CHOICE (log entry 1): the spec leaves both open. -/
def Config.testVectors : Config := { inCap := ⟨1024, by decide⟩, outCap := ⟨1024, by decide⟩ }

/-- `ALPHABET_MAX` (00_scope.md R6). -/
def Config.alphabetMax : Nat := 256

/-- `MAX_DEPTH`: the root is at depth 1 and no node is parsed at depth 257 (00_scope.md R6, 44_tree_codec.md R171). -/
def Config.maxDepth : Nat := 256

/-- `NODE_CAP` (00_scope.md R6, 44_tree_codec.md R174). -/
def Config.nodeCap : Nat := 511

/-- FREE VALUE (log entry 2): `Config.unwrittenInput r i` is the byte that `IBUF[i]` holds after the `r`-th reset as
long as the host has not written it (93_implementation_defined.md U1 'any value'). It has no body: nothing can be proved
about its value.
DESIGN CHOICE (log entry 2), unsafe for a claim that compares instances: its arguments are the number of resets and the
index alone, so two instances (20_memory.md R78) with equal numbers of resets hold the same unwritten bytes in the model,
which the spec does not say. -/
opaque Config.unwrittenInput : Nat → Nat → Byte

end Sys2Proof
end

