-- ==== Sys2Proof/Machine/State.lean ====
section
/-! DEFINITION. The state of the CORE, as plain data: every register, buffer and table of 10_state.md R20, the host's
inputs, the reasons a step can stop, and the state after reset (10_state.md R44). -/

namespace Sys2Proof.Machine

/-- `STATUS.ERR`: the outcome of the most recent command (10_state.md R25, 60_exceptions.md R241). Values 7 to 15 never
occur (93_implementation_defined.md U9), so the type holds the seven values there are. -/
inductive ErrCode where
  | ok
  | malformedHeader
  | malformedTree
  | streamUnderrun
  | unmappedSymbol
  | capacityExceeded
  | illegalCommand
  deriving DecidableEq, Repr

/-- An entry of the node arena (10_state.md R37). `SYMBOL` is a leaf's alone and `LEFT`, `RIGHT` an internal node's
alone, as the spec has them: the other fields are 'unspecified and never read' (log entry 5). -/
inductive Node where
  /-- `LEAF = 1`. -/
  | leaf (symbol : Byte) (weight : Word32)
  /-- `LEAF = 0`. -/
  | internal (weight : Word32) (left right : NodeIx)
  deriving DecidableEq, Repr

/-- A byte buffer: (index, byte) pairs with strictly rising indices. A place that is not listed has NO VALUE: nothing
has written it (10_state.md R34, R35; log entries 2 and 3). -/
abbrev Memory := List Host.Cell

/-- What the host may do to the CORE between commands (10_state.md R46), and the external reset event
(70_reset_and_hazards.md R270). `FREQ` and `NODE` have no host access, so no action names them. -/
inductive HostAction where
  /-- Write a register by its number (10_state.md R45). Number 0 is `CMD`: the write executes a command. -/
  | writeReg (number : Nat) (value : BitVec 64)
  /-- Write `IBUF[index]`. -/
  | writeIbuf (index : Nat) (byte : Byte)
  /-- Read a register by its number (10_state.md R45). -/
  | readReg (number : Nat)
  /-- Read `OBUF[index]`. -/
  | readObuf (index : Nat)
  /-- Read `IBUF[index]`. -/
  | readIbuf (index : Nat)
  /-- Read `CODE_INFO[symbol]` (10_state.md R40). -/
  | readCodeInfo (symbol : Byte)
  /-- Read `CODE_W[symbol][k]` (10_state.md R40). -/
  | readCodeWord (symbol : Byte) (k : BitVec 3)
  /-- The external reset event. -/
  | resetEvent
  deriving DecidableEq, Repr

/-- The state (10_state.md R20), then the model's own fields. Two registers are lengths of lists and stored once:
`NSYM` is the length of `freqOrder`, `NNODES` the length of `nodes` (log entry 4). -/
structure State where
  /-- `STATUS.ERR` (10_state.md R25). -/
  err : ErrCode
  /-- `RESULT` (10_state.md R26). -/
  result : Word32
  /-- `IN_LEN` (10_state.md R27). -/
  inLen : Word32
  /-- `OUT_LEN` (10_state.md R28). -/
  outLen : Word32
  /-- `RPOS` (10_state.md R29). -/
  rpos : Word32
  /-- `WCNT` (10_state.md R30). -/
  wcnt : BitVec 3
  /-- `WACC` (10_state.md R30). -/
  wacc : Byte
  /-- `ROOT`: `none` is `NONE` (10_state.md R33). -/
  root : Option NodeIx
  /-- `IBUF` (10_state.md R34). -/
  ibuf : Memory
  /-- `OBUF` (10_state.md R35). -/
  obuf : Memory
  /-- `FREQ.COUNT[0 .. 255]` (10_state.md R36). -/
  freqCount : Vector Word32 256
  /-- `FREQ.ORDER[0 .. NSYM - 1]` (10_state.md R36). -/
  freqOrder : List Byte
  /-- `NODE[0 .. NNODES - 1]` (10_state.md R37). -/
  nodes : List Node
  /-- `CODE[0 .. 255]`: `none` is `V = 0`, `some bits` is `V = 1` with `BITS = bits` and `LEN` its length
  (10_state.md R40, log entry 17). -/
  code : Vector (Option Bits) 256
  /-- THE MODEL'S OWN (log entry 1): the capacities, which no step changes (10_state.md R43). -/
  cfg : Config
  /-- THE MODEL'S OWN (log entry 6): the host's actions still to come, first one first (10_state.md R23, R43). -/
  hostQueue : List HostAction
  /-- THE MODEL'S OWN (log entry 8): what the host's last read returned. -/
  lastRead : Option (BitVec 64)
  /-- THE MODEL'S OWN (log entry 2): how many resets there were, an argument of the free value
  `Config.unwrittenInput`. No statement rests on its value. -/
  resets : Nat
  deriving DecidableEq, Repr

/-- Why the machine stops with a fault. Every one is safe: the model stops where the spec defines nothing. -/
inductive Fault where
  /-- An access to `IBUF` at an index of `IN_CAP` or above, which does not exist (10_state.md R34). Raised by the host
  port for a read or write there, and by a command that reads input while `IN_LEN > IN_CAP`, a state no run reaches
  because the host's write of such a length is refused. Safe (log entry 10). -/
  | ibufAddress
  /-- A store to `OBUF` at an index of `OUT_CAP` or above, which does not exist (10_state.md R35). Raised by `BW.FINAL`
  in a state that breaks the invariant of 10_state.md R28, which no run reaches. Safe (log entry 10). -/
  | obufAddress
  /-- More than 256 seeds for the merge queue, so that a node index above 510 would be needed (10_state.md R36, R37).
  Raised by `TB.BUILD` and `COMPRESS` in a state with more than 256 entries in `FREQ.ORDER`, which no run reaches.
  Safe (log entry 10). -/
  | nodeAddress
  /-- `ROOT` does not denote a tree, against the invariants of 10_state.md R38. Raised by `CG.GEN`, `TC.SER`, `DE.SYM`,
  `DE.PAYLOAD` and by the same steps inside `COMPRESS` and `DECOMPRESS`, in a state no run reaches.
  Safe (log entry 10). -/
  | brokenArena
  deriving DecidableEq, Repr

/-- Why the model gives no meaning. -/
inductive Refusal where
  /-- An instruction with no meaning yet: raised by an arm of `exec` alone. Safe. -/
  | notModelled (mnemonic : String)
  /-- The host accesses a register number that does not exist (10_state.md R45, 93_implementation_defined.md U5).
  Raised by the host port. Safe. -/
  | hostRegisterAbsent
  /-- The host writes `IN_LEN` above `IN_CAP` (10_state.md R46, 93_implementation_defined.md U2). Raised by the host
  port. Safe. -/
  | hostInLenTooLarge
  /-- The host reads `OBUF` at or beyond `OUT_LEN` (10_state.md R46, 93_implementation_defined.md U1). Raised by the
  host port. Safe. -/
  | hostObufNoValue
  /-- The host reads a byte of `IBUF` it has not written since the last reset (10_state.md R46,
  93_implementation_defined.md U1). Raised by the host port. Safe. -/
  | hostIbufNoValue
  deriving DecidableEq, Repr

/-- A table with no code for any symbol (10_state.md R44). -/
def emptyTable : Vector (Option Bits) 256 := Vector.replicate 256 none

/-- All counts zero (10_state.md R44). -/
def zeroCounts : Vector Word32 256 := Vector.replicate 256 0

/-- The state after reset of an instance with the capacities `c` (10_state.md R44). What the table leaves unspecified
has no entry (log entry 16). -/
def State.resetWith (c : Config) : State where
  err := .ok
  result := 0
  inLen := 0
  outLen := 0
  rpos := 0
  wcnt := 0
  wacc := 0
  root := none
  ibuf := []
  obuf := []
  freqCount := zeroCounts
  freqOrder := []
  nodes := []
  code := emptyTable
  cfg := c
  hostQueue := []
  lastRead := none
  resets := 0

/-- The state after reset of the instance the test vectors assume (95_test_vectors.md, log entry 1). -/
def State.reset : State := State.resetWith Config.testVectors

end Sys2Proof.Machine
end

