-- ==== Sys2Proof/Machine/Flags.lean ====
section
/-! DEFINITION. The one flag of the CORE, `STATUS.ERR`: its numeric codes, the `STATUS` word, and its value after a
command that succeeds (10_state.md R25, 60_exceptions.md R241). -/

namespace Sys2Proof.Machine

/-- The numeric code of an outcome (60_exceptions.md R241). -/
def errBits : ErrCode → BitVec 4
  | .ok => 0
  | .malformedHeader => 1
  | .malformedTree => 2
  | .streamUnderrun => 3
  | .unmappedSymbol => 4
  | .capacityExceeded => 5
  | .illegalCommand => 6

/-- The register `STATUS`: `ERR` in [3:0], [31:4] zero (10_state.md R25). -/
def statusWord (s : State) : Word32 := (errBits s.err).setWidth 32

/-- `STATUS.ERR <- e`. -/
def setErr (e : ErrCode) (s : State) : State := { s with err := e }

/-- `STATUS.ERR <- 0`, the last line of every command that succeeds (10_state.md R25). -/
def succeed (s : State) : State := setErr .ok s

end Sys2Proof.Machine
end

