-- ==== Sys2Proof/Machine/Ops.lean ====
section
/-! DEFINITION. The named operations over the state: buffers, tables, the failure of a command (the spec's counterpart
of taking an exception), the bit writer, the bit reader, and the tree in the arena. -/

namespace Sys2Proof.Machine

/-! ## Failures of a command -/

/-- How a command's pseudocode ends early: by `raise E` (00_scope.md R8), or because it reached something that does not
exist (a fault of the model, in states no run reaches). -/
inductive Exn where
  | raise (e : ErrCode)
  | stop (f : Fault)
  deriving DecidableEq, Repr

/-- The effect of `raise E`: `STATUS.ERR <- code(E)` and every other piece of state as it was in `s`
(60_exceptions.md R252). There is no handler and no return (R254). -/
def raiseErr (e : ErrCode) (s : State) : State := setErr e s

/-- The end of a command: success writes `ERR <- 0`, a failure gives what `onFail` says, a stop is a fault. -/
def settle (onFail : ErrCode → State) (r : Except Exn State) : Host.Outcome State Fault Refusal :=
  match r with
  | .ok s => .next (succeed s)
  | .error (.raise e) => .next (onFail e)
  | .error (.stop f) => .fault f

/-! ## Bits -/

/-- The bits of a value, most significant first (20_memory.md R63). -/
def bitsOf {n : Nat} (v : BitVec n) : Bits := (List.range n).map (fun k => v.getLsbD (n - 1 - k))

/-- The number whose binary digits are a bit sequence, first bit most significant. -/
def numOf (q : Bits) : Nat := q.foldl (fun v b => 2 * v + b.toNat) 0

/-! ## Buffers -/

/-- The byte at an index, `none` where nothing has written one. -/
def Memory.read : Memory → Nat → Option Byte
  | [], _ => none
  | (a, b) :: m, i => if a = i then some b else Memory.read m i

/-- Store a byte, keeping the indices strictly rising. -/
def Memory.write : Memory → Nat → Byte → Memory
  | [], i, v => [(i, v)]
  | (a, b) :: m, i, v =>
    if i < a then (i, v) :: (a, b) :: m
    else if i = a then (i, v) :: m
    else (a, b) :: Memory.write m i v

/-- The canonical form: strictly rising indices. -/
abbrev Memory.wf (m : Memory) : Prop := (m.map Prod.fst).Pairwise (· < ·)

/-- The byte the engine finds at `IBUF[i]`: what the host wrote there last, or the free value of an unwritten place
(93_implementation_defined.md U1, log entry 2). -/
def inByte (s : State) (i : Nat) : Byte := (s.ibuf.read i).getD (Config.unwrittenInput s.resets i)

/-- `InBit(p)` (00_scope.md R7, R8): offset `p` is bit `7 - p mod 8` of byte `p div 8`. -/
def inBit (s : State) (p : Nat) : Bool := (inByte s (p / 8)).getLsbD (7 - p % 8)

/-- The bytes `IBUF[0 .. IN_LEN - 1]`. -/
def inputBytes (s : State) : List Byte := (List.range s.inLen.toNat).map (inByte s)

/-! ## The two tables indexed by a symbol -/

/-- The entry of a 256-entry table at a symbol. -/
def tableGet {α : Type} (t : Vector α 256) (b : Byte) : α := t[b.toNat]'b.isLt

/-- The table with the entry at a symbol replaced. -/
def tableSet {α : Type} (t : Vector α 256) (b : Byte) (v : α) : Vector α 256 := t.set b.toNat v b.isLt

/-- `FREQ.COUNT[b]` (10_state.md R36). -/
def countOf (s : State) (b : Byte) : Word32 := tableGet s.freqCount b

/-- `CODE[b]`: `none` when `V = 0` (10_state.md R40). -/
def codeOf (s : State) (b : Byte) : Option Bits := tableGet s.code b

/-- `CODE[b].BITS`, empty when `V = 0` (10_state.md R40). -/
def codeBits (s : State) (b : Byte) : Bits := (codeOf s b).getD []

/-- `NSYM` (10_state.md R31). -/
def State.nsym (s : State) : BitVec 9 := BitVec.ofNat 9 s.freqOrder.length

/-- `NNODES` (10_state.md R32). -/
def State.nnodes (s : State) : BitVec 9 := BitVec.ofNat 9 s.nodes.length

/-! ## The bit writer -/

/-- The write position `8 × OUT_LEN + WCNT`, a natural number (10_state.md R23, 43_bit_writer_reader.md R145). -/
def writePos (s : State) : Nat := 8 * s.outLen.toNat + s.wcnt.toNat

/-- The capacity of the writer in bits, `8 × OUT_CAP`. -/
def writeCap (s : State) : Nat := 8 * s.cfg.outCap.val

/-- `OUT_LEN <- 0, WACC <- 0, WCNT <- 0` (43_bit_writer_reader.md R146). The bytes of `OBUF` stay. -/
def emptyWriter (s : State) : State := { s with outLen := 0, wacc := 0, wcnt := 0 }

/-- Store a completed byte: `OBUF[OUT_LEN] <- v, OUT_LEN <- OUT_LEN + 1, WACC <- 0, WCNT <- 0`
(43_bit_writer_reader.md R147, R151). -/
def storeByte (v : Byte) (s : State) : State :=
  { s with obuf := s.obuf.write s.outLen.toNat v, outLen := s.outLen + 1, wacc := 0, wcnt := 0 }

/-- `WACC | (b << (7 - WCNT))` (43_bit_writer_reader.md R147). -/
def accWith (b : Bool) (s : State) : Byte := s.wacc ||| ((BitVec.ofBool b).setWidth 8 <<< (7 - s.wcnt.toNat))

/-- `PutBit1(b)` (43_bit_writer_reader.md R147); its caller has checked the capacity. -/
def putBit1 (s : State) (b : Bool) : State :=
  if s.wcnt = 7 then storeByte (accWith b s) s else { s with wacc := accWith b s, wcnt := s.wcnt + 1 }

/-- `PutSeq(q)`: all of the bits or none (43_bit_writer_reader.md R147). -/
def putSeq (q : Bits) (s : State) : Except Exn State :=
  if writeCap s < writePos s + q.length then .error (.raise .capacityExceeded) else .ok (q.foldl putBit1 s)

/-- `PutBits(n, v)`: the `n` bits of `v`, most significant first (43_bit_writer_reader.md R147). -/
def putBits {n : Nat} (v : BitVec n) (s : State) : Except Exn State := putSeq (bitsOf v) s

/-- The body of `BW.FINAL`: a partial byte is stored, zero-padded on the right (43_bit_writer_reader.md R151). -/
def finalBody (s : State) : Except Exn State :=
  if s.wcnt = 0 then .ok s
  else if s.outLen.toNat < s.cfg.outCap.val then .ok (storeByte s.wacc s)
  else .error (.stop .obufAddress)

/-! ## The bit reader -/

/-- The `n` bits at stream offset `p` of `IBUF`. -/
def inBits (s : State) (p n : Nat) : Bits := (List.range n).map (fun k => inBit s (p + k))

/-- `RPOS <- RPOS + n` (43_bit_writer_reader.md R153). It never wraps, as a read ends before `8 × IN_CAP` (10_state.md
R29). -/
def advance (n : Nat) (s : State) : State := { s with rpos := BitVec.ofNat 32 (s.rpos.toNat + n) }

/-- `ReadBits(n)` (43_bit_writer_reader.md R153): the value of the next `n` bits and the state with `RPOS` behind them;
`StreamUnderrun` when fewer remain, compared as natural numbers. -/
def readBits (n : Nat) (s : State) : Except Exn (BitVec n × State) :=
  if 8 * s.inLen.toNat < s.rpos.toNat + n then .error (.raise .streamUnderrun)
  else if 8 * s.cfg.inCap.val < s.rpos.toNat + n then .error (.stop .ibufAddress)
  else .ok (BitVec.ofNat n (numOf (inBits s s.rpos.toNat n)), advance n s)

/-! ## The tree -/

/-- The abstract tree of 10_state.md R39. -/
inductive Tree where
  | leaf (symbol : Byte)
  | node (left right : Tree)
  deriving DecidableEq, Repr

/-- `Tree(i)` (10_state.md R39), looking at most `fuel` levels deep; `none` when the entries do not denote a tree of
that depth. -/
def treeAt (nodes : List Node) : Nat → NodeIx → Option Tree
  | 0, _ => none
  | fuel + 1, i =>
    match nodes[i.toNat]? with
    | none => none
    | some (.leaf b _) => some (.leaf b)
    | some (.internal _ l r) =>
      match treeAt nodes fuel l, treeAt nodes fuel r with
      | some a, some b => some (.node a b)
      | _, _ => none

/-- `Tree(i)` in the arena of a state. A tree of `NNODES` nodes has at most `NNODES` levels (10_state.md R38). -/
def treeIn (s : State) (i : NodeIx) : Except Exn Tree :=
  match treeAt s.nodes s.nodes.length i with
  | some t => .ok t
  | none => .error (.stop .brokenArena)

/-- The tree is discarded: `ROOT <- NONE, NNODES <- 0` (10_state.md R47). -/
def discardTree (s : State) : State := { s with nodes := [], root := none }

/-- `Alloc()` (44_tree_codec.md R170), with the entry's first contents. -/
def allocNode (n : Node) (s : State) : Except Exn (NodeIx × State) :=
  if s.nodes.length < Config.nodeCap then
    .ok (BitVec.ofNat 9 s.nodes.length, { s with nodes := s.nodes ++ [n] })
  else .error (.raise .malformedTree)

/-- `NODE[i] <- n`, for an allocated entry. -/
def setNode (i : NodeIx) (n : Node) (s : State) : State := { s with nodes := s.nodes.set i.toNat n }

end Sys2Proof.Machine
end

