-- ==== Sys2Proof/Machine/Operands.lean ====
section
/-! DEFINITION. The operand forms of a command (30_encoding.md R91, R92) as the values its meaning works on: a bit or a
value to append, a stream offset, a count, a result to deliver. -/

namespace Sys2Proof.Machine

/-- Append an operand of any width (formats `B1`, `B8` and `W32`; 43_bit_writer_reader.md R148 to R150). -/
def appendOperand {n : Nat} (v : BitVec n) (s : State) : Host.Outcome State Fault Refusal :=
  settle (fun e => raiseErr e s) (putBits v s)

/-- Deliver a value in `RESULT`, zero-extended (10_state.md R26). -/
def deliver {n : Nat} (v : BitVec n) (s : State) : State := { s with result := v.setWidth 32 }

/-- `RESULT <- zext_32(ReadBits(n))` (43_bit_writer_reader.md R155 to R157). -/
def readResult (n : Nat) (s : State) : Host.Outcome State Fault Refusal :=
  settle (fun e => raiseErr e s) (do
    let (v, s') ← readBits n s
    pure (deliver v s'))

end Sys2Proof.Machine
end

