-- ==== Sys2Proof/Machine/BitIO.lean ====
section
/-! DEFINITION. BitWriter and BitReader: the commands `BW.*` and `BR.*` (43_bit_writer_reader.md). -/

namespace Sys2Proof.Machine

/-- `BW.INIT` (43_bit_writer_reader.md R146). -/
def execBwInit (s : State) : Host.Outcome State Fault Refusal := .next (succeed (emptyWriter s))

/-- `BW.PUTBIT b` (43_bit_writer_reader.md R148). -/
def execBwPutbit (b : BitVec 1) (s : State) : Host.Outcome State Fault Refusal := appendOperand b s

/-- `BW.PUTBYTE v` (43_bit_writer_reader.md R149). -/
def execBwPutbyte (v : Byte) (s : State) : Host.Outcome State Fault Refusal := appendOperand v s

/-- `BW.PUTU32 n` (43_bit_writer_reader.md R150). -/
def execBwPutu32 (n : Word32) (s : State) : Host.Outcome State Fault Refusal := appendOperand n s

/-- `BW.FINAL` (43_bit_writer_reader.md R151). -/
def execBwFinal (s : State) : Host.Outcome State Fault Refusal :=
  settle (fun e => raiseErr e s) (finalBody s)

/-- `BR.SEEK n` (43_bit_writer_reader.md R154): any 32-bit offset. -/
def execBrSeek (n : Word32) (s : State) : Host.Outcome State Fault Refusal := .next (succeed { s with rpos := n })

/-- `BR.GETBIT` (43_bit_writer_reader.md R155). -/
def execBrGetbit (s : State) : Host.Outcome State Fault Refusal := readResult 1 s

/-- `BR.GETBYTE` (43_bit_writer_reader.md R156). -/
def execBrGetbyte (s : State) : Host.Outcome State Fault Refusal := readResult 8 s

/-- `BR.GETU32` (43_bit_writer_reader.md R157). -/
def execBrGetu32 (s : State) : Host.Outcome State Fault Refusal := readResult 32 s

end Sys2Proof.Machine
end

