-- ==== Sys2Proof/Machine/Builder.lean ====
section
/-! DEFINITION. HuffmanTreeBuilder: `TB.BUILD` (41_tree_builder.md). -/

namespace Sys2Proof.Machine

/-- An entry of the transient merge queue: a node index and that node's weight (10_state.md R42). -/
structure QEntry where
  ix : NodeIx
  weight : Word32
  deriving DecidableEq, Repr

/-- Insert before the first entry whose weight is not smaller. -/
def insertStable (x : QEntry) : List QEntry → List QEntry
  | [] => [x]
  | y :: ys => if x.weight.toNat ≤ y.weight.toNat then x :: y :: ys else y :: insertStable x ys

/-- `StableSortByWeight` (41_tree_builder.md R124): weights ascend, equal weights keep their order. -/
def stableSort : List QEntry → List QEntry
  | [] => []
  | x :: xs => insertStable x (stableSort xs)

/-- One merge step (41_tree_builder.md R122): the lowest becomes the left child, the second-lowest the right child, the
new node goes to the end of the queue (`CHILD_ASSIGN`, 92_eei_decisions.md D8). -/
def mergeStep (nodes : List Node) (q : List QEntry) : List Node × List QEntry :=
  match stableSort q with
  | a :: b :: rest =>
    (nodes ++ [.internal (a.weight + b.weight) a.ix b.ix],
      rest ++ [⟨BitVec.ofNat 9 nodes.length, a.weight + b.weight⟩])
  | q' => (nodes, q')

/-- A number of merge steps. A queue of `k` entries has one entry after `k - 1` of them (41_tree_builder.md R123). -/
def mergeSteps : Nat → List Node → List QEntry → List Node × List QEntry
  | 0, nodes, q => (nodes, q)
  | k + 1, nodes, q => mergeSteps k (mergeStep nodes q).1 (mergeStep nodes q).2

/-- The seeds: one leaf per distinct symbol in first-occurrence order, with its count (41_tree_builder.md R121). -/
def seedNodes (s : State) : List Node := s.freqOrder.map (fun b => .leaf b (countOf s b))

/-- The queue `[0, 1, ..., NSYM - 1]` (41_tree_builder.md R121). -/
def seedQueue (s : State) : List QEntry :=
  (s.freqOrder.zipIdx).map (fun p => ⟨BitVec.ofNat 9 p.2, countOf s p.1⟩)

/-- The body of `TB.BUILD` (41_tree_builder.md R120). -/
def buildBody (s : State) : Except Exn State :=
  if Config.alphabetMax < s.freqOrder.length then .error (.stop .nodeAddress)
  else
    let built := mergeSteps (s.freqOrder.length - 1) (seedNodes s) (seedQueue s)
    .ok { s with nodes := built.1, root := (built.2.head?).map QEntry.ix }

/-- `TB.BUILD` (41_tree_builder.md R120). -/
def execTbBuild (s : State) : Host.Outcome State Fault Refusal :=
  settle (fun e => raiseErr e s) (buildBody s)

end Sys2Proof.Machine
end

