-- ==== Sys2Proof/Machine/Counter.lean ====
section
/-! DEFINITION. ByteFrequencyCounter: `FQ.COUNT` (40_freq_counter.md). -/

namespace Sys2Proof.Machine

/-- One input byte: first occurrence enters it in `FREQ.ORDER`, and its count goes up by one
(40_freq_counter.md R110). No count wraps (00_scope.md R9, log entry 13). -/
def countByte (s : State) (b : Byte) : State :=
  { s with
    freqOrder := if countOf s b = 0 then s.freqOrder ++ [b] else s.freqOrder
    freqCount := tableSet s.freqCount b (countOf s b + 1) }

/-- The body of `FQ.COUNT` (40_freq_counter.md R110). -/
def countBody (s : State) : Except Exn State :=
  if s.cfg.inCap.val < s.inLen.toNat then .error (.stop .ibufAddress)
  else .ok ((inputBytes s).foldl countByte { s with freqCount := zeroCounts, freqOrder := [] })

/-- `FQ.COUNT` (40_freq_counter.md R110). -/
def execFqCount (s : State) : Host.Outcome State Fault Refusal :=
  settle (fun e => raiseErr e s) (countBody s)

end Sys2Proof.Machine
end

