-- ==== Sys2Proof/Machine/Datapath.lean ====
section
/-! DEFINITION. The encoder and decoder datapath: `EN.SYM`, `EN.PAYLOAD`, `DE.SYM`, `DE.PAYLOAD`
(45_encoder_decoder_datapath.md). -/

namespace Sys2Proof.Machine

/-- Append the code of one symbol: the table test, then the capacity test (45_encoder_decoder_datapath.md R185). -/
def encodeSymbol (v : Byte) (s : State) : Except Exn State :=
  match codeOf s v with
  | none => .error (.raise .unmappedSymbol)
  | some q => putSeq q s

/-- `EN.SYM v` (45_encoder_decoder_datapath.md R185). -/
def execEnSym (v : Byte) (s : State) : Host.Outcome State Fault Refusal :=
  settle (fun e => raiseErr e s) (encodeSymbol v s)

/-- The codes of a list of symbols, in order, stopping at the first failure (45_encoder_decoder_datapath.md R186). -/
def encodeSymbols : List Byte → State → Except Exn State
  | [], s => .ok s
  | v :: vs, s => do
    let s ← encodeSymbol v s
    encodeSymbols vs s

/-- The body of `EN.PAYLOAD` (45_encoder_decoder_datapath.md R186). -/
def payloadBody (s : State) : Except Exn State :=
  if s.cfg.inCap.val < s.inLen.toNat then .error (.stop .ibufAddress) else encodeSymbols (inputBytes s) s

/-- `EN.PAYLOAD` (45_encoder_decoder_datapath.md R186): a failure restores the writer, so it appends the whole payload
or nothing. -/
def execEnPayload (s : State) : Host.Outcome State Fault Refusal :=
  settle (fun e => raiseErr e s) (payloadBody s)

/-- `Descend()` from a tree's root (45_encoder_decoder_datapath.md R188): `0` goes left, `1` goes right, until a leaf. -/
def descend : Tree → State → Except Exn (Byte × State)
  | .leaf b, s => .ok (b, s)
  | .node l r, s => do
    let (b, s) ← readBits 1 s
    if b = 0 then descend l s else descend r s

/-- The body of `DE.SYM` (45_encoder_decoder_datapath.md R188). -/
def deSymBody (s : State) : Except Exn State :=
  match s.root with
  | none => .error (.raise .malformedHeader)
  | some r => do
    let t ← treeIn s r
    let (b, s) ← descend t s
    pure (deliver b s)

/-- `DE.SYM` (45_encoder_decoder_datapath.md R188). -/
def execDeSym (s : State) : Host.Outcome State Fault Refusal :=
  settle (fun e => raiseErr e s) (deSymBody s)

/-- Decode `n` symbols and append each as a byte (45_encoder_decoder_datapath.md R189, 43_bit_writer_reader.md R160). -/
def decodeSymbols (t : Tree) : Nat → State → Except Exn State
  | 0, s => .ok s
  | n + 1, s => do
    let (b, s) ← descend t s
    let s ← putBits b s
    decodeSymbols t n s

/-- The part of `DE.PAYLOAD` behind the fresh writer: no tree is asked for when no symbol is
(45_encoder_decoder_datapath.md R189). -/
def decodeCount (n : Word32) (s : State) : Except Exn State :=
  if n = 0 then .ok s
  else
    match s.root with
    | none => .error (.raise .malformedHeader)
    | some r => do
      let t ← treeIn s r
      decodeSymbols t n.toNat s

/-- The body of `DE.PAYLOAD n`: no tree, then capacity, then the symbols (45_encoder_decoder_datapath.md R189). -/
def dePayloadBody (n : Word32) (s : State) : Except Exn State :=
  if n ≠ 0 ∧ s.root = none then .error (.raise .malformedHeader)
  else if s.cfg.outCap.val < n.toNat then .error (.raise .capacityExceeded)
  else decodeCount n (emptyWriter s)

/-- `DE.PAYLOAD n` (45_encoder_decoder_datapath.md R189). A failure leaves an empty writer and `RPOS` as it was; the
tree is kept (60_exceptions.md R252 (b)). -/
def execDePayload (n : Word32) (s : State) : Host.Outcome State Fault Refusal :=
  settle (fun e => raiseErr e (emptyWriter s)) (dePayloadBody n s)

end Sys2Proof.Machine
end

