-- ==== Sys2Proof/Machine/Generator.lean ====
section
/-! DEFINITION. CodeTableGenerator: `CG.GEN` (42_code_generator.md). -/

namespace Sys2Proof.Machine

/-- `Walk(i, path)` over the abstract tree (42_code_generator.md R135): left before right, and the later of two leaves
with one symbol overwrites the earlier (R136). -/
def walk : Tree → Bits → Vector (Option Bits) 256 → Vector (Option Bits) 256
  | .leaf b, path, t => tableSet t b (some path)
  | .node l r, path, t => walk r (path ++ [true]) (walk l (path ++ [false]) t)

/-- The body of `CG.GEN` (42_code_generator.md R135). -/
def genBody (s : State) : Except Exn State :=
  match s.root with
  | none => .ok { s with code := emptyTable }
  | some r => do
    let t ← treeIn s r
    pure { s with code := walk t [] emptyTable }

/-- `CG.GEN` (42_code_generator.md R135). -/
def execCgGen (s : State) : Host.Outcome State Fault Refusal :=
  settle (fun e => raiseErr e s) (genBody s)

end Sys2Proof.Machine
end

