-- ==== Sys2Proof/Machine/TreeCodec.lean ====
section
/-! DEFINITION. TreeCodec: `TC.SER` and `TC.DES` (44_tree_codec.md). -/

namespace Sys2Proof.Machine

/-- `Ser` (44_tree_codec.md R168) over the abstract tree: `11` and the symbol for a leaf, `10` and both subtrees for an
internal node. -/
def serTree : Tree → Bits
  | .leaf b => [true, true] ++ bitsOf b
  | .node l r => [true, false] ++ serTree l ++ serTree r

/-- `SerBits(ROOT)` (44_tree_codec.md R168); the single bit `0` when there is no tree. -/
def serBits (s : State) : Except Exn Bits :=
  match s.root with
  | none => .ok [false]
  | some r => do
    let t ← treeIn s r
    pure (serTree t)

/-- The body of `TC.SER` (44_tree_codec.md R167). -/
def serBody (s : State) : Except Exn State := do
  let q ← serBits s
  putSeq q s

/-- `TC.SER` (44_tree_codec.md R167). -/
def execTcSer (s : State) : Host.Outcome State Fault Refusal :=
  settle (fun e => raiseErr e s) (serBody s)

/-- `Parse(d)` (44_tree_codec.md R170) with `levels = 257 - d` levels left: depth, then the bits in stream order, then
the allocation, then the left child and its test before the right child (92_eei_decisions.md D11). An internal node's
entry is allocated before its children and filled after them; the contents it has in between are read by nothing. -/
def parse : Nat → State → Except Exn (Option NodeIx × State)
  | 0, _ => .error (.raise .malformedTree)
  | levels + 1, s => do
    let (e, s) ← readBits 1 s
    if e = 0 then pure (none, s)
    else do
      let (k, s) ← readBits 1 s
      if k = 1 then do
        let (b, s) ← readBits 8 s
        let (i, s) ← allocNode (.leaf b 0) s
        pure (some i, s)
      else do
        let (i, s) ← allocNode (.internal 0 0 0) s
        match ← parse levels s with
        | (none, _) => .error (.raise .malformedTree)
        | (some l, s) =>
          match ← parse levels s with
          | (none, _) => .error (.raise .malformedTree)
          | (some r, s) => pure (some i, setNode i (.internal 0 l r) s)

/-- The body of `TC.DES`, on a state whose old tree is discarded (44_tree_codec.md R169). -/
def desBody (s : State) : Except Exn State := do
  let (r, s) ← parse Config.maxDepth s
  pure { s with root := r }

/-- `TC.DES` (44_tree_codec.md R169). A failure leaves `RPOS` as it was and the tree discarded
(60_exceptions.md R252 (a)). -/
def execTcDes (s : State) : Host.Outcome State Fault Refusal :=
  settle (fun e => raiseErr e (discardTree s)) (desBody (discardTree s))

end Sys2Proof.Machine
end

