-- ==== Sys2Proof/Machine/Compressor.lean ====
section
/-! DEFINITION. Compressor: `COMPRESS` (46_compress.md). -/

namespace Sys2Proof.Machine

/-- Steps 1 and 2: counts, tree and code table, which cannot fail (46_compress.md R200). -/
def analyseBody (s : State) : Except Exn State := do
  let s ← countBody s
  let s ← buildBody s
  genBody s

/-- Step 5, without the table test, which cannot fail here: `PutSeq(CODE[b].BITS)` for each input byte
(46_compress.md R200). -/
def appendCodes : List Byte → State → Except Exn State
  | [], s => .ok s
  | b :: bs, s => do
    let s ← putSeq (codeBits s b) s
    appendCodes bs s

/-- Steps 3 to 6 on a fresh writer, and the end of the tree (46_compress.md R200). No tree bit is written for an empty
input (R202). -/
def emitBody (s : State) : Except Exn State := do
  let s ← putBits s.inLen s
  let s ← if s.freqOrder = [] then pure s
    else do
      let s ← serBody s
      appendCodes (inputBytes s) s
  let s ← finalBody s
  pure (discardTree s)

/-- What a capacity failure of `COMPRESS` leaves: no output, no tree, and `FREQ`, `NSYM`, `CODE` as just computed
(46_compress.md R200, 60_exceptions.md R252 (c)). -/
def compressFail (s : State) (e : ErrCode) : State := raiseErr e (discardTree (emptyWriter s))

/-- `COMPRESS` (46_compress.md R200). -/
def execCompress (s : State) : Host.Outcome State Fault Refusal :=
  match analyseBody s with
  | .ok a => settle (compressFail a) (emitBody (emptyWriter a))
  | .error e => settle (compressFail s) (.error e)

end Sys2Proof.Machine
end

