-- ==== Sys2Proof/Machine/Decompressor.lean ====
section
/-! DEFINITION. Decompressor: `DECOMPRESS` (47_decompress.md). -/

namespace Sys2Proof.Machine

/-- The tree and the payload of a stream with a nonzero count `n` (47_decompress.md R215 steps 2 to 4, R218, R219). -/
def expandBody (n : Word32) (s : State) : Except Exn State := do
  let (r, s) ← parse Config.maxDepth s
  match r with
  | none => .error (.raise .malformedHeader)
  | some i =>
    if s.cfg.outCap.val < n.toNat then .error (.raise .capacityExceeded)
    else do
      let t ← treeIn s i
      let s ← decodeSymbols t n.toNat { s with root := some i }
      pure (discardTree s)

/-- The body of `DECOMPRESS`, on a state with no tree and a fresh writer (47_decompress.md R215, R216). -/
def decompressBody (s : State) : Except Exn State :=
  if s.inLen.toNat < 4 then .error (.raise .malformedHeader)
  else do
    let (n, s) ← readBits 32 { s with rpos := 0 }
    if n = 0 then pure s else expandBody n s

/-- `DECOMPRESS` (47_decompress.md R215). A failure leaves no output, no tree and `RPOS` as it was
(60_exceptions.md R252 (a), (b)). -/
def execDecompress (s : State) : Host.Outcome State Fault Refusal :=
  settle (fun e => raiseErr e (emptyWriter (discardTree s))) (decompressBody (emptyWriter (discardTree s)))

end Sys2Proof.Machine
end

