-- ==== Sys2Proof/Machine/System.lean ====
section
/-! DEFINITION. `RESET` (48_system.md R230) and the external reset event (70_reset_and_hazards.md R270). -/

namespace Sys2Proof.Machine

/-- Every piece of the spec's state takes its reset value (10_state.md R44). The capacities, the host's actions and what
the host has read are no state of the CORE and stay; one more reset has happened, so unwritten input bytes are free anew
(log entries 2 and 12). -/
def resetState (s : State) : State :=
  { State.resetWith s.cfg with hostQueue := s.hostQueue, lastRead := s.lastRead, resets := s.resets + 1 }

/-- `RESET` (48_system.md R230). -/
def execReset (s : State) : Host.Outcome State Fault Refusal := .next (succeed (resetState s))

end Sys2Proof.Machine
end

