-- ==== Sys2Proof/Machine/Dispatch.lean ====
section
/-! DEFINITION. The dispatch of a decoded command to its meaning, one arm per row of spec/opcode_table.json. -/

namespace Sys2Proof.Machine

/-- One command, executed to completion (10_state.md R21). -/
def exec (i : Instr) (s : State) : Host.Outcome State Fault Refusal :=
  match i with
  | .reset => Sys2Proof.Machine.execReset s
  | .fqCount => Sys2Proof.Machine.execFqCount s
  | .tbBuild => Sys2Proof.Machine.execTbBuild s
  | .cgGen => Sys2Proof.Machine.execCgGen s
  | .bwInit => Sys2Proof.Machine.execBwInit s
  | .bwPutbit b => Sys2Proof.Machine.execBwPutbit b s
  | .bwPutbyte v => Sys2Proof.Machine.execBwPutbyte v s
  | .bwPutu32 n => Sys2Proof.Machine.execBwPutu32 n s
  | .bwFinal => Sys2Proof.Machine.execBwFinal s
  | .brSeek n => Sys2Proof.Machine.execBrSeek n s
  | .brGetbit => Sys2Proof.Machine.execBrGetbit s
  | .brGetbyte => Sys2Proof.Machine.execBrGetbyte s
  | .brGetu32 => Sys2Proof.Machine.execBrGetu32 s
  | .tcSer => Sys2Proof.Machine.execTcSer s
  | .tcDes => Sys2Proof.Machine.execTcDes s
  | .enSym v => Sys2Proof.Machine.execEnSym v s
  | .enPayload => Sys2Proof.Machine.execEnPayload s
  | .deSym => Sys2Proof.Machine.execDeSym s
  | .dePayload n => Sys2Proof.Machine.execDePayload n s
  | .compress => Sys2Proof.Machine.execCompress s
  | .decompress => Sys2Proof.Machine.execDecompress s

end Sys2Proof.Machine
end

