-- ==== Sys2Proof/Machine/HostPort.lean ====
section
/-! DEFINITION. The host port: what each host action of 10_state.md R46 does, and the register map R45. -/

namespace Sys2Proof.Machine

/-- The registers of 10_state.md R45. -/
inductive Reg where
  | cmd
  | status
  | result
  | inLen
  | outLen
  | rpos
  | wcnt
  | wacc
  | nsym
  | nnodes
  | root
  deriving DecidableEq, Repr

/-- The register a number names; 0xB and above name none (10_state.md R45). -/
def regOf (number : Nat) : Option Reg :=
  [Reg.cmd, .status, .result, .inLen, .outLen, .rpos, .wcnt, .wacc, .nsym, .nnodes, .root][number]?

/-- `ROOT` as the host reads it: 0xFFFF_FFFF for `NONE`, else the index (10_state.md R33). -/
def rootWord (s : State) : Word32 :=
  match s.root with
  | none => 0xFFFFFFFF#32
  | some i => i.setWidth 32

/-- What the host reads from a register, zero-extended; `CMD` reads 0 (10_state.md R24, R45). -/
def regRead (s : State) : Reg → BitVec 64
  | .cmd => 0
  | .status => (statusWord s).setWidth 64
  | .result => s.result.setWidth 64
  | .inLen => s.inLen.setWidth 64
  | .outLen => s.outLen.setWidth 64
  | .rpos => s.rpos.setWidth 64
  | .wcnt => s.wcnt.setWidth 64
  | .wacc => s.wacc.setWidth 64
  | .nsym => s.nsym.setWidth 64
  | .nnodes => s.nnodes.setWidth 64
  | .root => (rootWord s).setWidth 64

/-- `CODE_INFO[b]`: `V` in bit 31, `LEN` in [7:0], other bits zero (10_state.md R40). -/
def codeInfo (s : State) (b : Byte) : Word32 :=
  match codeOf s b with
  | none => 0
  | some q => 0x80000000#32 ||| (BitVec.ofNat 8 q.length).setWidth 32

/-- `CODE_W[b][k]`: code bits `32 k` to `32 k + 31`, the first in bit 31, bits beyond `LEN` zero (10_state.md R40). -/
def codeWord (s : State) (b : Byte) (k : BitVec 3) : Word32 :=
  BitVec.ofNat 32 (numOf ((List.range 32).map (fun j => (codeBits s b).getD (32 * k.toNat + j) false)))

/-- A command word written to `CMD`: the command it encodes, or `IllegalCommand` and nothing else
(10_state.md R24, 30_encoding.md R94, 60_exceptions.md R247). -/
def execWord (w : CmdWord) (s : State) : Host.Outcome State Fault Refusal :=
  match decode w with
  | .ok i => exec i s
  | .error _ => .next (raiseErr .illegalCommand s)

/-- `IN_LEN <- n` for `n ≤ IN_CAP`; the host must not write a larger value (10_state.md R27, R46, log entry 14). -/
def writeInLen (n : BitVec 64) (s : State) : Host.Outcome State Fault Refusal :=
  if n.toNat ≤ s.cfg.inCap.val then .next { s with inLen := n.setWidth 32 } else .refused .hostInLenTooLarge

/-- A host write of a register: `CMD` and `IN_LEN` take it, the others ignore it (10_state.md R46). -/
def writeRegister (number : Nat) (v : BitVec 64) (s : State) : Host.Outcome State Fault Refusal :=
  match regOf number with
  | none => .refused .hostRegisterAbsent
  | some .cmd => execWord v s
  | some .inLen => writeInLen v s
  | some _ => .next s

/-- A host read: the value goes to the host, the CORE does not change (20_memory.md R68, log entry 8). -/
def hostRead (v : BitVec 64) (s : State) : State := { s with lastRead := some v }

/-- `OBUF[i]` as the host reads it: a value only below `OUT_LEN` (10_state.md R46). -/
def readObufByte (s : State) (i : Nat) : Option Byte := if i < s.outLen.toNat then s.obuf.read i else none

/-- The bytes `OBUF[0 .. OUT_LEN - 1]`, where each has a value. -/
def outputBytes (s : State) : List (Option Byte) := (List.range s.outLen.toNat).map (readObufByte s)

/-- One host action (10_state.md R46). -/
def hostAct (a : HostAction) (s : State) : Host.Outcome State Fault Refusal :=
  match a with
  | .writeReg number v => writeRegister number v s
  | .writeIbuf i b => if i < s.cfg.inCap.val then .next { s with ibuf := s.ibuf.write i b } else .fault .ibufAddress
  | .readReg number =>
    match regOf number with
    | none => .refused .hostRegisterAbsent
    | some r => .next (hostRead (regRead s r) s)
  | .readObuf i =>
    match readObufByte s i with
    | none => .refused .hostObufNoValue
    | some b => .next (hostRead (b.setWidth 64) s)
  | .readIbuf i =>
    if i < s.cfg.inCap.val then
      match s.ibuf.read i with
      | none => .refused .hostIbufNoValue
      | some b => .next (hostRead (b.setWidth 64) s)
    else .fault .ibufAddress
  | .readCodeInfo b => .next (hostRead ((codeInfo s b).setWidth 64) s)
  | .readCodeWord b k => .next (hostRead ((codeWord s b k).setWidth 64) s)
  | .resetEvent => .next (resetState s)

end Sys2Proof.Machine
end

