-- ==== Sys2Proof/Machine/Step.lean ====
section
/-! DEFINITION. One step of the machine: the host's next action (10_state.md R21, 20_memory.md R75), and where a command
word stands for the next step to run it. -/

namespace Sys2Proof.Machine

/-- One step: the host's next action, taken from the front of its list. With no action left the CORE is idle and the
state stays as it is (70_reset_and_hazards.md R282, log entry 7). -/
def step (s : State) : Host.Outcome State Fault Refusal :=
  match s.hostQueue with
  | [] => .next s
  | a :: rest => hostAct a { s with hostQueue := rest }

/-- The CORE fetches nothing: a command comes as the host's write to `CMD` (10_state.md R23). So the state in which the
next step runs the word `w` is the one whose next host action writes it to register 0 (log entry 6). -/
def State.withFetchWord (s : State) (nbits w : Nat) : State :=
  { s with hostQueue := .writeReg 0 (BitVec.ofNat 64 (w % 2 ^ nbits)) :: s.hostQueue }

end Sys2Proof.Machine
end

