-- ==== Sys2Proof/Machine/Assembler.lean ====
section
/-! DEFINITION. The assembler's side of 30_encoding.md: commands by mnemonic (R97), pseudo-instructions (R98) and host
directives (R99), each as the commands or host actions it stands for. -/

namespace Sys2Proof.Machine

/-- Why a line is no command (30_encoding.md R97). These are errors of the assembler, not illegal commands. -/
inductive AsmError where
  | unknownMnemonic
  | operandMissing
  | operandUnexpected
  | operandTooLarge
  deriving DecidableEq, Repr

/-- The word of a line: `(op << 56) | operand`, for a mnemonic of 30_encoding.md R93 and an operand that fits its
format (R97, log entry 21). -/
def assemble (mnemonic : String) (operand : Option Nat) : Except AsmError CmdWord :=
  match opTable.find? (fun r => r.mnemonic == mnemonic) with
  | none => .error .unknownMnemonic
  | some r =>
    match r.format, operand with
    | .n, none => .ok (rowMatch r)
    | .n, some _ => .error .operandUnexpected
    | _, none => .error .operandMissing
    | f, some n => if n < 2 ^ formatWidth f then .ok (rowMatch r ||| BitVec.ofNat 64 n) else .error .operandTooLarge

/-- The pseudo-instructions (30_encoding.md R98). -/
inductive Pseudo where
  /-- `BW.PUTBITS "b0b1...bk"`. -/
  | putbits (q : Bits)
  /-- `BW.PUTHDR n`. -/
  | puthdr (n : Word32)
  /-- `BW.PUTLEAF v`. -/
  | putleaf (v : Byte)
  /-- `BR.REWIND`. -/
  | rewind
  /-- `BR.SKIPHDR`. -/
  | skiphdr
  deriving DecidableEq, Repr

/-- The commands a pseudo-instruction stands for (30_encoding.md R98). -/
def expandPseudo : Pseudo → List Instr
  | .putbits q => q.map (fun b => .bwPutbit (BitVec.ofBool b))
  | .puthdr n => [.bwPutu32 n]
  | .putleaf v => [.bwPutbit 1, .bwPutbit 1, .bwPutbyte v]
  | .rewind => [.brSeek 0]
  | .skiphdr => [.brSeek 32]

/-- The host action that issues a command (10_state.md R46). -/
def issue (i : Instr) : HostAction := .writeReg 0 (encode i)

/-- The directive `.in b0 b1 ... bk`: the bytes, then the length (30_encoding.md R99). -/
def directiveIn (bs : List Byte) : List HostAction :=
  bs.zipIdx.map (fun p => .writeIbuf p.2 p.1) ++ [.writeReg 3 (BitVec.ofNat 64 bs.length)]

/-- The directive `.loop`: the output becomes the input (30_encoding.md R99). What the host reads is
`OBUF[0 .. OUT_LEN - 1]`, which changes nothing; `none` when one of those bytes has no value, which no run reaches. -/
def directiveLoop (s : State) : Option (List HostAction) := ((outputBytes s).mapM id).map directiveIn

end Sys2Proof.Machine
end

