-- ==== Sys2Proof/Safety.lean ====
section
/-! DEFINITION. What claims are stated in: the invariants of the state (10_state.md R27 to R41), what a writer has
written and a tree denotes, which part of the state two states share, and runs that meet no failure. -/

namespace Sys2Proof.Machine

/-! ## Invariants -/

/-- `IN_LEN ≤ IN_CAP` (10_state.md R27). -/
def InputOk (s : State) : Prop := s.inLen.toNat ≤ s.cfg.inCap.val

/-- `8 × OUT_LEN + WCNT ≤ 8 × OUT_CAP` and `WACC[7 - WCNT : 0]` all zero (10_state.md R28, R30). -/
def WriterOk (s : State) : Prop :=
  writePos s ≤ writeCap s ∧ ∀ k, k < 8 - s.wcnt.toNat → s.wacc.getLsbD k = false

/-- Both buffers in canonical form and inside their capacities, and every byte below `OUT_LEN` has a value
(10_state.md R34, R35). -/
def BuffersOk (s : State) : Prop :=
  Memory.wf s.ibuf ∧ Memory.wf s.obuf ∧ (∀ c ∈ s.ibuf, c.1 < s.cfg.inCap.val) ∧
    (∀ c ∈ s.obuf, c.1 < s.cfg.outCap.val) ∧ ∀ i, i < s.outLen.toNat → (s.obuf.read i).isSome = true

/-- The invariants of the frequency table (10_state.md R36, 40_freq_counter.md R111): no symbol twice, positive counts
for exactly the listed symbols, and a sum that is a length of some input. -/
def FreqOk (s : State) : Prop :=
  s.freqOrder.Nodup ∧ (∀ b, countOf s b ≠ 0 ↔ b ∈ s.freqOrder) ∧
    (s.freqOrder.map (fun b => (countOf s b).toNat)).sum ≤ s.cfg.inCap.val

/-- The number of nodes of a tree. -/
def Tree.size : Tree → Nat
  | .leaf _ => 1
  | .node l r => Tree.size l + Tree.size r + 1

/-- The number of leaves of a tree. -/
def Tree.leaves : Tree → Nat
  | .leaf _ => 1
  | .node l r => Tree.leaves l + Tree.leaves r

/-- The number of node levels of a tree, the root's level being the first (44_tree_codec.md R171). -/
def Tree.levels : Tree → Nat
  | .leaf _ => 1
  | .node l r => max (Tree.levels l) (Tree.levels r) + 1

/-- The symbols of a tree's leaves, left to right. -/
def Tree.symbols : Tree → List Byte
  | .leaf b => [b]
  | .node l r => Tree.symbols l ++ Tree.symbols r

/-- Each leaf's symbol with its path from the root, `false` for left and `true` for right, left to right
(42_code_generator.md R135). -/
def Tree.paths : Tree → List (Byte × Bits)
  | .leaf b => [(b, [])]
  | .node l r =>
    (Tree.paths l).map (fun p => (p.1, false :: p.2)) ++ (Tree.paths r).map (fun p => (p.1, true :: p.2))

/-- The indices met on a walk from an entry, at most `fuel` levels deep. -/
def reachFrom (nodes : List Node) : Nat → NodeIx → List NodeIx
  | 0, _ => []
  | fuel + 1, i =>
    match nodes[i.toNat]? with
    | none => []
    | some (.leaf _ _) => [i]
    | some (.internal _ l r) => i :: (reachFrom nodes fuel l ++ reachFrom nodes fuel r)

/-- The invariants of the arena (10_state.md R33, R38): `ROOT = NONE` exactly when `NNODES = 0`; otherwise `ROOT`
denotes a tree of at most 256 levels in which every allocated entry is met exactly once. -/
def ArenaOk (s : State) : Prop :=
  (s.root = none ↔ s.nodes = []) ∧ s.nodes.length ≤ Config.nodeCap ∧
    ∀ r, s.root = some r → ∃ t, treeAt s.nodes s.nodes.length r = some t ∧ Tree.size t = s.nodes.length ∧
      Tree.levels t ≤ Config.maxDepth ∧ (reachFrom s.nodes s.nodes.length r).Nodup

/-- Every code has at most 255 bits (10_state.md R40, R41). -/
def CodeOk (s : State) : Prop := ∀ b q, codeOf s b = some q → q.length ≤ 255

/-- All invariants of the state together. -/
structure Inv (s : State) : Prop where
  input : InputOk s
  writer : WriterOk s
  buffers : BuffersOk s
  freq : FreqOk s
  arena : ArenaOk s
  code : CodeOk s

/-! ## What the writer holds and what a tree denotes -/

/-- The bit string written so far: the bytes below `OUT_LEN`, then the top `WCNT` bits of `WACC`
(43_bit_writer_reader.md R145). -/
def writtenBits (s : State) : Bits :=
  (List.range s.outLen.toNat).flatMap (fun i => bitsOf ((s.obuf.read i).getD 0)) ++ (bitsOf s.wacc).take s.wcnt.toNat

/-- `ROOT` is a node index and denotes the tree `t` (10_state.md R39). -/
def Denotes (s : State) (t : Tree) : Prop := ∃ r, s.root = some r ∧ treeAt s.nodes s.nodes.length r = some t

/-- The bits that stand at a stream offset of the input, all of them before its end (43_bit_writer_reader.md R152). -/
def BitsAt (s : State) (p : Nat) (q : Bits) : Prop := p + q.length ≤ 8 * s.inLen.toNat ∧ inBits s p q.length = q

/-- The weight of a node entry (10_state.md R37). -/
def Node.weight : Node → Word32
  | .leaf _ w => w
  | .internal w _ _ => w

/-- The big-endian value of `IBUF[0 .. 3]` (47_decompress.md R216). -/
def headerCount (s : State) : Nat :=
  2 ^ 24 * (inByte s 0).toNat + 2 ^ 16 * (inByte s 1).toNat + 2 ^ 8 * (inByte s 2).toNat + (inByte s 3).toNat

/-- The codes of a list of symbols, one after the other (45_encoder_decoder_datapath.md R187). -/
def codesOf (s : State) (bs : List Byte) : Bits := bs.flatMap (codeBits s)

/-- The zero bits that fill `m` bits up to a whole byte (43_bit_writer_reader.md R151, R159). -/
def padding (m : Nat) : Bits := List.replicate ((8 - m % 8) % 8) false

/-- The internal nodes that are open on the way to the next node of a serialized tree, the root first: `none` for one
whose left child comes next, `some l` for one whose left subtree `l` is complete (44_tree_codec.md R170). -/
abbrev OpenPath := List (Option Tree)

/-- The bits that stand before the next node. -/
def openBits : OpenPath → Bits
  | [] => []
  | none :: p => [true, false] ++ openBits p
  | some l :: p => [true, false] ++ serTree l ++ openBits p

/-- How many nodes are allocated before the next node. -/
def openNodes : OpenPath → Nat
  | [] => 0
  | none :: p => openNodes p + 1
  | some l :: p => Tree.size l + openNodes p + 1

/-- How many levels the open nodes and the complete subtrees take. The next node is on level `p.length + 1`. -/
def openLevels : OpenPath → Nat
  | [] => 0
  | none :: p => openLevels p + 1
  | some l :: p => max (Tree.levels l) (openLevels p) + 1

/-- What stands before the next node is within the two bounds (44_tree_codec.md R171, R174). -/
def OpenOk (p : OpenPath) : Prop := openNodes p ≤ Config.nodeCap ∧ openLevels p ≤ Config.maxDepth

/-- The entries of a parsed tree from the index `base` on: in the order of the stream, with weight 0
(44_tree_codec.md R172). -/
def arenaOf : Nat → Tree → List Node
  | _, .leaf b => [.leaf b 0]
  | base, .node l r =>
    .internal 0 (BitVec.ofNat 9 (base + 1)) (BitVec.ofNat 9 (base + 1 + Tree.size l)) ::
      (arenaOf (base + 1) l ++ arenaOf (base + 1 + Tree.size l) r)

/-- The output of `s` stands in `u` as its whole input (30_encoding.md R99, 43_bit_writer_reader.md R159). -/
def Presented (s u : State) : Prop :=
  u.inLen = s.outLen ∧ ∀ i, i < s.outLen.toNat → s.obuf.read i = some (inByte u i)

/-- A proper beginning of the output of `s`, whole bytes, stands in `u` as its input (47_decompress.md R221). -/
def PresentedCut (s u : State) : Prop :=
  u.inLen.toNat < s.outLen.toNat ∧ ∀ i, i < u.inLen.toNat → s.obuf.read i = some (inByte u i)

/-- The node `x` is allocated before the node `m` and is no child of a node before `m`: it is in the merge queue when
`m` is made (41_tree_builder.md R122). -/
def InQueue (nodes : List Node) (m x : Nat) : Prop :=
  x < m ∧ ∀ n w l r, n < m → nodes[n]? = some (.internal w l r) → l.toNat ≠ x ∧ r.toNat ≠ x

/-- The node `x` comes before the node `y` in the queue's order: by weight, then by entry into the queue, which is the
order of the indices (41_tree_builder.md R124). -/
def Before (nodes : List Node) (x y : Nat) : Prop :=
  ∃ a b, nodes[x]? = some a ∧ nodes[y]? = some b ∧
    (a.weight.toNat < b.weight.toNat ∨ a.weight = b.weight ∧ x < y)

/-! ## What two states share -/

/-- The input, which is the host's (10_state.md R27, R34). -/
def SameInput (s t : State) : Prop := t.ibuf = s.ibuf ∧ t.inLen = s.inLen

/-- The writer (43_bit_writer_reader.md R145). -/
def SameWriter (s t : State) : Prop := t.obuf = s.obuf ∧ t.outLen = s.outLen ∧ t.wcnt = s.wcnt ∧ t.wacc = s.wacc

/-- The tree (10_state.md R33, R37). -/
def SameTree (s t : State) : Prop := t.nodes = s.nodes ∧ t.root = s.root

/-- The frequency table (10_state.md R31, R36). -/
def SameFreq (s t : State) : Prop := t.freqCount = s.freqCount ∧ t.freqOrder = s.freqOrder

/-- The model's own fields. -/
def SameOwn (s t : State) : Prop :=
  t.cfg = s.cfg ∧ t.hostQueue = s.hostQueue ∧ t.lastRead = s.lastRead ∧ t.resets = s.resets

/-- Every byte of `OBUF` outside the places from `lo` up to `hi` (without `hi`) reads as before. -/
def ObufSameOutside (s t : State) (lo hi : Nat) : Prop :=
  ∀ i, i < lo ∨ hi ≤ i → t.obuf.read i = s.obuf.read i

/-- `t` is `s` after a successful command that appended the bits `q` and did nothing else. -/
def Appended (s t : State) (q : Bits) : Prop :=
  t.err = .ok ∧ writtenBits t = writtenBits s ++ q ∧ writePos t = writePos s + q.length ∧
    ObufSameOutside s t s.outLen.toNat t.outLen.toNat ∧ t.result = s.result ∧ t.rpos = s.rpos ∧ t.code = s.code ∧
    SameInput s t ∧ SameTree s t ∧ SameFreq s t ∧ SameOwn s t

/-- `t` is `s` after a successful command that read `n` bits into `RESULT` and did nothing else. -/
def Delivered (s t : State) (n : Nat) : Prop :=
  t.err = .ok ∧ t.rpos.toNat = s.rpos.toNat + n ∧
    (∀ k, k < 32 → t.result.getLsbD k = (decide (k < n) && inBit s (s.rpos.toNat + (n - 1 - k)))) ∧
    t = { s with err := t.err, rpos := t.rpos, result := t.result }

/-! ## Runs -/

/-- The state after a list of commands, when every one of them succeeds. -/
def runOk : List Instr → State → Option State
  | [], s => some s
  | i :: is, s =>
    match exec i s with
    | .next t => if t.err = .ok then runOk is t else none
    | .fault _ => none
    | .refused _ => none

/-- The commands that can report an error, with the errors they can report: the Failures entries of files 40 to 48, as
60_exceptions.md R248 collects them. -/
def mayReport : Instr → List ErrCode
  | .reset => []
  | .fqCount => []
  | .tbBuild => []
  | .cgGen => []
  | .bwInit => []
  | .bwFinal => []
  | .brSeek _ => []
  | .bwPutbit _ => [.capacityExceeded]
  | .bwPutbyte _ => [.capacityExceeded]
  | .bwPutu32 _ => [.capacityExceeded]
  | .tcSer => [.capacityExceeded]
  | .brGetbit => [.streamUnderrun]
  | .brGetbyte => [.streamUnderrun]
  | .brGetu32 => [.streamUnderrun]
  | .tcDes => [.malformedTree, .streamUnderrun]
  | .enSym _ => [.unmappedSymbol, .capacityExceeded]
  | .enPayload => [.unmappedSymbol, .capacityExceeded]
  | .deSym => [.malformedHeader, .streamUnderrun]
  | .dePayload _ => [.malformedHeader, .streamUnderrun, .capacityExceeded]
  | .compress => [.capacityExceeded]
  | .decompress => [.malformedHeader, .malformedTree, .streamUnderrun, .capacityExceeded]

end Sys2Proof.Machine
end

