-- ==== Sys2Proof/Certificates/Slice0/Obligations.lean ====
section
/-! DEFINITION. The statements for the provers, in the order of spec/: encoding, host and step, reset, then the commands
family by family, then the rules about the whole machine. -/

open Sys2Proof Sys2Proof.Machine

/-! ## Encoding -/

/-- Every command decodes from its own word: no bit of an operand is dropped (30_encoding.md R90 to R93, R97). -/
def Obligations.DecodeOfEncodeIsIdentity : Prop := ∀ i : Instr, decode (encode i) = .ok i

/-- A word is a command exactly when it matches a row of the opcode table, at most one row matches, the row's opcode is
the command's, and no second word encodes the command (30_encoding.md R91, R93, R95). -/
def Obligations.WordsMatchTheTable : Prop :=
  (∀ w : CmdWord, (∃ i, decode w = .ok i) ↔ ∃ r ∈ opTable, rowEncodes r w = true) ∧
    (∀ w : CmdWord, ∀ r ∈ opTable, ∀ r' ∈ opTable, rowEncodes r w = true → rowEncodes r' w = true → r = r') ∧
    ∀ (w : CmdWord) (i : Instr), decode w = .ok i →
      encode i = w ∧ ∃ r ∈ opTable, rowEncodes r w = true ∧ r.op = opcodeOf i

/-- Words written out in the spec decode to the commands they stand for, one or more from each family (30_encoding.md
R93, R97 and the Encoding entries of files 40 to 48). -/
def Obligations.SpecWordsDecode : Prop :=
  decode 0x0100000000000000#64 = .ok .reset ∧ decode 0x1000000000000000#64 = .ok .fqCount ∧
    decode 0x2000000000000000#64 = .ok .tbBuild ∧ decode 0x3000000000000000#64 = .ok .cgGen ∧
    decode 0x4100000000000001#64 = .ok (.bwPutbit 1) ∧ decode 0x4200000000000061#64 = .ok (.bwPutbyte 0x61) ∧
    decode 0x4300000000000004#64 = .ok (.bwPutu32 4) ∧ decode 0x4800000000000020#64 = .ok (.brSeek 32) ∧
    decode 0x5100000000000000#64 = .ok .tcDes ∧ decode 0x6900000000000004#64 = .ok (.dePayload 4) ∧
    decode 0x7000000000000000#64 = .ok .compress ∧ decode 0x7100000000000000#64 = .ok .decompress

/-- What is no command, and what it does: a word is refused exactly when it matches no row, that is when its opcode is
not in the table, or its reserved bits are not zero, or a bit of `arg` outside the operand is set; 235 opcodes, 0x00
among them, are not in the table; and the write of such a word to `CMD` sets `ERR` to 6 and changes nothing else
(30_encoding.md R94). -/
def Obligations.IllegalWordsOnlySetErr : Prop :=
  (∀ w : CmdWord, (∃ e, decode w = .error e) ↔ ∀ r ∈ opTable, rowEncodes r w = false) ∧
    (∀ w : CmdWord, (∃ e, decode w = .error e) ↔
      opAssigned w = false ∨ reservedZero w = false ∨ operandFits w = false) ∧
    ((List.range 256).filter (fun n => formatOf (BitVec.ofNat 8 n) = none)).length = 235 ∧
    formatOf 0x00#8 = none ∧ errBits .illegalCommand = 6 ∧
    ∀ (s : State) (w : CmdWord), (∃ e, decode w = .error e) →
      hostAct (.writeReg 0 w) s = .next { s with err := .illegalCommand }

/-! ## Host and step -/

/-- A step runs the command of the host's next action, if that is a write of its word to `CMD`, on the state without
that action; an idle step changes nothing; and a placed word is the next step's (10_state.md R21, R23, R24). The
host's list and the idle step are the model's own (log entries 6 and 7). -/
def Obligations.StepRunsDecodedCommand : Prop :=
  (∀ (s : State) (w : CmdWord) (rest : List HostAction) (i : Instr),
      s.hostQueue = .writeReg 0 w :: rest → decode w = .ok i → step s = exec i { s with hostQueue := rest }) ∧
    (∀ (s : State) (a : HostAction) (rest : List HostAction),
      s.hostQueue = a :: rest → step s = hostAct a { s with hostQueue := rest }) ∧
    (∀ s : State, s.hostQueue = [] → step s = .next s) ∧
    ∀ (s : State) (nbits w : Nat) (i : Instr), decodeTableWord nbits w = some i →
      step (s.withFetchWord nbits w) = exec i s

/-- What each of the host's actions does (10_state.md R24, R45, R46, 70_reset_and_hazards.md R270). A write to `CMD`
executes the command or sets `ERR`; a read delivers a value and changes nothing else, and which value the registers and
the code table deliver is said in HostReadsRegisters and HostReadsCodeTable. The faults and the refusals are the model's
names for the actions the spec gives no meaning or no value (93_implementation_defined.md U1, U2, U5; log entries 9 and
10), and `lastRead` is the model's own (log entry 8). -/
def Obligations.HostActionsDoWhatTheTableSays : Prop :=
  ∀ s : State,
    (∀ (w : CmdWord) (i : Instr), decode w = .ok i → hostAct (.writeReg 0 w) s = exec i s) ∧
    (∀ (w : CmdWord) (e : DecodeError), decode w = .error e →
      hostAct (.writeReg 0 w) s = .next { s with err := .illegalCommand }) ∧
    hostAct .resetEvent s = exec .reset s ∧
    (∀ k : Nat, k < 11 → ∃ v, hostAct (.readReg k) s = .next { s with lastRead := some v }) ∧
    (∀ b : Byte, ∃ v, hostAct (.readCodeInfo b) s = .next { s with lastRead := some v }) ∧
    (∀ (b : Byte) (k : BitVec 3), ∃ v, hostAct (.readCodeWord b k) s = .next { s with lastRead := some v }) ∧
    (∀ (i : Nat) (b : Byte), i < s.cfg.inCap.val → ∃ t, hostAct (.writeIbuf i b) s = .next t ∧
      t = { s with ibuf := t.ibuf } ∧ ∀ j, t.ibuf.read j = if j = i then some b else s.ibuf.read j) ∧
    (∀ (i : Nat) (b : Byte), s.cfg.inCap.val ≤ i → hostAct (.writeIbuf i b) s = .fault .ibufAddress) ∧
    (∀ n : BitVec 64, n.toNat ≤ s.cfg.inCap.val → ∃ t, hostAct (.writeReg 3 n) s = .next t ∧
      t = { s with inLen := t.inLen } ∧ t.inLen.toNat = n.toNat) ∧
    (∀ n : BitVec 64, s.cfg.inCap.val < n.toNat → hostAct (.writeReg 3 n) s = .refused .hostInLenTooLarge) ∧
    (∀ (k : Nat) (v : BitVec 64), k ≠ 0 → k ≠ 3 → k < 11 → hostAct (.writeReg k v) s = .next s) ∧
    (∀ (k : Nat) (v : BitVec 64), 11 ≤ k → hostAct (.writeReg k v) s = .refused .hostRegisterAbsent ∧
      hostAct (.readReg k) s = .refused .hostRegisterAbsent) ∧
    (∀ (i : Nat) (b : Byte), i < s.outLen.toNat → s.obuf.read i = some b →
      hostAct (.readObuf i) s = .next { s with lastRead := some (b.setWidth 64) }) ∧
    (∀ i : Nat, s.outLen.toNat ≤ i → hostAct (.readObuf i) s = .refused .hostObufNoValue) ∧
    (∀ (i : Nat) (b : Byte), i < s.cfg.inCap.val → s.ibuf.read i = some b →
      hostAct (.readIbuf i) s = .next { s with lastRead := some (b.setWidth 64) }) ∧
    (∀ i : Nat, i < s.cfg.inCap.val → s.ibuf.read i = none →
      hostAct (.readIbuf i) s = .refused .hostIbufNoValue) ∧
    ∀ i : Nat, s.cfg.inCap.val ≤ i → hostAct (.readIbuf i) s = .fault .ibufAddress

/-- What the host reads from each register of the map, with no other effect (10_state.md R24, R25, R30 to R33, R45).
That the value goes to `lastRead` is the model's own (log entry 8). -/
def Obligations.HostReadsRegisters : Prop :=
  ∀ s : State, s.freqOrder.length ≤ 256 → s.nodes.length ≤ 511 →
    ∃ v : Nat → BitVec 64, (∀ k, k < 11 → hostAct (.readReg k) s = .next { s with lastRead := some (v k) }) ∧
      v 0 = 0 ∧ (v 1).toNat < 7 ∧ (v 1 = 0 ↔ s.err = .ok) ∧ (v 1 = 1 ↔ s.err = .malformedHeader) ∧
      (v 1 = 2 ↔ s.err = .malformedTree) ∧ (v 1 = 3 ↔ s.err = .streamUnderrun) ∧
      (v 1 = 4 ↔ s.err = .unmappedSymbol) ∧ (v 1 = 5 ↔ s.err = .capacityExceeded) ∧
      (v 1 = 6 ↔ s.err = .illegalCommand) ∧ (v 2).toNat = s.result.toNat ∧ (v 3).toNat = s.inLen.toNat ∧
      (v 4).toNat = s.outLen.toNat ∧ (v 5).toNat = s.rpos.toNat ∧ (v 6).toNat = s.wcnt.toNat ∧
      (v 7).toNat = s.wacc.toNat ∧ (v 8).toNat = s.freqOrder.length ∧ (v 9).toNat = s.nodes.length ∧
      (s.root = none → v 10 = 0xFFFFFFFF#64) ∧ ∀ r, s.root = some r → (v 10).toNat = r.toNat

/-- What the host reads of the code table: `CODE_INFO` has `V` in bit 31 and `LEN` in
bits [7:0], `CODE_W` the code's bits from bit 31 of word 0 on, and all other bits are zero (10_state.md R40, R46). -/
def Obligations.HostReadsCodeTable : Prop :=
  (∀ (s : State) (b : Byte), codeOf s b = none →
      hostAct (.readCodeInfo b) s = .next { s with lastRead := some 0 } ∧
      ∀ k, hostAct (.readCodeWord b k) s = .next { s with lastRead := some 0 }) ∧
    ∀ (s : State) (b : Byte) (q : Bits), codeOf s b = some q → q.length ≤ 255 →
      (∃ v, hostAct (.readCodeInfo b) s = .next { s with lastRead := some v } ∧
        v.toNat = 2 ^ 31 + q.length) ∧
      ∀ k : BitVec 3, ∃ v, hostAct (.readCodeWord b k) s = .next { s with lastRead := some v } ∧
        v.toNat < 2 ^ 32 ∧ ∀ j, j < 32 → v.getLsbD (31 - j) = q.getD (32 * k.toNat + j) false

/-! ## Reset -/

/-- The reset values the spec states (10_state.md R44), for every pair of capacities. That `State.reset` is the instance
with both capacities 1024 is the model's choice (log entry 1). -/
def Obligations.ResetStateHoldsSpecValues : Prop :=
  ∀ c : Config, ∀ s, s = State.resetWith c →
    s.err = .ok ∧ s.result = 0 ∧ s.inLen = 0 ∧ s.outLen = 0 ∧ s.rpos = 0 ∧ s.wacc = 0 ∧ s.wcnt = 0 ∧ s.nsym = 0 ∧
      s.nnodes = 0 ∧ s.root = none ∧ (∀ b, countOf s b = 0) ∧ (∀ b, codeOf s b = none) ∧
      State.reset = State.resetWith Config.testVectors

/-- `RESET` and the external reset event put every piece of state that has a reset value to it, from every state, and
`RESET` succeeds (48_system.md R230, 70_reset_and_hazards.md R270, 10_state.md R44). -/
def Obligations.ResetCommandRestoresResetValues : Prop :=
  decode 0x0100000000000000#64 = .ok .reset ∧
    ∀ s : State, ∃ t, exec .reset s = .next t ∧ hostAct .resetEvent s = .next t ∧
      t.err = .ok ∧ t.result = 0 ∧ t.inLen = 0 ∧ t.outLen = 0 ∧ t.rpos = 0 ∧ t.wacc = 0 ∧ t.wcnt = 0 ∧ t.nsym = 0 ∧
      t.nnodes = 0 ∧ t.root = none ∧ (∀ b, countOf t b = 0) ∧ (∀ b, codeOf t b = none) ∧
      (∀ i, hostAct (.readObuf i) t = .refused .hostObufNoValue) ∧ t.cfg = s.cfg ∧ t.hostQueue = s.hostQueue

/-- The state after reset meets every invariant, for every pair of capacities. -/
def Obligations.ResetStateMeetsInv : Prop := Inv State.reset ∧ ∀ c : Config, Inv (State.resetWith c)

/-- Every command is defined at once after reset (from 10_state.md R44 and the commands' rules; 70_reset_and_hazards.md
R271 is the spec's own inference): with no input, no symbol, no tree and no code, counter, builder, generator, `EN.PAYLOAD`
and the writer's ends change nothing, `COMPRESS` gives four zero bytes, `DECOMPRESS`, `DE.SYM` and `DE.PAYLOAD` of a count
report `MalformedHeader`, the reading commands and `TC.DES` `StreamUnderrun`, `EN.SYM` `UnmappedSymbol`, and the writer's
commands write their bits. -/
def Obligations.CommandsAfterReset : Prop :=
  ∀ c : Config, ∀ s, s = State.resetWith c →
    (∃ t, exec .reset s = .next t ∧ t = { s with resets := t.resets }) ∧
      exec .fqCount s = .next s ∧ exec .tbBuild s = .next s ∧ exec .cgGen s = .next s ∧ exec .bwInit s = .next s ∧
      (∀ b : BitVec 1, exec (.bwPutbit b) s = .next { s with wacc := if b = 1 then 0x80 else 0, wcnt := 1 }) ∧
      (∀ v : Byte, ∃ t, exec (.bwPutbyte v) s = .next t ∧ t = { s with outLen := 1, obuf := t.obuf } ∧
        t.obuf.read 0 = some v) ∧
      (∀ n : Word32, ∃ t, exec (.bwPutu32 n) s = .next t ∧ t = { s with outLen := 4, obuf := t.obuf } ∧
        t.obuf.read 0 = some (n.extractLsb' 24 8) ∧ t.obuf.read 1 = some (n.extractLsb' 16 8) ∧
        t.obuf.read 2 = some (n.extractLsb' 8 8) ∧ t.obuf.read 3 = some (n.extractLsb' 0 8)) ∧
      exec .bwFinal s = .next s ∧ (∀ n : Word32, exec (.brSeek n) s = .next { s with rpos := n }) ∧
      (∀ v : Byte, exec (.enSym v) s = .next { s with err := .unmappedSymbol }) ∧ exec .enPayload s = .next s ∧
      (∀ n : Word32, exec (.dePayload n) s = .next { s with err := if n = 0 then .ok else .malformedHeader }) ∧
      (∃ t, exec .compress s = .next t ∧ t.err = .ok ∧ t.outLen = 4 ∧ ∀ i, i < 4 → t.obuf.read i = some 0) ∧
      exec .decompress s = .next { s with err := .malformedHeader } ∧
      exec .deSym s = .next { s with err := .malformedHeader } ∧
      exec .brGetbit s = .next { s with err := .streamUnderrun } ∧
      exec .brGetbyte s = .next { s with err := .streamUnderrun } ∧
      exec .brGetu32 s = .next { s with err := .streamUnderrun } ∧
      exec .tcDes s = .next { s with err := .streamUnderrun } ∧
      exec .tcSer s = .next { s with wcnt := 1 }

/-! ## Bit writer and bit reader -/

/-- `BW.INIT` empties the writer and `BR.SEEK n` sets the offset, any offset; neither fails or does anything else
(43_bit_writer_reader.md R146, R154). -/
def Obligations.BwInitAndBrSeekComplete : Prop :=
  ∀ s : State, exec .bwInit s = .next { s with outLen := 0, wacc := 0, wcnt := 0, err := .ok } ∧
    ∀ n : Word32, exec (.brSeek n) s = .next { s with rpos := n, err := .ok }

/-- With room for their bits, `BW.PUTBIT`, `BW.PUTBYTE` and `BW.PUTU32` append them, most significant first, and do
nothing else (43_bit_writer_reader.md R145, R147 to R150). -/
def Obligations.PutCommandsAppendTheirBits : Prop :=
  ∀ s : State, WriterOk s →
    (∀ b : BitVec 1, writePos s + 1 ≤ writeCap s →
      ∃ t, exec (.bwPutbit b) s = .next t ∧ Appended s t [b == 1] ∧ WriterOk t) ∧
    (∀ v : Byte, writePos s + 8 ≤ writeCap s →
      ∃ t, exec (.bwPutbyte v) s = .next t ∧ Appended s t (bitsOf v) ∧ WriterOk t) ∧
    ∀ n : Word32, writePos s + 32 ≤ writeCap s →
      ∃ t, exec (.bwPutu32 n) s = .next t ∧ Appended s t (bitsOf n) ∧ WriterOk t

/-- Without room for all of their bits the three append none and report `CapacityExceeded` (43_bit_writer_reader.md
R147 to R150, 20_memory.md R67, R71). -/
def Obligations.PutCommandsRefuseWhatDoesNotFit : Prop :=
  ∀ s : State,
    (∀ b : BitVec 1, 8 * s.cfg.outCap.val < 8 * s.outLen.toNat + s.wcnt.toNat + 1 →
      exec (.bwPutbit b) s = .next { s with err := .capacityExceeded }) ∧
    (∀ v : Byte, 8 * s.cfg.outCap.val < 8 * s.outLen.toNat + s.wcnt.toNat + 8 →
      exec (.bwPutbyte v) s = .next { s with err := .capacityExceeded }) ∧
    ∀ n : Word32, 8 * s.cfg.outCap.val < 8 * s.outLen.toNat + s.wcnt.toNat + 32 →
      exec (.bwPutu32 n) s = .next { s with err := .capacityExceeded }

/-- `BW.FINAL` pads the partial byte with zero bits on the right, stores it, and does nothing when there is none; it
never fails, and a second one changes nothing (43_bit_writer_reader.md R151). -/
def Obligations.BwFinalPadsThePartialByte : Prop :=
  ∀ s : State, WriterOk s →
    ∃ t, exec .bwFinal s = .next t ∧ Appended s t (padding s.wcnt.toNat) ∧ t.wcnt = 0 ∧ t.wacc = 0 ∧ WriterOk t ∧
      exec .bwFinal t = .next t ∧ (s.wcnt = 0 → t = { s with err := .ok }) ∧
      (s.wcnt ≠ 0 → t.obuf.read s.outLen.toNat = some s.wacc ∧ t.outLen.toNat = s.outLen.toNat + 1)

/-- With enough bits left, `BR.GETBIT`, `BR.GETBYTE` and `BR.GETU32` deliver the next 1, 8 or 32 bits, the first one
most significant, zero-extended, and advance (43_bit_writer_reader.md R153, R155 to R157). -/
def Obligations.ReadCommandsDeliverTheNextBits : Prop :=
  ∀ s : State, InputOk s →
    (s.rpos.toNat + 1 ≤ 8 * s.inLen.toNat → ∃ t, exec .brGetbit s = .next t ∧ Delivered s t 1) ∧
    (s.rpos.toNat + 8 ≤ 8 * s.inLen.toNat → ∃ t, exec .brGetbyte s = .next t ∧ Delivered s t 8) ∧
    (s.rpos.toNat + 32 ≤ 8 * s.inLen.toNat → ∃ t, exec .brGetu32 s = .next t ∧ Delivered s t 32)

/-- With fewer bits left they report `StreamUnderrun` and consume nothing (43_bit_writer_reader.md R153, R155 to R157,
20_memory.md R67). -/
def Obligations.ReadCommandsUnderrun : Prop :=
  ∀ s : State,
    (8 * s.inLen.toNat < s.rpos.toNat + 1 → exec .brGetbit s = .next { s with err := .streamUnderrun }) ∧
    (8 * s.inLen.toNat < s.rpos.toNat + 8 → exec .brGetbyte s = .next { s with err := .streamUnderrun }) ∧
    (8 * s.inLen.toNat < s.rpos.toNat + 32 → exec .brGetu32 s = .next { s with err := .streamUnderrun })

/-- Bits written one by one on an empty writer and finalized are read back one by one, then the zero bits of the
padding, then `StreamUnderrun` (from 43_bit_writer_reader.md R147, R151, R153; R159 is the spec's own inference). -/
def Obligations.WrittenBitsAreReadBack : Prop :=
  ∀ (s : State) (q : Bits), q.length ≤ 8 * s.cfg.outCap.val →
    ∃ t, runOk ([.bwInit] ++ q.map (fun b => .bwPutbit (BitVec.ofBool b)) ++ [.bwFinal]) s = some t ∧
      t.outLen.toNat = (q.length + 7) / 8 ∧
      ∀ u : State, InputOk u → Presented t u →
        (∀ k b, (q ++ padding q.length)[k]? = some b → u.rpos.toNat = k →
          exec .brGetbit u =
            .next { u with rpos := u.rpos + 1, result := (BitVec.ofBool b).setWidth 32, err := .ok }) ∧
        (u.rpos.toNat = (q ++ padding q.length).length → exec .brGetbit u = .next { u with err := .streamUnderrun })

/-- A byte or a 32-bit value written at any bit offset is read back at that offset (from 43_bit_writer_reader.md R147,
R156, R157; R159 is the spec's own inference). -/
def Obligations.WrittenValuesAreReadBack : Prop :=
  ∀ s u : State, WriterOk s → InputOk u → u.rpos.toNat = writePos s →
    (∀ v : Byte, writePos s + 8 ≤ writeCap s →
      ∃ t f, exec (.bwPutbyte v) s = .next t ∧ exec .bwFinal t = .next f ∧
        (Presented f u →
          exec .brGetbyte u = .next { u with rpos := u.rpos + 8, result := v.setWidth 32, err := .ok })) ∧
    ∀ n : Word32, writePos s + 32 ≤ writeCap s →
      ∃ t f, exec (.bwPutu32 n) s = .next t ∧ exec .bwFinal t = .next f ∧
        (Presented f u → exec .brGetu32 u = .next { u with rpos := u.rpos + 32, result := n, err := .ok })

/-! ## Counter -/

/-- `FQ.COUNT` tabulates the input: each count is the number of occurrences, the order lists the distinct bytes once,
by first occurrence, the counts sum to `IN_LEN`, and nothing else changes (40_freq_counter.md R110, R112; R111 is the
spec's own inference). -/
def Obligations.FqCountTabulatesTheInput : Prop :=
  ∀ s : State, InputOk s →
    ∃ t, exec .fqCount s = .next t ∧
      t = { s with err := .ok, freqCount := t.freqCount, freqOrder := t.freqOrder } ∧
      (∀ b, (countOf t b).toNat = (inputBytes s).count b) ∧ t.freqOrder.Nodup ∧
      (∀ b, b ∈ t.freqOrder ↔ b ∈ inputBytes s) ∧
      t.freqOrder.Pairwise (fun a b => (inputBytes s).idxOf a < (inputBytes s).idxOf b) ∧
      (t.freqOrder.map (fun b => (countOf t b).toNat)).sum = s.inLen.toNat ∧
      (t.freqOrder = [] ↔ s.inLen = 0) ∧ FreqOk t

/-! ## Builder -/

/-- `StableSortByWeight` rearranges the queue so that weights ascend and entries of equal weight keep their order
(41_tree_builder.md R124). -/
def Obligations.StableSortIsStable : Prop :=
  ∀ q : List QEntry, (stableSort q).Perm q ∧
    (stableSort q).Pairwise (fun x y => x.weight.toNat ≤ y.weight.toNat) ∧
    ∀ w : Word32, (stableSort q).filter (fun x => x.weight = w) = q.filter (fun x => x.weight = w)

/-- `TB.BUILD`: no tree for no symbol; else `2 k - 1` nodes, the leaves first, in first-occurrence order with their
counts, then internal nodes whose weights are exact sums of two earlier nodes' and whose lighter child is the left one;
the root is the last node and weighs the sum of all counts; nothing else changes (41_tree_builder.md R120 to R122; R123
and R126 are the spec's own inferences). -/
def Obligations.TbBuildMakesTheTree : Prop :=
  ∀ s : State, FreqOk s →
    ∃ t, exec .tbBuild s = .next t ∧ t = { s with err := .ok, nodes := t.nodes, root := t.root } ∧ ArenaOk t ∧
      (s.freqOrder = [] → t.nodes = [] ∧ t.root = none) ∧
      (s.freqOrder ≠ [] → t.nodes.length = 2 * s.freqOrder.length - 1 ∧
        t.root = some (BitVec.ofNat 9 (2 * s.freqOrder.length - 2)) ∧
        (∀ (j : Nat) (b : Byte), s.freqOrder[j]? = some b → t.nodes[j]? = some (.leaf b (countOf s b))) ∧
        (∀ m : Nat, s.freqOrder.length ≤ m → m < 2 * s.freqOrder.length - 1 →
          ∃ w l r a b, t.nodes[m]? = some (.internal w l r) ∧ l.toNat < m ∧ r.toNat < m ∧
            t.nodes[l.toNat]? = some a ∧ t.nodes[r.toNat]? = some b ∧
            w.toNat = a.weight.toNat + b.weight.toNat ∧ a.weight.toNat ≤ b.weight.toNat) ∧
        ∃ n, t.nodes.getLast? = some n ∧ n.weight.toNat = (s.freqOrder.map (fun b => (countOf s b).toNat)).sum)

/-- Each merge takes the two first nodes of the queue in the order of (weight, entry into the queue), the first as left
child (41_tree_builder.md R122, R124). -/
def Obligations.TbBuildMergesTheLightest : Prop :=
  ∀ s t : State, FreqOk s → exec .tbBuild s = .next t →
    ∀ (m : Nat) (w : Word32) (l r : NodeIx), t.nodes[m]? = some (.internal w l r) →
      InQueue t.nodes m l.toNat ∧ InQueue t.nodes m r.toNat ∧ Before t.nodes l.toNat r.toNat ∧
        ∀ x, InQueue t.nodes m x → x ≠ l.toNat → x ≠ r.toNat → Before t.nodes r.toNat x

/-! ## Generator -/

/-- `CG.GEN` records each leaf's path from the root under its symbol, of several leaves with one symbol the last one's,
and no other code; with no tree it records none; nothing else changes (42_code_generator.md R135 to R137). -/
def Obligations.CgGenRecordsThePaths : Prop :=
  ∀ s : State, ArenaOk s →
    ∃ t, exec .cgGen s = .next t ∧ t = { s with err := .ok, code := t.code } ∧ CodeOk t ∧
      (s.root = none → ∀ b, codeOf t b = none) ∧
      ∀ tr, Denotes s tr → ∀ b,
        codeOf t b = ((Tree.paths tr).filter (fun p => p.1 = b)).getLast?.map Prod.snd

/-- The table of a tree with pairwise-distinct symbols covers exactly the leaf symbols and is prefix-free, its codes are
the leaves' paths, at most 255 bits, at least one with two leaves (from 42_code_generator.md R135; R41 and R138 are the
spec's own inferences). -/
def Obligations.CodeTableIsPrefixFree : Prop :=
  ∀ (s t : State) (tr : Tree), ArenaOk s → Denotes s tr → (Tree.symbols tr).Nodup → exec .cgGen s = .next t →
    (∀ b, (codeOf t b).isSome = true ↔ b ∈ Tree.symbols tr) ∧
      (∀ b q, codeOf t b = some q → (b, q) ∈ Tree.paths tr ∧ q.length ≤ 255 ∧ (2 ≤ Tree.leaves tr → q ≠ [])) ∧
      ∀ a b p q, a ≠ b → codeOf t a = some p → codeOf t b = some q → ¬ p <+: q

/-! ## Tree codec -/

/-- `TC.SER` appends the serialized tree, or the single bit `0` for no tree, all of it or nothing, wherever the writer
stands (44_tree_codec.md R165, R167, R168). -/
def Obligations.TcSerAppendsTheTree : Prop :=
  ∀ s : State, WriterOk s →
    (s.root = none → writePos s + 1 ≤ writeCap s →
      ∃ t, exec .tcSer s = .next t ∧ Appended s t [false] ∧ WriterOk t) ∧
    (s.root = none → writeCap s < writePos s + 1 → exec .tcSer s = .next { s with err := .capacityExceeded }) ∧
    ∀ tr, Denotes s tr →
      (writePos s + (serTree tr).length ≤ writeCap s →
        ∃ t, exec .tcSer s = .next t ∧ Appended s t (serTree tr) ∧ WriterOk t) ∧
      (writeCap s < writePos s + (serTree tr).length → exec .tcSer s = .next { s with err := .capacityExceeded })

/-- A tree with `L` leaves has `2 L - 1` nodes and serializes to `12 L - 2` bits, at most 3070 for 256 leaves
(from 44_tree_codec.md R165, R168; R166 is the spec's own inference). -/
def Obligations.SerializedTreeLength : Prop :=
  ∀ tr : Tree, 1 ≤ Tree.leaves tr ∧ Tree.size tr + 1 = 2 * Tree.leaves tr ∧
    (serTree tr).length + 2 = 12 * Tree.leaves tr ∧ (Tree.leaves tr ≤ 256 → (serTree tr).length ≤ 3070)

/-- `TC.DES` reads back every serialized tree within the two bounds: the same tree, its nodes in the order of the stream
each left child just behind its parent and each right child just behind the left subtree, with weight 0, the reader just
behind it, and nothing else changed; the single bit `0` gives no tree (44_tree_codec.md
R169, R170, R172; that the tree is the same is the spec's own inference R175). -/
def Obligations.TcDesParsesTheSerializedTree : Prop :=
  ∀ s : State, InputOk s →
    (BitsAt s s.rpos.toNat [false] →
      exec .tcDes s = .next { s with err := .ok, rpos := s.rpos + 1, nodes := [], root := none }) ∧
    ∀ tr : Tree, Tree.size tr ≤ 511 → Tree.levels tr ≤ 256 → BitsAt s s.rpos.toNat (serTree tr) →
      ∃ t, exec .tcDes s = .next t ∧
        t = { s with err := .ok, rpos := t.rpos, nodes := t.nodes, root := some 0 } ∧ Denotes t tr ∧ ArenaOk t ∧
        t.rpos.toNat = s.rpos.toNat + (serTree tr).length ∧ t.nodes.length = Tree.size tr ∧
        t.nodes = arenaOf 0 tr ∧ (∀ n ∈ t.nodes, n.weight = 0) ∧
        ∀ (i : Nat) (w : Word32) (l r : NodeIx), t.nodes[i]? = some (.internal w l r) → l.toNat = i + 1

/-- When `TC.DES` succeeds, the bits it consumed are the serialized form of the tree it leaves, which is within the two
bounds (from 44_tree_codec.md R168, R170, R171, R174; R175 is the spec's own inference). -/
def Obligations.TcDesConsumesTheSerializedTree : Prop :=
  ∀ s t : State, InputOk s → exec .tcDes s = .next t → t.err = .ok →
    (t.root = none ∧ t.nodes = [] ∧ BitsAt s s.rpos.toNat [false] ∧ t.rpos.toNat = s.rpos.toNat + 1) ∨
      ∃ tr, Denotes t tr ∧ BitsAt s s.rpos.toNat (serTree tr) ∧
        t.rpos.toNat = s.rpos.toNat + (serTree tr).length ∧ Tree.size tr = t.nodes.length ∧ Tree.size tr ≤ 511 ∧
        Tree.levels tr ≤ 256

/-- The malformations, wherever in the stream they stand, whatever follows, and also when nothing does: a missing left
child, reported before the right child is parsed; a missing right child; a node on level 257, reported before any of its
bits is read; a 512th node, reported when its own bits are read; so a tree too deep or with too many nodes. Each leaves
no tree and `RPOS` as it was (44_tree_codec.md R170, R171, R173, R174, 60_exceptions.md R243, R252). -/
def Obligations.TcDesRejectsMalformedTrees : Prop :=
  ∀ s : State, InputOk s →
    (BitsAt s s.rpos.toNat [true, false, false] →
      exec .tcDes s = .next { s with err := .malformedTree, nodes := [], root := none }) ∧
    (∀ l : Tree, Tree.size l ≤ 510 → Tree.levels l ≤ 255 →
      BitsAt s s.rpos.toNat ([true, false] ++ serTree l ++ [false]) →
      exec .tcDes s = .next { s with err := .malformedTree, nodes := [], root := none }) ∧
    (∀ tr : Tree, 511 < Tree.size tr ∨ 256 < Tree.levels tr → BitsAt s s.rpos.toNat (serTree tr) →
      exec .tcDes s = .next { s with err := .malformedTree, nodes := [], root := none }) ∧
    ∀ p : OpenPath, OpenOk p →
      (p ≠ [] → p.length < 256 → BitsAt s s.rpos.toNat (openBits p ++ [false]) →
        exec .tcDes s = .next { s with err := .malformedTree, nodes := [], root := none }) ∧
      (p.length = 256 → BitsAt s s.rpos.toNat (openBits p) →
        exec .tcDes s = .next { s with err := .malformedTree, nodes := [], root := none }) ∧
      ∀ q : Bits, q = [true, false] ∨ (∃ b, q = serTree (.leaf b)) → openNodes p = 511 → p.length < 256 →
        BitsAt s s.rpos.toNat (openBits p ++ q) →
        exec .tcDes s = .next { s with err := .malformedTree, nodes := [], root := none }

/-- When the input ends before a bit that `TC.DES` wants, it reports `StreamUnderrun`, leaves no tree and `RPOS` as it was:
before the tree, inside a tree within the bounds, or, with what came before within the bounds, before a node of level 256
or less or inside its own bits (44_tree_codec.md R169, R170, 60_exceptions.md R244, R252). -/
def Obligations.TcDesUnderruns : Prop :=
  ∀ s : State, InputOk s →
    (8 * s.inLen.toNat ≤ s.rpos.toNat →
      exec .tcDes s = .next { s with err := .streamUnderrun, nodes := [], root := none }) ∧
    (∀ (tr : Tree) (n : Nat), Tree.size tr ≤ 511 → Tree.levels tr ≤ 256 → n < (serTree tr).length →
      s.rpos.toNat + n = 8 * s.inLen.toNat → BitsAt s s.rpos.toNat ((serTree tr).take n) →
      exec .tcDes s = .next { s with err := .streamUnderrun, nodes := [], root := none }) ∧
    ∀ (p : OpenPath) (b : Byte) (k : Nat), OpenOk p → p.length < 256 → k < 10 →
      s.rpos.toNat + (openBits p).length + k = 8 * s.inLen.toNat →
      BitsAt s s.rpos.toNat (openBits p ++ (serTree (.leaf b)).take k) →
      exec .tcDes s = .next { s with err := .streamUnderrun, nodes := [], root := none }

/-! ## Datapath -/

/-- `EN.SYM v`: `UnmappedSymbol` without a code, before `CapacityExceeded` without room, else the code is appended, also
the empty one (45_encoder_decoder_datapath.md R185, 70_reset_and_hazards.md R274). -/
def Obligations.EnSymAppendsTheCode : Prop :=
  ∀ (s : State) (v : Byte), WriterOk s →
    (codeOf s v = none → exec (.enSym v) s = .next { s with err := .unmappedSymbol }) ∧
    ∀ q, codeOf s v = some q →
      (writeCap s < writePos s + q.length → exec (.enSym v) s = .next { s with err := .capacityExceeded }) ∧
      (writePos s + q.length ≤ writeCap s →
        ∃ t, exec (.enSym v) s = .next t ∧ Appended s t q ∧ WriterOk t)

/-- `EN.PAYLOAD` appends the codes of all input bytes in order, when each has one and all have room
(45_encoder_decoder_datapath.md R186; the length is the spec's own inference R187). -/
def Obligations.EnPayloadAppendsTheCodes : Prop :=
  ∀ s : State, WriterOk s → InputOk s → (∀ b ∈ inputBytes s, (codeOf s b).isSome = true) →
    writePos s + (codesOf s (inputBytes s)).length ≤ writeCap s →
    ∃ t, exec .enPayload s = .next t ∧ Appended s t (codesOf s (inputBytes s)) ∧ WriterOk t ∧
      (codesOf s (inputBytes s)).length =
        ((List.range 256).map (fun n =>
          (inputBytes s).count (BitVec.ofNat 8 n) * (codeBits s (BitVec.ofNat 8 n)).length)).sum

/-- `EN.PAYLOAD` reports the first cause in input order and then has appended nothing (45_encoder_decoder_datapath.md
R186, 60_exceptions.md R251). -/
def Obligations.EnPayloadReportsTheFirstCause : Prop :=
  ∀ (s : State) (pre post : List Byte) (v : Byte), WriterOk s → InputOk s → inputBytes s = pre ++ v :: post →
    (∀ b ∈ pre, (codeOf s b).isSome = true) → writePos s + (codesOf s pre).length ≤ writeCap s →
    (codeOf s v = none → exec .enPayload s = .next { s with err := .unmappedSymbol }) ∧
    ∀ q, codeOf s v = some q → writeCap s < writePos s + (codesOf s pre).length + q.length →
      exec .enPayload s = .next { s with err := .capacityExceeded }

/-- `DE.SYM` along a leaf's path: the leaf's symbol, the path consumed, none for a tree that is one leaf; when the path
runs out of input `StreamUnderrun` with nothing consumed; without a tree `MalformedHeader`
(45_encoder_decoder_datapath.md R188; the one leaf is the spec's own inference R190). -/
def Obligations.DeSymDescends : Prop :=
  ∀ s : State, (s.root = none → exec .deSym s = .next { s with err := .malformedHeader }) ∧
    ∀ (tr : Tree) (b : Byte) (q : Bits), InputOk s → Denotes s tr → (b, q) ∈ Tree.paths tr →
      (q = [] ∨ BitsAt s s.rpos.toNat q →
        ∃ t, exec .deSym s = .next t ∧ t = { s with err := .ok, result := b.setWidth 32, rpos := t.rpos } ∧
          t.rpos.toNat = s.rpos.toNat + q.length) ∧
      (q ≠ [] → 8 * s.inLen.toNat < s.rpos.toNat + q.length →
        inBits s s.rpos.toNat (8 * s.inLen.toNat - s.rpos.toNat) <+: q →
        exec .deSym s = .next { s with err := .streamUnderrun })

/-- `DE.PAYLOAD n` along `n` leaves' paths gives their symbols as bytes from index 0, consumes exactly the paths, and
leaves everything but the writer, `RPOS` and `ERR` as it was (45_encoder_decoder_datapath.md R188, R189; R190 and
43_bit_writer_reader.md R160 are the spec's own inferences). -/
def Obligations.DePayloadDecodesPaths : Prop :=
  ∀ (s : State) (tr : Tree) (ps : List (Byte × Bits)), InputOk s → Denotes s tr → (∀ p ∈ ps, p ∈ Tree.paths tr) →
    ps.length ≤ s.cfg.outCap.val →
    ps.flatMap Prod.snd = [] ∨ BitsAt s s.rpos.toNat (ps.flatMap Prod.snd) →
    ∃ t, exec (.dePayload (BitVec.ofNat 32 ps.length)) s = .next t ∧
      t = { s with err := .ok, outLen := t.outLen, wacc := 0, wcnt := 0, rpos := t.rpos, obuf := t.obuf } ∧
      t.outLen.toNat = ps.length ∧ t.rpos.toNat = s.rpos.toNat + (ps.flatMap Prod.snd).length ∧
      (∀ i p, ps[i]? = some p → t.obuf.read i = some p.1) ∧ ObufSameOutside s t 0 ps.length

/-- `DE.PAYLOAD` in its other cases: a count of 0 succeeds with an empty writer whatever the tree; then no tree, then no
room, then the first descent that runs out of bits; each failure leaves an empty writer, the tree and `RPOS`
(45_encoder_decoder_datapath.md R189, 60_exceptions.md R251, R252). -/
def Obligations.DePayloadZeroAndFailures : Prop :=
  ∀ s : State,
    exec (.dePayload 0) s = .next { s with err := .ok, outLen := 0, wacc := 0, wcnt := 0 } ∧
    ∀ n : Word32, n ≠ 0 →
      (s.root = none →
        exec (.dePayload n) s = .next { s with err := .malformedHeader, outLen := 0, wacc := 0, wcnt := 0 }) ∧
      (s.root ≠ none → s.cfg.outCap.val < n.toNat →
        exec (.dePayload n) s = .next { s with err := .capacityExceeded, outLen := 0, wacc := 0, wcnt := 0 }) ∧
      ∀ (tr : Tree) (ps : List (Byte × Bits)) (b : Byte) (q : Bits), InputOk s → Denotes s tr →
        (∀ p ∈ ps, p ∈ Tree.paths tr) → (b, q) ∈ Tree.paths tr → q ≠ [] → ps.length < n.toNat →
        n.toNat ≤ s.cfg.outCap.val → (ps.flatMap Prod.snd).length ≤ 8 * s.inLen.toNat - s.rpos.toNat →
        8 * s.inLen.toNat < s.rpos.toNat + (ps.flatMap Prod.snd).length + q.length →
        inBits s s.rpos.toNat (8 * s.inLen.toNat - s.rpos.toNat) <+: ps.flatMap Prod.snd ++ q →
        exec (.dePayload n) s = .next { s with err := .streamUnderrun, outLen := 0, wacc := 0, wcnt := 0 }

/-- The decoder undoes the encoder: with a tree of pairwise-distinct symbols and the table `CG.GEN` made from it, the
codes of a list of symbols decode to that list, and `RPOS` advances by their length (from 42_code_generator.md R135 and
45_encoder_decoder_datapath.md R188, R189; R191 is the spec's own inference). -/
def Obligations.DePayloadInvertsTheCodes : Prop :=
  ∀ (p s : State) (tr : Tree) (bs : List Byte), ArenaOk p → InputOk p → exec .cgGen p = .next s → Denotes s tr →
    (Tree.symbols tr).Nodup → (∀ b ∈ bs, b ∈ Tree.symbols tr) → bs.length ≤ s.cfg.outCap.val →
    codesOf s bs = [] ∨ BitsAt s s.rpos.toNat (codesOf s bs) →
    ∃ t, exec (.dePayload (BitVec.ofNat 32 bs.length)) s = .next t ∧ t.err = .ok ∧ t.outLen.toNat = bs.length ∧
      (∀ i b, bs[i]? = some b → t.obuf.read i = some b) ∧
      t.rpos.toNat = s.rpos.toNat + (codesOf s bs).length

/-! ## Compressor -/

/-- `COMPRESS` of a nonempty input: counter, builder and generator run as the commands do, and give a tree whose leaves
are the input's bytes; the output is header, tree, codes of the input and zero padding; without room for it the writer
is empty; either way the tree is discarded, and what else the command leaves is as said (46_compress.md R200,
60_exceptions.md R252). That every byte of `OBUF` is as before when the command fails is log entry 11 (DEDUCED, from
R252). -/
def Obligations.CompressEmitsTheStream : Prop :=
  ∀ s : State, InputOk s → s.inLen ≠ 0 →
    ∃ a tr q, runOk [.fqCount, .tbBuild, .cgGen] s = some a ∧ Denotes a tr ∧
      (Tree.symbols tr).Perm a.freqOrder ∧ q = bitsOf s.inLen ++ serTree tr ++ codesOf a (inputBytes s) ∧
      (q.length ≤ 8 * s.cfg.outCap.val →
        ∃ t, exec .compress s = .next t ∧
          t = { a with outLen := t.outLen, wacc := 0, wcnt := 0, obuf := t.obuf, nodes := [], root := none } ∧
          writtenBits t = q ++ padding q.length ∧ t.outLen.toNat = (q.length + 7) / 8 ∧ WriterOk t ∧
          ObufSameOutside s t 0 t.outLen.toNat) ∧
      (8 * s.cfg.outCap.val < q.length →
        exec .compress s = .next { a with
          err := .capacityExceeded, outLen := 0, wacc := 0, wcnt := 0, nodes := [], root := none })

/-- Empty input: the header of four zero bytes and nothing else, no code, all counts zero, no symbol
(46_compress.md R202). -/
def Obligations.CompressEmptyInput : Prop :=
  ∀ s : State, s.inLen = 0 →
    ∃ t, exec .compress s = .next t ∧
      t = { s with err := .ok, outLen := 4, wacc := 0, wcnt := 0, obuf := t.obuf, nodes := [], root := none,
                   freqCount := t.freqCount, freqOrder := [], code := t.code } ∧
      (∀ i, i < 4 → t.obuf.read i = some 0) ∧ ObufSameOutside s t 0 4 ∧ (∀ b, codeOf t b = none) ∧
      (∀ b, countOf t b = 0) ∧ t.nsym = 0

/-- One repeated byte value: six bytes for every length, the empty code for the value, no other code, and the six bytes
decompress to as many copies (46_compress.md R205). -/
def Obligations.CompressDegenerateInput : Prop :=
  ∀ (s : State) (v : Byte), InputOk s → s.inLen ≠ 0 → (∀ i, i < s.inLen.toNat → inByte s i = v) →
    6 ≤ s.cfg.outCap.val →
    ∃ t, exec .compress s = .next t ∧ t.err = .ok ∧ t.outLen = 6 ∧ t.freqOrder = [v] ∧ codeOf t v = some [] ∧
      (∀ b, b ≠ v → codeOf t b = none) ∧ t.obuf.read 0 = some (s.inLen.extractLsb' 24 8) ∧
      t.obuf.read 1 = some (s.inLen.extractLsb' 16 8) ∧ t.obuf.read 2 = some (s.inLen.extractLsb' 8 8) ∧
      t.obuf.read 3 = some (s.inLen.extractLsb' 0 8) ∧ t.obuf.read 4 = some (0xC0#8 ||| (v >>> 2)) ∧
      t.obuf.read 5 = some (v <<< 6) ∧
      ∀ u : State, Presented t u → InputOk u → s.inLen.toNat ≤ u.cfg.outCap.val →
        ∃ w, exec .decompress u = .next w ∧ w.err = .ok ∧ w.outLen = s.inLen ∧
          ∀ i, i < s.inLen.toNat → w.obuf.read i = some v

/-- Two `COMPRESS` on equal inputs, whatever the state before each, leave equal output, length, code table and status
(from 46_compress.md R200; R203 is the spec's own inference). -/
def Obligations.CompressIsDeterministic : Prop :=
  ∀ s s' t t' : State, s'.cfg = s.cfg → s'.inLen = s.inLen → (∀ i, i < s.inLen.toNat → inByte s' i = inByte s i) →
    exec .compress s = .next t → exec .compress s' = .next t' →
    t'.err = t.err ∧ t'.outLen = t.outLen ∧ t'.code = t.code ∧
      ∀ i, i < t.outLen.toNat → t'.obuf.read i = t.obuf.read i

/-- `COMPRESS` succeeds exactly when the sequence of primitives does, and then leaves what that leaves, with the tree
discarded (from 46_compress.md R200; R201 is the spec's own inference). -/
def Obligations.CompressEqualsThePrimitives : Prop :=
  ∀ s t : State, (exec .compress s = .next t ∧ t.err = .ok) ↔
    ∃ a u, runOk [.fqCount, .tbBuild, .cgGen, .bwInit, .bwPutu32 s.inLen] s = some a ∧
      runOk ((if a.nsym ≠ 0 then [.tcSer, .enPayload] else []) ++ [.bwFinal]) a = some u ∧
      t = { u with nodes := [], root := none }

/-- The size of the output: four bytes for the empty input, else header, `12 NSYM - 2` tree bits, which are at most
3070, and the codes' bits, in whole bytes (from 46_compress.md R200; R204 is the spec's own inference). -/
def Obligations.CompressOutputSize : Prop :=
  ∀ s t : State, exec .compress s = .next t → t.err = .ok →
    (s.inLen = 0 → t.outLen.toNat = 4) ∧
    (s.inLen ≠ 0 → 1 ≤ t.freqOrder.length ∧ 12 * t.freqOrder.length - 2 ≤ 3070 ∧
      t.outLen.toNat =
        (32 + (12 * t.freqOrder.length - 2) +
          (t.freqOrder.map (fun b => (countOf t b).toNat * (codeBits t b).length)).sum + 7) / 8)

/-! ## Decompressor -/

/-- The header: fewer than 4 bytes are `MalformedHeader`, otherwise the count is the big-endian value of the first four;
a count of 0 succeeds with no output whatever follows, any other is the length of the output (47_decompress.md R216). -/
def Obligations.DecompressReadsTheHeader : Prop :=
  ∀ s : State,
    (s.inLen.toNat < 4 →
      exec .decompress s = .next { s with
        err := .malformedHeader, outLen := 0, wacc := 0, wcnt := 0, nodes := [], root := none }) ∧
    (InputOk s → 4 ≤ s.inLen.toNat → headerCount s = 0 →
      exec .decompress s = .next { s with
        err := .ok, outLen := 0, wacc := 0, wcnt := 0, nodes := [], root := none, rpos := 32 }) ∧
    ∀ t, 4 ≤ s.inLen.toNat → exec .decompress s = .next t → t.err = .ok → t.outLen.toNat = headerCount s

/-- `DECOMPRESS` of a header, a tree within the bounds and the paths of as many leaves as the header says: their symbols,
the reader just behind the last path, no tree, and nothing else changed, whatever follows in the input
(47_decompress.md R215; that what follows is ignored is the spec's own inference R222). -/
def Obligations.DecompressDecodesAStream : Prop :=
  ∀ (s : State) (tr : Tree) (ps : List (Byte × Bits)), InputOk s → Tree.size tr ≤ 511 → Tree.levels tr ≤ 256 →
    ps ≠ [] → (∀ p ∈ ps, p ∈ Tree.paths tr) → ps.length ≤ s.cfg.outCap.val →
    BitsAt s 0 (bitsOf (BitVec.ofNat 32 ps.length) ++ serTree tr ++ ps.flatMap Prod.snd) →
    ∃ t, exec .decompress s = .next t ∧
      t = { s with err := .ok, outLen := t.outLen, wacc := 0, wcnt := 0, rpos := t.rpos, obuf := t.obuf, nodes := [],
                   root := none } ∧
      t.outLen.toNat = ps.length ∧
      t.rpos.toNat = 32 + (serTree tr).length + (ps.flatMap Prod.snd).length ∧
      (∀ i p, ps[i]? = some p → t.obuf.read i = some p.1) ∧ ObufSameOutside s t 0 ps.length

/-- With a nonzero count, `DECOMPRESS` succeeds exactly when the sequence of primitives does, and then leaves what that
leaves, with the tree discarded and `RESULT` as it was (from 47_decompress.md R215; R217 is the spec's own inference). -/
def Obligations.DecompressEqualsThePrimitives : Prop :=
  ∀ (s t : State) (n : Word32), InputOk s → 4 ≤ s.inLen.toNat → n.toNat = headerCount s → n ≠ 0 →
    ((exec .decompress s = .next t ∧ t.err = .ok) ↔
      ∃ u, runOk [.brSeek 0, .brGetu32, .tcDes, .dePayload n] s = some u ∧
        t = { u with nodes := [], root := none, result := s.result })

/-- The order of the tests behind the header: the tree's own error, then no tree, then no room, then the payload's
underrun; each failure leaves no output, no tree and `RPOS` as it was (47_decompress.md R218, R219). -/
def Obligations.DecompressReportsInOrder : Prop :=
  ∀ (s p : State) (n : Word32), InputOk s → 4 ≤ s.inLen.toNat → n.toNat = headerCount s → n ≠ 0 →
    exec .tcDes { s with rpos := 32 } = .next p →
    ∀ fail : ErrCode → State,
      (∀ e, fail e = { s with err := e, outLen := 0, wacc := 0, wcnt := 0, nodes := [], root := none }) →
      (p.err ≠ .ok → exec .decompress s = .next (fail p.err)) ∧
      (p.err = .ok → p.root = none → exec .decompress s = .next (fail .malformedHeader)) ∧
      (p.err = .ok → p.root ≠ none → s.cfg.outCap.val < n.toNat →
        exec .decompress s = .next (fail .capacityExceeded)) ∧
      ∀ f, p.err = .ok → p.root ≠ none → n.toNat ≤ s.cfg.outCap.val → exec (.dePayload n) p = .next f →
        f.err ≠ .ok → f.err = .streamUnderrun ∧ exec .decompress s = .next (fail .streamUnderrun)

/-- Round trip: what `COMPRESS` made of an input, presented to `DECOMPRESS` with room for that input, gives the input
back (from 46_compress.md R200 and 47_decompress.md R215; R220 quotes the source and is the spec's own inference). -/
def Obligations.RoundTrip : Prop :=
  ∀ s t u : State, exec .compress s = .next t → t.err = .ok → Presented t u → InputOk u →
    s.inLen.toNat ≤ u.cfg.outCap.val →
    ∃ v, exec .decompress u = .next v ∧ v.err = .ok ∧ v.outLen = s.inLen ∧
      ∀ i, i < s.inLen.toNat → v.obuf.read i = some (inByte s i)

/-- A stream cut short is rejected: `MalformedHeader` below four bytes, else `StreamUnderrun`, with no output
(from 47_decompress.md R215, R219; R221 is the spec's own inference). Where the original would not fit in `OUT_CAP`, the
order of R219 lets `CapacityExceeded` come first once the tree is complete, a corner R221 does not mention. -/
def Obligations.TruncatedStreamIsRejected : Prop :=
  ∀ s t u : State, exec .compress s = .next t → t.err = .ok → PresentedCut t u → InputOk u →
    ∃ v, exec .decompress u = .next v ∧ v.outLen = 0 ∧ (u.inLen.toNat < 4 → v.err = .malformedHeader) ∧
      (4 ≤ u.inLen.toNat → s.inLen.toNat ≤ u.cfg.outCap.val → v.err = .streamUnderrun) ∧
      (4 ≤ u.inLen.toNat → u.cfg.outCap.val < s.inLen.toNat →
        v.err = .streamUnderrun ∨ v.err = .capacityExceeded)

/-- What `DECOMPRESS` gives is a function of the input and the capacities alone (from 47_decompress.md R215; 10_state.md
R47 is the spec's own inference). -/
def Obligations.DecompressDependsOnTheInputAlone : Prop :=
  ∀ s s' t t' : State, s'.cfg = s.cfg → s'.inLen = s.inLen → (∀ i, i < s.inLen.toNat → inByte s' i = inByte s i) →
    exec .decompress s = .next t → exec .decompress s' = .next t' →
    t'.err = t.err ∧ t'.outLen = t.outLen ∧ (t.err = .ok → t'.rpos = t.rpos) ∧
      ∀ i, i < t.outLen.toNat → t'.obuf.read i = t.obuf.read i

/-! ## The whole machine -/

/-- Which command can report which code: success, or a code that its Failures entry names; in particular no command reports
`IllegalCommand` (from the Failures entries of files 40 to 48; the table 60_exceptions.md R248 is the spec's own
inference). -/
def Obligations.CommandsReportOnlyTheirErrors : Prop :=
  ∀ (i : Instr) (s t : State), exec i s = .next t → t.err = .ok ∨ t.err ∈ mayReport i

/-- What a failing command leaves: the code, and all else as before, but for the tree after `TC.DES` and `DECOMPRESS`,
the writer after `DE.PAYLOAD` and `DECOMPRESS`, and after `COMPRESS` both and what counter and generator computed
(60_exceptions.md R252). -/
def Obligations.FailuresLeaveTheState : Prop :=
  ∀ (i : Instr) (s t : State), exec i s = .next t → t.err ≠ .ok →
    (i ≠ .tcDes → i ≠ .decompress → i ≠ .compress → (∀ n, i ≠ .dePayload n) → t = { s with err := t.err }) ∧
    (i = .tcDes → t = { s with err := t.err, nodes := [], root := none }) ∧
    (∀ n, i = .dePayload n → t = { s with err := t.err, outLen := 0, wacc := 0, wcnt := 0 }) ∧
    (i = .decompress →
      t = { s with err := t.err, outLen := 0, wacc := 0, wcnt := 0, nodes := [], root := none }) ∧
    (i = .compress → t.err = .capacityExceeded ∧
      ∃ a, runOk [.fqCount, .tbBuild, .cgGen] s = some a ∧
        t = { a with err := .capacityExceeded, outLen := 0, wacc := 0, wcnt := 0, nodes := [], root := none } ∧
        a.rpos = s.rpos ∧ a.result = s.result)

/-- Every command completes from every state that meets the invariants: it answers a next state, never a stop
(from the commands' rules and 60_exceptions.md R254; 70_reset_and_hazards.md R272 and R279 are the spec's own
inferences). -/
def Obligations.CommandsAlwaysComplete : Prop := ∀ (i : Instr) (s : State), Inv s → ∃ t, exec i s = .next t

/-- Every step, whatever the host does, keeps the invariants: the input's length within its buffer, the writer's room
and zero bits, both buffers in form, a frequency table, an arena that is a tree, codes of at most 255 bits (10_state.md
R27, R33, R36, R40; R28, R30, R38 and R41 are the spec's own inferences). -/
def Obligations.StepKeepsInv : Prop := ∀ s t : State, Inv s → step s = .next t → Inv t

/-- `8 × OUT_LEN + WCNT ≤ 8 × OUT_CAP` and the zero low bits of `WACC` are kept by every command on their own, with no
other invariant needed (from 43_bit_writer_reader.md R146, R147; 10_state.md R28 and R30 are the spec's own
inferences). -/
def Obligations.CommandsKeepTheWriterInvariant : Prop :=
  ∀ (i : Instr) (s t : State), WriterOk s → exec i s = .next t → WriterOk t

/-- Which command writes which register, table and buffer: the column 'Written by the engine in' of the register map, with
`IBUF`, `IN_LEN`, `CODE`, `FREQ` and `NODE` (10_state.md R26 to R40, R45). `RESET` writes all of them. -/
def Obligations.CommandsWriteOnlyTheirState : Prop :=
  ∀ (i : Instr) (s t : State), exec i s = .next t → i ≠ .reset →
    SameInput s t ∧ SameOwn s t ∧
      (i ≠ .brGetbit → i ≠ .brGetbyte → i ≠ .brGetu32 → i ≠ .deSym → t.result = s.result) ∧
      (i ≠ .fqCount → i ≠ .compress → SameFreq s t) ∧
      (i ≠ .cgGen → i ≠ .compress → t.code = s.code) ∧
      (i ≠ .tbBuild → i ≠ .tcDes → i ≠ .compress → i ≠ .decompress → SameTree s t) ∧
      ((∀ n, i ≠ .brSeek n) → i ≠ .brGetbit → i ≠ .brGetbyte → i ≠ .brGetu32 → i ≠ .tcDes → i ≠ .deSym →
        (∀ n, i ≠ .dePayload n) → i ≠ .decompress → t.rpos = s.rpos) ∧
      (i ≠ .bwInit → (∀ b, i ≠ .bwPutbit b) → (∀ v, i ≠ .bwPutbyte v) → (∀ n, i ≠ .bwPutu32 n) → i ≠ .bwFinal →
        i ≠ .tcSer → (∀ v, i ≠ .enSym v) → i ≠ .enPayload → (∀ n, i ≠ .dePayload n) → i ≠ .compress →
        i ≠ .decompress → SameWriter s t)

/-- Stores to `OBUF` append: a command that starts the writer afresh stores below the new `OUT_LEN`, every other one from
the old `OUT_LEN` up to the new, and no other byte of the buffer changes (43_bit_writer_reader.md R145, R147,
60_exceptions.md R252; 20_memory.md R68 is the spec's own inference). That a failing `DE.PAYLOAD`, `COMPRESS` or
`DECOMPRESS` changes no byte of it is log entry 11 (DEDUCED, from R252). -/
def Obligations.CommandsStoreOnlyWhatTheyAppend : Prop :=
  ∀ (i : Instr) (s t : State), exec i s = .next t → i ≠ .reset →
    ((∀ n, i ≠ .dePayload n) → i ≠ .compress → i ≠ .decompress →
      ObufSameOutside s t s.outLen.toNat t.outLen.toNat) ∧
    ((∃ n, i = .dePayload n) ∨ i = .compress ∨ i = .decompress → ObufSameOutside s t 0 t.outLen.toNat)

/-- No command's results depend on the arena but through the tree it denotes: two states that differ in the entries and
the root index alone, and denote one tree, stay two such states or become equal (from the rules of files 42, 44 and 45;
10_state.md R39 is the spec's own inference). -/
def Obligations.OnlyTheAbstractTreeMatters : Prop :=
  ∀ (i : Instr) (s s' t : State) (tr : Tree), Denotes s tr → Denotes s' tr →
    s' = { s with nodes := s'.nodes, root := s'.root } → exec i s = .next t →
    ∃ t', exec i s' = .next t' ∧ t' = { t with nodes := t'.nodes, root := t'.root } ∧
      (t' = t ∨ t.nodes = s.nodes ∧ t.root = s.root ∧ t'.nodes = s'.nodes ∧ t'.root = s'.root)
end

