-- ==== Sys2Proof/Laws/Bits.lean ====
section
/-! SUPPORT. The laws of bit sequences: the bits of a value and the value of bits are inverse. -/

namespace Sys2Proof.Machine

@[simp] theorem bitsOf_length {n : Nat} (v : BitVec n) : (bitsOf v).length = n := by simp [bitsOf]

@[simp] theorem bitsOf_getElem {n : Nat} (v : BitVec n) (k : Nat) (h : k < (bitsOf v).length) :
    (bitsOf v)[k] = v.getLsbD (n - 1 - k) := by simp [bitsOf]

@[simp] theorem inBits_length (s : State) (p n : Nat) : (inBits s p n).length = n := by simp [inBits]

@[simp] theorem inBits_getElem (s : State) (p n k : Nat) (h : k < (inBits s p n).length) :
    (inBits s p n)[k] = inBit s (p + k) := by simp [inBits]

theorem inBits_append (s : State) (p m n : Nat) : inBits s p (m + n) = inBits s p m ++ inBits s (p + m) n := by
  simp [inBits, List.range_add, Nat.add_assoc, Function.comp_def]

theorem foldl_bits (q : Bits) (v : Nat) :
    q.foldl (fun v b => 2 * v + b.toNat) v = v * 2 ^ q.length + numOf q := by
  induction q generalizing v with
  | nil => simp [numOf]
  | cons b q ih =>
    simp only [List.foldl_cons, List.length_cons, numOf]
    rw [ih, ih (2 * 0 + b.toNat)]
    ring

theorem numOf_cons (b : Bool) (q : Bits) : numOf (b :: q) = b.toNat * 2 ^ q.length + numOf q := by
  simp only [numOf, List.foldl_cons]
  rw [foldl_bits]
  simp [numOf]

theorem numOf_lt (q : Bits) : numOf q < 2 ^ q.length := by
  induction q with
  | nil => simp [numOf]
  | cons b q ih =>
    rw [numOf_cons, List.length_cons, pow_succ]
    have : b.toNat ≤ 1 := by cases b <;> simp
    nlinarith [Nat.two_pow_pos q.length]

/-- The digits of `numOf`: bit `k` is the `k`-th bit from the end. -/
theorem testBit_numOf (q : Bits) (k : Nat) : (numOf q).testBit k = (q.reverse[k]?).getD false := by
  induction q generalizing k with
  | nil => simp [numOf]
  | cons b q ih =>
    rw [numOf_cons, Nat.mul_comm, Nat.testBit_two_pow_mul_add _ (numOf_lt q)]
    simp only [List.reverse_cons, List.getElem?_append, List.length_reverse]
    split
    · exact ih k
    · next h =>
      rcases Nat.eq_or_lt_of_le (Nat.le_of_not_lt h) with h | h
      · subst h
        cases b <;> simp
      · have h1 : 0 < k - q.length := by omega
        obtain ⟨j, hj⟩ : ∃ j, k - q.length = j + 1 := ⟨k - q.length - 1, by omega⟩
        rw [hj]
        cases b <;> simp [Nat.testBit_succ]

theorem numOf_inj {q r : Bits} (hl : q.length = r.length) (h : numOf q = numOf r) : q = r := by
  have : q.reverse = r.reverse := by
    apply List.ext_getElem (by simpa using hl)
    intro k h1 h2
    have := congrArg (fun x => x.testBit k) h
    simp only [testBit_numOf] at this
    rw [List.getElem?_eq_getElem h1, List.getElem?_eq_getElem h2] at this
    simpa using this
  simpa using this

@[simp] theorem numOf_bitsOf {n : Nat} (v : BitVec n) : numOf (bitsOf v) = v.toNat := by
  apply Nat.eq_of_testBit_eq
  intro k
  rw [testBit_numOf, BitVec.testBit_toNat]
  by_cases h : k < n
  · rw [List.getElem?_eq_getElem (by simpa using h)]
    rw [List.getElem_reverse]
    simp only [bitsOf_getElem, bitsOf_length, Option.getD_some]
    congr 1
    omega
  · rw [List.getElem?_eq_none (by simpa using h)]
    simp [BitVec.getLsbD_of_ge v k (by omega)]

/-- What a value read from bits has in each place. -/
theorem getLsbD_ofNat_numOf {n : Nat} (q : Bits) (hq : q.length = n) (k : Nat) (hk : k < n) :
    (BitVec.ofNat n (numOf q)).getLsbD k = q[n - 1 - k]'(by omega) := by
  rw [BitVec.getLsbD_ofNat, testBit_numOf, List.getElem?_eq_getElem (by simp; omega), List.getElem_reverse]
  simp [hk, hq]

theorem bitsOf_ofNat_numOf {n : Nat} (q : Bits) (hq : q.length = n) : bitsOf (BitVec.ofNat n (numOf q)) = q := by
  apply numOf_inj (by simp [hq])
  rw [numOf_bitsOf, BitVec.toNat_ofNat, Nat.mod_eq_of_lt]
  exact hq ▸ numOf_lt q

end Sys2Proof.Machine
end

