-- ==== Sys2Proof/Laws/Memory.lean ====
section
/-! SUPPORT. The laws of the byte buffers and of the tables indexed by a symbol. -/

namespace Sys2Proof.Machine

@[simp] theorem Memory.read_nil (i : Nat) : Memory.read [] i = none := rfl

@[simp] theorem Memory.wf_nil : Memory.wf [] := List.Pairwise.nil

@[simp] theorem Memory.read_write_same (m : Memory) (i : Nat) (v : Byte) : (Memory.write m i v).read i = some v := by
  induction m with
  | nil => simp [Memory.write, Memory.read]
  | cons c m ih =>
    obtain ⟨a, b⟩ := c
    unfold Memory.write
    split
    · simp [Memory.read]
    · split
      · simp [Memory.read]
      · have : a ≠ i := by omega
        simp [Memory.read, this, ih]

@[simp] theorem Memory.read_write_other (m : Memory) (i j : Nat) (v : Byte) (h : j ≠ i) :
    (Memory.write m i v).read j = m.read j := by
  induction m with
  | nil => simp [Memory.write, Memory.read, Ne.symm h]
  | cons c m ih =>
    obtain ⟨a, b⟩ := c
    unfold Memory.write
    split
    · simp [Memory.read, Ne.symm h]
    · split
      · rename_i h1 h2
        simp [Memory.read, ← h2, Ne.symm h]
      · simp [Memory.read, ih]

/-- Every read of a buffer after a store, in one equation. -/
theorem Memory.read_write (m : Memory) (i j : Nat) (v : Byte) :
    (Memory.write m i v).read j = if j = i then some v else m.read j := by
  split
  · next h => subst h; simp
  · next h => simp [h]

theorem Memory.mem_write {m : Memory} {i : Nat} {v : Byte} {c : Host.Cell} (h : c ∈ Memory.write m i v) :
    c = (i, v) ∨ c ∈ m := by
  induction m with
  | nil => simpa [Memory.write] using h
  | cons d m ih =>
    obtain ⟨a, b⟩ := d
    unfold Memory.write at h
    split at h
    · simpa using h
    · split at h
      · simp only [List.mem_cons] at h ⊢
        tauto
      · simp only [List.mem_cons] at h ⊢
        rcases h with h | h
        · exact .inr (.inl h)
        · rcases ih h with h | h
          · exact .inl h
          · exact .inr (.inr h)

/-- A store keeps the canonical form. -/
theorem Memory.wf_write {m : Memory} (h : m.wf) (i : Nat) (v : Byte) : (Memory.write m i v).wf := by
  induction m with
  | nil => simp [Memory.write, Memory.wf]
  | cons c m ih =>
    obtain ⟨a, b⟩ := c
    simp only [Memory.wf, List.map_cons, List.pairwise_cons] at h
    unfold Memory.write
    split
    · next hi =>
      simp only [Memory.wf, List.map_cons, List.pairwise_cons, List.mem_cons]
      refine ⟨?_, h⟩
      rintro x (rfl | hx)
      · exact hi
      · exact hi.trans (h.1 x hx)
    · split
      · next hi =>
        subst hi
        simpa only [Memory.wf, List.map_cons, List.pairwise_cons] using h
      · next h1 h2 =>
        simp only [Memory.wf, List.map_cons, List.pairwise_cons]
        refine ⟨?_, ih h.2⟩
        intro x hx
        obtain ⟨c, hc, rfl⟩ := List.mem_map.1 hx
        rcases Memory.mem_write hc with rfl | hc
        · simp only
          omega
        · exact h.1 _ (List.mem_map.2 ⟨c, hc, rfl⟩)

theorem reset_buffers_wf : State.reset.ibuf.wf ∧ State.reset.obuf.wf := ⟨Memory.wf_nil, Memory.wf_nil⟩

/-! ## Tables -/

@[simp] theorem tableGet_tableSet {α : Type} (t : Vector α 256) (b c : Byte) (v : α) :
    tableGet (tableSet t b v) c = if c = b then v else tableGet t c := by
  unfold tableGet tableSet
  rw [Vector.getElem_set]
  have : (b.toNat = c.toNat) ↔ c = b := by
    rw [← BitVec.toNat_inj]
    exact eq_comm
  simp only [this]

@[simp] theorem tableGet_emptyTable (b : Byte) : tableGet emptyTable b = none := by
  simp [tableGet, emptyTable]

@[simp] theorem tableGet_zeroCounts (b : Byte) : tableGet zeroCounts b = 0 := by
  simp [tableGet, zeroCounts]

end Sys2Proof.Machine
end

