-- ==== Sys2Proof/Laws/State.lean ====
section
/-! SUPPORT. What each named update of the state does to each field: one lemma per field per update, so that no later
proof unfolds a record update. -/

namespace Sys2Proof.Machine

@[simp] theorem raiseErr_eq_setErr (e : ErrCode) (s : State) : raiseErr e s = setErr e s := rfl

@[simp] theorem succeed_eq_setErr (s : State) : succeed s = setErr .ok s := rfl

/-! ## setErr -/

@[simp] theorem setErr_err (e : ErrCode) (s : State) : (setErr e s).err = e := rfl
@[simp] theorem setErr_result (e : ErrCode) (s : State) : (setErr e s).result = s.result := rfl
@[simp] theorem setErr_inLen (e : ErrCode) (s : State) : (setErr e s).inLen = s.inLen := rfl
@[simp] theorem setErr_outLen (e : ErrCode) (s : State) : (setErr e s).outLen = s.outLen := rfl
@[simp] theorem setErr_rpos (e : ErrCode) (s : State) : (setErr e s).rpos = s.rpos := rfl
@[simp] theorem setErr_wcnt (e : ErrCode) (s : State) : (setErr e s).wcnt = s.wcnt := rfl
@[simp] theorem setErr_wacc (e : ErrCode) (s : State) : (setErr e s).wacc = s.wacc := rfl
@[simp] theorem setErr_root (e : ErrCode) (s : State) : (setErr e s).root = s.root := rfl
@[simp] theorem setErr_ibuf (e : ErrCode) (s : State) : (setErr e s).ibuf = s.ibuf := rfl
@[simp] theorem setErr_obuf (e : ErrCode) (s : State) : (setErr e s).obuf = s.obuf := rfl
@[simp] theorem setErr_freqCount (e : ErrCode) (s : State) : (setErr e s).freqCount = s.freqCount := rfl
@[simp] theorem setErr_freqOrder (e : ErrCode) (s : State) : (setErr e s).freqOrder = s.freqOrder := rfl
@[simp] theorem setErr_nodes (e : ErrCode) (s : State) : (setErr e s).nodes = s.nodes := rfl
@[simp] theorem setErr_code (e : ErrCode) (s : State) : (setErr e s).code = s.code := rfl
@[simp] theorem setErr_cfg (e : ErrCode) (s : State) : (setErr e s).cfg = s.cfg := rfl
@[simp] theorem setErr_hostQueue (e : ErrCode) (s : State) : (setErr e s).hostQueue = s.hostQueue := rfl
@[simp] theorem setErr_lastRead (e : ErrCode) (s : State) : (setErr e s).lastRead = s.lastRead := rfl
@[simp] theorem setErr_resets (e : ErrCode) (s : State) : (setErr e s).resets = s.resets := rfl

/-! ## emptyWriter -/

@[simp] theorem emptyWriter_err (s : State) : (emptyWriter s).err = s.err := rfl
@[simp] theorem emptyWriter_result (s : State) : (emptyWriter s).result = s.result := rfl
@[simp] theorem emptyWriter_inLen (s : State) : (emptyWriter s).inLen = s.inLen := rfl
@[simp] theorem emptyWriter_outLen (s : State) : (emptyWriter s).outLen = 0 := rfl
@[simp] theorem emptyWriter_rpos (s : State) : (emptyWriter s).rpos = s.rpos := rfl
@[simp] theorem emptyWriter_wcnt (s : State) : (emptyWriter s).wcnt = 0 := rfl
@[simp] theorem emptyWriter_wacc (s : State) : (emptyWriter s).wacc = 0 := rfl
@[simp] theorem emptyWriter_root (s : State) : (emptyWriter s).root = s.root := rfl
@[simp] theorem emptyWriter_ibuf (s : State) : (emptyWriter s).ibuf = s.ibuf := rfl
@[simp] theorem emptyWriter_obuf (s : State) : (emptyWriter s).obuf = s.obuf := rfl
@[simp] theorem emptyWriter_freqCount (s : State) : (emptyWriter s).freqCount = s.freqCount := rfl
@[simp] theorem emptyWriter_freqOrder (s : State) : (emptyWriter s).freqOrder = s.freqOrder := rfl
@[simp] theorem emptyWriter_nodes (s : State) : (emptyWriter s).nodes = s.nodes := rfl
@[simp] theorem emptyWriter_code (s : State) : (emptyWriter s).code = s.code := rfl
@[simp] theorem emptyWriter_cfg (s : State) : (emptyWriter s).cfg = s.cfg := rfl
@[simp] theorem emptyWriter_hostQueue (s : State) : (emptyWriter s).hostQueue = s.hostQueue := rfl
@[simp] theorem emptyWriter_lastRead (s : State) : (emptyWriter s).lastRead = s.lastRead := rfl
@[simp] theorem emptyWriter_resets (s : State) : (emptyWriter s).resets = s.resets := rfl

/-! ## discardTree -/

@[simp] theorem discardTree_err (s : State) : (discardTree s).err = s.err := rfl
@[simp] theorem discardTree_result (s : State) : (discardTree s).result = s.result := rfl
@[simp] theorem discardTree_inLen (s : State) : (discardTree s).inLen = s.inLen := rfl
@[simp] theorem discardTree_outLen (s : State) : (discardTree s).outLen = s.outLen := rfl
@[simp] theorem discardTree_rpos (s : State) : (discardTree s).rpos = s.rpos := rfl
@[simp] theorem discardTree_wcnt (s : State) : (discardTree s).wcnt = s.wcnt := rfl
@[simp] theorem discardTree_wacc (s : State) : (discardTree s).wacc = s.wacc := rfl
@[simp] theorem discardTree_root (s : State) : (discardTree s).root = none := rfl
@[simp] theorem discardTree_ibuf (s : State) : (discardTree s).ibuf = s.ibuf := rfl
@[simp] theorem discardTree_obuf (s : State) : (discardTree s).obuf = s.obuf := rfl
@[simp] theorem discardTree_freqCount (s : State) : (discardTree s).freqCount = s.freqCount := rfl
@[simp] theorem discardTree_freqOrder (s : State) : (discardTree s).freqOrder = s.freqOrder := rfl
@[simp] theorem discardTree_nodes (s : State) : (discardTree s).nodes = [] := rfl
@[simp] theorem discardTree_code (s : State) : (discardTree s).code = s.code := rfl
@[simp] theorem discardTree_cfg (s : State) : (discardTree s).cfg = s.cfg := rfl
@[simp] theorem discardTree_hostQueue (s : State) : (discardTree s).hostQueue = s.hostQueue := rfl
@[simp] theorem discardTree_lastRead (s : State) : (discardTree s).lastRead = s.lastRead := rfl
@[simp] theorem discardTree_resets (s : State) : (discardTree s).resets = s.resets := rfl

/-! ## storeByte -/

@[simp] theorem storeByte_err (v : Byte) (s : State) : (storeByte v s).err = s.err := rfl
@[simp] theorem storeByte_result (v : Byte) (s : State) : (storeByte v s).result = s.result := rfl
@[simp] theorem storeByte_inLen (v : Byte) (s : State) : (storeByte v s).inLen = s.inLen := rfl
@[simp] theorem storeByte_outLen (v : Byte) (s : State) : (storeByte v s).outLen = s.outLen + 1 := rfl
@[simp] theorem storeByte_rpos (v : Byte) (s : State) : (storeByte v s).rpos = s.rpos := rfl
@[simp] theorem storeByte_wcnt (v : Byte) (s : State) : (storeByte v s).wcnt = 0 := rfl
@[simp] theorem storeByte_wacc (v : Byte) (s : State) : (storeByte v s).wacc = 0 := rfl
@[simp] theorem storeByte_root (v : Byte) (s : State) : (storeByte v s).root = s.root := rfl
@[simp] theorem storeByte_ibuf (v : Byte) (s : State) : (storeByte v s).ibuf = s.ibuf := rfl
@[simp] theorem storeByte_obuf (v : Byte) (s : State) : (storeByte v s).obuf = s.obuf.write s.outLen.toNat v := rfl
@[simp] theorem storeByte_freqCount (v : Byte) (s : State) : (storeByte v s).freqCount = s.freqCount := rfl
@[simp] theorem storeByte_freqOrder (v : Byte) (s : State) : (storeByte v s).freqOrder = s.freqOrder := rfl
@[simp] theorem storeByte_nodes (v : Byte) (s : State) : (storeByte v s).nodes = s.nodes := rfl
@[simp] theorem storeByte_code (v : Byte) (s : State) : (storeByte v s).code = s.code := rfl
@[simp] theorem storeByte_cfg (v : Byte) (s : State) : (storeByte v s).cfg = s.cfg := rfl
@[simp] theorem storeByte_hostQueue (v : Byte) (s : State) : (storeByte v s).hostQueue = s.hostQueue := rfl
@[simp] theorem storeByte_lastRead (v : Byte) (s : State) : (storeByte v s).lastRead = s.lastRead := rfl
@[simp] theorem storeByte_resets (v : Byte) (s : State) : (storeByte v s).resets = s.resets := rfl

/-! ## setNode -/

@[simp] theorem setNode_err (i : NodeIx) (n : Node) (s : State) : (setNode i n s).err = s.err := rfl
@[simp] theorem setNode_result (i : NodeIx) (n : Node) (s : State) : (setNode i n s).result = s.result := rfl
@[simp] theorem setNode_inLen (i : NodeIx) (n : Node) (s : State) : (setNode i n s).inLen = s.inLen := rfl
@[simp] theorem setNode_outLen (i : NodeIx) (n : Node) (s : State) : (setNode i n s).outLen = s.outLen := rfl
@[simp] theorem setNode_rpos (i : NodeIx) (n : Node) (s : State) : (setNode i n s).rpos = s.rpos := rfl
@[simp] theorem setNode_wcnt (i : NodeIx) (n : Node) (s : State) : (setNode i n s).wcnt = s.wcnt := rfl
@[simp] theorem setNode_wacc (i : NodeIx) (n : Node) (s : State) : (setNode i n s).wacc = s.wacc := rfl
@[simp] theorem setNode_root (i : NodeIx) (n : Node) (s : State) : (setNode i n s).root = s.root := rfl
@[simp] theorem setNode_ibuf (i : NodeIx) (n : Node) (s : State) : (setNode i n s).ibuf = s.ibuf := rfl
@[simp] theorem setNode_obuf (i : NodeIx) (n : Node) (s : State) : (setNode i n s).obuf = s.obuf := rfl
@[simp] theorem setNode_freqCount (i : NodeIx) (n : Node) (s : State) : (setNode i n s).freqCount = s.freqCount := rfl
@[simp] theorem setNode_freqOrder (i : NodeIx) (n : Node) (s : State) : (setNode i n s).freqOrder = s.freqOrder := rfl
@[simp] theorem setNode_nodes (i : NodeIx) (n : Node) (s : State) : (setNode i n s).nodes = s.nodes.set i.toNat n := rfl
@[simp] theorem setNode_code (i : NodeIx) (n : Node) (s : State) : (setNode i n s).code = s.code := rfl
@[simp] theorem setNode_cfg (i : NodeIx) (n : Node) (s : State) : (setNode i n s).cfg = s.cfg := rfl
@[simp] theorem setNode_hostQueue (i : NodeIx) (n : Node) (s : State) : (setNode i n s).hostQueue = s.hostQueue := rfl
@[simp] theorem setNode_lastRead (i : NodeIx) (n : Node) (s : State) : (setNode i n s).lastRead = s.lastRead := rfl
@[simp] theorem setNode_resets (i : NodeIx) (n : Node) (s : State) : (setNode i n s).resets = s.resets := rfl

/-! ## deliver -/

@[simp] theorem deliver_err {n : Nat} (v : BitVec n) (s : State) : (deliver v s).err = s.err := rfl
@[simp] theorem deliver_result {n : Nat} (v : BitVec n) (s : State) : (deliver v s).result = v.setWidth 32 := rfl
@[simp] theorem deliver_inLen {n : Nat} (v : BitVec n) (s : State) : (deliver v s).inLen = s.inLen := rfl
@[simp] theorem deliver_outLen {n : Nat} (v : BitVec n) (s : State) : (deliver v s).outLen = s.outLen := rfl
@[simp] theorem deliver_rpos {n : Nat} (v : BitVec n) (s : State) : (deliver v s).rpos = s.rpos := rfl
@[simp] theorem deliver_wcnt {n : Nat} (v : BitVec n) (s : State) : (deliver v s).wcnt = s.wcnt := rfl
@[simp] theorem deliver_wacc {n : Nat} (v : BitVec n) (s : State) : (deliver v s).wacc = s.wacc := rfl
@[simp] theorem deliver_root {n : Nat} (v : BitVec n) (s : State) : (deliver v s).root = s.root := rfl
@[simp] theorem deliver_ibuf {n : Nat} (v : BitVec n) (s : State) : (deliver v s).ibuf = s.ibuf := rfl
@[simp] theorem deliver_obuf {n : Nat} (v : BitVec n) (s : State) : (deliver v s).obuf = s.obuf := rfl
@[simp] theorem deliver_freqCount {n : Nat} (v : BitVec n) (s : State) : (deliver v s).freqCount = s.freqCount := rfl
@[simp] theorem deliver_freqOrder {n : Nat} (v : BitVec n) (s : State) : (deliver v s).freqOrder = s.freqOrder := rfl
@[simp] theorem deliver_nodes {n : Nat} (v : BitVec n) (s : State) : (deliver v s).nodes = s.nodes := rfl
@[simp] theorem deliver_code {n : Nat} (v : BitVec n) (s : State) : (deliver v s).code = s.code := rfl
@[simp] theorem deliver_cfg {n : Nat} (v : BitVec n) (s : State) : (deliver v s).cfg = s.cfg := rfl
@[simp] theorem deliver_hostQueue {n : Nat} (v : BitVec n) (s : State) : (deliver v s).hostQueue = s.hostQueue := rfl
@[simp] theorem deliver_lastRead {n : Nat} (v : BitVec n) (s : State) : (deliver v s).lastRead = s.lastRead := rfl
@[simp] theorem deliver_resets {n : Nat} (v : BitVec n) (s : State) : (deliver v s).resets = s.resets := rfl

/-! ## hostRead -/

@[simp] theorem hostRead_err (v : BitVec 64) (s : State) : (hostRead v s).err = s.err := rfl
@[simp] theorem hostRead_result (v : BitVec 64) (s : State) : (hostRead v s).result = s.result := rfl
@[simp] theorem hostRead_inLen (v : BitVec 64) (s : State) : (hostRead v s).inLen = s.inLen := rfl
@[simp] theorem hostRead_outLen (v : BitVec 64) (s : State) : (hostRead v s).outLen = s.outLen := rfl
@[simp] theorem hostRead_rpos (v : BitVec 64) (s : State) : (hostRead v s).rpos = s.rpos := rfl
@[simp] theorem hostRead_wcnt (v : BitVec 64) (s : State) : (hostRead v s).wcnt = s.wcnt := rfl
@[simp] theorem hostRead_wacc (v : BitVec 64) (s : State) : (hostRead v s).wacc = s.wacc := rfl
@[simp] theorem hostRead_root (v : BitVec 64) (s : State) : (hostRead v s).root = s.root := rfl
@[simp] theorem hostRead_ibuf (v : BitVec 64) (s : State) : (hostRead v s).ibuf = s.ibuf := rfl
@[simp] theorem hostRead_obuf (v : BitVec 64) (s : State) : (hostRead v s).obuf = s.obuf := rfl
@[simp] theorem hostRead_freqCount (v : BitVec 64) (s : State) : (hostRead v s).freqCount = s.freqCount := rfl
@[simp] theorem hostRead_freqOrder (v : BitVec 64) (s : State) : (hostRead v s).freqOrder = s.freqOrder := rfl
@[simp] theorem hostRead_nodes (v : BitVec 64) (s : State) : (hostRead v s).nodes = s.nodes := rfl
@[simp] theorem hostRead_code (v : BitVec 64) (s : State) : (hostRead v s).code = s.code := rfl
@[simp] theorem hostRead_cfg (v : BitVec 64) (s : State) : (hostRead v s).cfg = s.cfg := rfl
@[simp] theorem hostRead_hostQueue (v : BitVec 64) (s : State) : (hostRead v s).hostQueue = s.hostQueue := rfl
@[simp] theorem hostRead_lastRead (v : BitVec 64) (s : State) : (hostRead v s).lastRead = some v := rfl
@[simp] theorem hostRead_resets (v : BitVec 64) (s : State) : (hostRead v s).resets = s.resets := rfl

/-! ## advance -/

@[simp] theorem advance_err (n : Nat) (s : State) : (advance n s).err = s.err := rfl
@[simp] theorem advance_result (n : Nat) (s : State) : (advance n s).result = s.result := rfl
@[simp] theorem advance_inLen (n : Nat) (s : State) : (advance n s).inLen = s.inLen := rfl
@[simp] theorem advance_outLen (n : Nat) (s : State) : (advance n s).outLen = s.outLen := rfl
@[simp] theorem advance_rpos (n : Nat) (s : State) : (advance n s).rpos = BitVec.ofNat 32 (s.rpos.toNat + n) := rfl
@[simp] theorem advance_wcnt (n : Nat) (s : State) : (advance n s).wcnt = s.wcnt := rfl
@[simp] theorem advance_wacc (n : Nat) (s : State) : (advance n s).wacc = s.wacc := rfl
@[simp] theorem advance_root (n : Nat) (s : State) : (advance n s).root = s.root := rfl
@[simp] theorem advance_ibuf (n : Nat) (s : State) : (advance n s).ibuf = s.ibuf := rfl
@[simp] theorem advance_obuf (n : Nat) (s : State) : (advance n s).obuf = s.obuf := rfl
@[simp] theorem advance_freqCount (n : Nat) (s : State) : (advance n s).freqCount = s.freqCount := rfl
@[simp] theorem advance_freqOrder (n : Nat) (s : State) : (advance n s).freqOrder = s.freqOrder := rfl
@[simp] theorem advance_nodes (n : Nat) (s : State) : (advance n s).nodes = s.nodes := rfl
@[simp] theorem advance_code (n : Nat) (s : State) : (advance n s).code = s.code := rfl
@[simp] theorem advance_cfg (n : Nat) (s : State) : (advance n s).cfg = s.cfg := rfl
@[simp] theorem advance_hostQueue (n : Nat) (s : State) : (advance n s).hostQueue = s.hostQueue := rfl
@[simp] theorem advance_lastRead (n : Nat) (s : State) : (advance n s).lastRead = s.lastRead := rfl
@[simp] theorem advance_resets (n : Nat) (s : State) : (advance n s).resets = s.resets := rfl

/-! ## resetState -/

@[simp] theorem resetState_err (s : State) : (resetState s).err = .ok := rfl
@[simp] theorem resetState_result (s : State) : (resetState s).result = 0 := rfl
@[simp] theorem resetState_inLen (s : State) : (resetState s).inLen = 0 := rfl
@[simp] theorem resetState_outLen (s : State) : (resetState s).outLen = 0 := rfl
@[simp] theorem resetState_rpos (s : State) : (resetState s).rpos = 0 := rfl
@[simp] theorem resetState_wcnt (s : State) : (resetState s).wcnt = 0 := rfl
@[simp] theorem resetState_wacc (s : State) : (resetState s).wacc = 0 := rfl
@[simp] theorem resetState_root (s : State) : (resetState s).root = none := rfl
@[simp] theorem resetState_ibuf (s : State) : (resetState s).ibuf = [] := rfl
@[simp] theorem resetState_obuf (s : State) : (resetState s).obuf = [] := rfl
@[simp] theorem resetState_freqCount (s : State) : (resetState s).freqCount = zeroCounts := rfl
@[simp] theorem resetState_freqOrder (s : State) : (resetState s).freqOrder = [] := rfl
@[simp] theorem resetState_nodes (s : State) : (resetState s).nodes = [] := rfl
@[simp] theorem resetState_code (s : State) : (resetState s).code = emptyTable := rfl
@[simp] theorem resetState_cfg (s : State) : (resetState s).cfg = s.cfg := rfl
@[simp] theorem resetState_hostQueue (s : State) : (resetState s).hostQueue = s.hostQueue := rfl
@[simp] theorem resetState_lastRead (s : State) : (resetState s).lastRead = s.lastRead := rfl
@[simp] theorem resetState_resets (s : State) : (resetState s).resets = s.resets + 1 := rfl

end Sys2Proof.Machine
end

