-- ==== Sys2Proof/Laws/Outcome.lean ====
section
/-! SUPPORT. What the end of a command can be: the inversion of `settle`, and the effect of a failure. -/

namespace Sys2Proof.Machine

@[simp] theorem settle_ok (f : ErrCode → State) (s : State) : settle f (.ok s) = .next (setErr .ok s) := rfl

@[simp] theorem settle_raise (f : ErrCode → State) (e : ErrCode) :
    settle f (.error (.raise e)) = .next (f e) := rfl

@[simp] theorem settle_stop (f : ErrCode → State) (x : Fault) : settle f (.error (.stop x)) = .fault x := rfl

/-- A command that ends in a next state either succeeded or failed with an error code. -/
theorem settle_next {f : ErrCode → State} {r : Except Exn State} {t : State} (h : settle f r = .next t) :
    (∃ s, r = .ok s ∧ t = setErr .ok s) ∨ ∃ e, r = .error (.raise e) ∧ t = f e := by
  match r with
  | .ok s => exact .inl ⟨s, rfl, by simpa using h.symm⟩
  | .error (.raise e) => exact .inr ⟨e, rfl, by simpa using h.symm⟩
  | .error (.stop x) => simp at h

/-- A command is refused by no meaning. -/
theorem settle_ne_refused {f : ErrCode → State} {r : Except Exn State} {x : Refusal} : settle f r ≠ .refused x := by
  match r with
  | .ok s => simp
  | .error (.raise e) => simp
  | .error (.stop y) => simp

end Sys2Proof.Machine
end

