-- ==== Sys2Proof/Laws/Counter.lean ====
section
/-! SUPPORT. What the counter's loop has computed after some bytes (40_freq_counter.md R110, R111). -/

namespace Sys2Proof.Machine

/-- The frequency table of a list of bytes (40_freq_counter.md R111). -/
structure Tabulates (u : State) (bs : List Byte) : Prop where
  count : ∀ b, (countOf u b).toNat = bs.count b
  nodup : u.freqOrder.Nodup
  mem : ∀ b, b ∈ u.freqOrder ↔ b ∈ bs
  order : u.freqOrder.Pairwise (fun a b => bs.idxOf a < bs.idxOf b)

theorem countOf_countByte (u : State) (b c : Byte) :
    countOf (countByte u b) c = if c = b then countOf u b + 1 else countOf u c := by
  simp [countOf, countByte]

/-- One more byte. -/
theorem Tabulates.countByte {u : State} {bs : List Byte} (h : Tabulates u bs) (b : Byte) (hl : bs.length + 1 < 2 ^ 32) :
    Tabulates (countByte u b) (bs ++ [b]) := by
  have hb : (countOf u b).toNat = bs.count b := h.count b
  have hle : bs.count b ≤ bs.length := List.count_le_length
  have hz : countOf u b = 0 ↔ b ∉ bs := by
    rw [← List.count_eq_zero, ← hb, ← BitVec.toNat_inj]
    simp
  have hidx : ∀ c ∈ bs, (bs ++ [b]).idxOf c = bs.idxOf c := fun c hc => List.idxOf_append_of_mem hc
  constructor
  · intro c
    rw [countOf_countByte]
    split
    · next e =>
      subst e
      rw [BitVec.toNat_add, hb, Nat.mod_eq_of_lt (by simpa using by omega)]
      simp
    · next e =>
      rw [h.count c]
      simp [Ne.symm e]
  · simp only [Machine.countByte]
    split
    · next e =>
      rw [List.nodup_append]
      refine ⟨h.nodup, by simp, ?_⟩
      intro x hx y hy
      simp only [List.mem_singleton] at hy
      subst hy
      rintro rfl
      exact (hz.1 e) ((h.mem _).1 hx)
    · exact h.nodup
  · intro c
    simp only [Machine.countByte]
    split
    · simp [h.mem c]
    · next e =>
      rw [hz, not_not] at e
      rw [h.mem c, List.mem_append, List.mem_singleton]
      exact ⟨.inl, fun hc => hc.elim id (fun e' => e' ▸ e)⟩
  · have hold : u.freqOrder.Pairwise (fun x y => (bs ++ [b]).idxOf x < (bs ++ [b]).idxOf y) := by
      refine h.order.imp_of_mem ?_
      intro x y hx hy hxy
      rw [hidx x ((h.mem x).1 hx), hidx y ((h.mem y).1 hy)]
      exact hxy
    simp only [Machine.countByte]
    split
    · next e =>
      rw [List.pairwise_append]
      refine ⟨hold, List.pairwise_singleton _ _, ?_⟩
      intro x hx y hy
      simp only [List.mem_singleton] at hy
      subst hy
      have hxm := (h.mem x).1 hx
      rw [hidx x hxm, List.idxOf_append_of_notMem (hz.1 e)]
      have := List.idxOf_lt_length_of_mem hxm
      omega
    · exact hold

/-- A whole list of bytes. -/
theorem Tabulates.foldl {u : State} {pre bs : List Byte} (h : Tabulates u pre)
    (hl : pre.length + bs.length < 2 ^ 32) : Tabulates (bs.foldl Machine.countByte u) (pre ++ bs) := by
  induction bs generalizing u pre with
  | nil => simpa using h
  | cons b bs ih =>
    simp only [List.length_cons] at hl
    have := ih (h.countByte b (by omega)) (by simp; omega)
    simpa using this

/-- The counter writes the frequency table alone. -/
theorem foldl_countByte_frame (bs : List Byte) (u : State) :
    bs.foldl countByte u =
      { u with freqCount := (bs.foldl countByte u).freqCount, freqOrder := (bs.foldl countByte u).freqOrder } := by
  induction bs generalizing u with
  | nil => rfl
  | cons b bs ih =>
    rw [List.foldl_cons, ih]
    rfl

@[simp] theorem inputBytes_length (s : State) : (inputBytes s).length = s.inLen.toNat := by simp [inputBytes]

/-- The counts of a table sum to the number of bytes (40_freq_counter.md R111). -/
theorem Tabulates.sum {u : State} {bs : List Byte} (h : Tabulates u bs) :
    (u.freqOrder.map (fun b => (countOf u b).toNat)).sum = bs.length := by
  have hp : u.freqOrder.Perm bs.dedup :=
    (List.perm_ext_iff_of_nodup h.nodup (List.nodup_dedup bs)).2 fun b => by rw [h.mem, List.mem_dedup]
  simp only [h.count]
  rw [(hp.map _).sum_eq, List.sum_map_count_dedup_eq_length]

theorem Tabulates.freqOk {u : State} {bs : List Byte} (h : Tabulates u bs) (hl : bs.length ≤ u.cfg.inCap.val) :
    FreqOk u := by
  refine ⟨h.nodup, ?_, by rw [h.sum]; exact hl⟩
  intro b
  rw [h.mem, ← List.count_pos_iff, ← h.count, Nat.pos_iff_ne_zero, not_iff_not, ← BitVec.toNat_inj]
  simp

/-- The body of `FQ.COUNT` on a legal input length (40_freq_counter.md R110, R111). -/
theorem countBody_spec {s : State} (hi : InputOk s) :
    ∃ u, countBody s = .ok u ∧ u = { s with freqCount := u.freqCount, freqOrder := u.freqOrder } ∧
      Tabulates u (inputBytes s) := by
  have hi' : s.inLen.toNat ≤ s.cfg.inCap.val := hi
  have hcap := s.cfg.inCap.property
  have h0 : Tabulates { s with freqCount := zeroCounts, freqOrder := [] } [] :=
    ⟨fun b => by simp [countOf], by simp, by simp, by simp⟩
  refine ⟨(inputBytes s).foldl countByte { s with freqCount := zeroCounts, freqOrder := [] }, ?_, ?_, ?_⟩
  · rw [countBody, if_neg (by omega)]
  · exact foldl_countByte_frame _ _
  · simpa using h0.foldl (bs := inputBytes s) (by simp; omega)

end Sys2Proof.Machine
end

