-- ==== Sys2Proof/Laws/Tree.lean ====
section
/-! SUPPORT. Trees and the entries of the arena that denote them (10_state.md R38, R39): sizes, and which changes of the
arena leave a tree alone. -/

namespace Sys2Proof.Machine

/-! ## Sizes -/

theorem Tree.levels_pos (t : Tree) : 1 ≤ Tree.levels t := by cases t <;> simp [Tree.levels]

theorem Tree.levels_le_leaves (t : Tree) : Tree.levels t ≤ Tree.leaves t := by
  induction t with
  | leaf b => simp [Tree.levels, Tree.leaves]
  | node l r hl hr =>
    have := Tree.levels_pos l
    have := Tree.levels_pos r
    simp only [Tree.levels, Tree.leaves]
    omega

theorem Tree.levels_le_size (t : Tree) : Tree.levels t ≤ Tree.size t := by
  induction t with
  | leaf b => simp [Tree.levels, Tree.size]
  | node l r hl hr =>
    simp only [Tree.levels, Tree.size]
    omega

theorem Tree.size_add_one (t : Tree) : Tree.size t + 1 = 2 * Tree.leaves t := by
  induction t with
  | leaf b => rfl
  | node l r hl hr =>
    simp only [Tree.size, Tree.leaves]
    omega

theorem Tree.symbols_length (t : Tree) : (Tree.symbols t).length = Tree.leaves t := by
  induction t with
  | leaf b => rfl
  | node l r hl hr => simp [Tree.symbols, Tree.leaves, hl, hr]

theorem Tree.paths_fst (t : Tree) : (Tree.paths t).map Prod.fst = Tree.symbols t := by
  induction t with
  | leaf b => rfl
  | node l r hl hr => simp [Tree.paths, Tree.symbols, ← hl, ← hr, Function.comp_def]

/-- A path has fewer steps than the tree has levels. -/
theorem Tree.length_lt_levels {t : Tree} {p : Byte × Bits} (h : p ∈ Tree.paths t) : p.2.length < Tree.levels t := by
  induction t generalizing p with
  | leaf b =>
    simp only [Tree.paths, List.mem_singleton] at h
    simp [h, Tree.levels]
  | node l r hl hr =>
    simp only [Tree.paths, List.mem_append, List.mem_map] at h
    simp only [Tree.levels]
    rcases h with ⟨c, hc, rfl⟩ | ⟨c, hc, rfl⟩
    · have := hl hc
      simp only [List.length_cons]
      omega
    · have := hr hc
      simp only [List.length_cons]
      omega

/-! ## Entries that denote a tree -/

/-- The entry `i` denotes the tree `t`, and `xs` are the indices of its entries, in the order of a walk. -/
def Spans (nodes : List Node) : Tree → NodeIx → List NodeIx → Prop
  | .leaf b, i, xs => (∃ w, nodes[i.toNat]? = some (.leaf b w)) ∧ xs = [i]
  | .node l r, i, xs => ∃ w li ri xl xr, nodes[i.toNat]? = some (.internal w li ri) ∧ Spans nodes l li xl ∧
      Spans nodes r ri xr ∧ xs = i :: (xl ++ xr)

theorem Spans.length {nodes : List Node} {t : Tree} {i : NodeIx} {xs : List NodeIx} (h : Spans nodes t i xs) :
    xs.length = Tree.size t := by
  induction t generalizing i xs with
  | leaf b => simp [h.2, Tree.size]
  | node l r hl hr =>
    obtain ⟨w, li, ri, xl, xr, -, h1, h2, rfl⟩ := h
    simp [Tree.size, hl h1, hr h2]

/-- A change of other entries leaves the tree alone. -/
theorem Spans.congr {nodes nodes' : List Node} {t : Tree} {i : NodeIx} {xs : List NodeIx} (h : Spans nodes t i xs)
    (he : ∀ x ∈ xs, nodes'[x.toNat]? = nodes[x.toNat]?) : Spans nodes' t i xs := by
  induction t generalizing i xs with
  | leaf b =>
    obtain ⟨⟨w, hw⟩, rfl⟩ := h
    exact ⟨⟨w, by rw [he i (by simp), hw]⟩, rfl⟩
  | node l r hl hr =>
    obtain ⟨w, li, ri, xl, xr, hn, h1, h2, rfl⟩ := h
    refine ⟨w, li, ri, xl, xr, by rw [he i (by simp), hn], hl h1 ?_, hr h2 ?_, rfl⟩
    · exact fun x hx => he x (by simp [hx])
    · exact fun x hx => he x (by simp [hx])

theorem Spans.lt {nodes : List Node} {t : Tree} {i : NodeIx} {xs : List NodeIx} (h : Spans nodes t i xs) :
    ∀ x ∈ xs, x.toNat < nodes.length := by
  induction t generalizing i xs with
  | leaf b =>
    obtain ⟨⟨w, hw⟩, rfl⟩ := h
    simpa using (List.getElem?_eq_some_iff.1 hw).1
  | node l r hl hr =>
    obtain ⟨w, li, ri, xl, xr, hn, h1, h2, rfl⟩ := h
    intro x hx
    simp only [List.mem_cons, List.mem_append] at hx
    rcases hx with rfl | hx | hx
    · exact (List.getElem?_eq_some_iff.1 hn).1
    · exact hl h1 x hx
    · exact hr h2 x hx

theorem Spans.append {nodes : List Node} {t : Tree} {i : NodeIx} {xs : List NodeIx} (h : Spans nodes t i xs)
    (ns : List Node) : Spans (nodes ++ ns) t i xs :=
  h.congr fun x hx => List.getElem?_append_left (h.lt x hx)

/-- What the walks find. -/
theorem Spans.walk {nodes : List Node} {t : Tree} {i : NodeIx} {xs : List NodeIx} (h : Spans nodes t i xs) {fuel : Nat}
    (hf : Tree.levels t ≤ fuel) : treeAt nodes fuel i = some t ∧ reachFrom nodes fuel i = xs := by
  induction t generalizing i xs fuel with
  | leaf b =>
    obtain ⟨⟨w, hw⟩, rfl⟩ := h
    obtain ⟨f, rfl⟩ : ∃ f, fuel = f + 1 := ⟨fuel - 1, by have := Tree.levels_pos (.leaf b); omega⟩
    simp [treeAt, reachFrom, hw]
  | node l r hl hr =>
    obtain ⟨w, li, ri, xl, xr, hn, h1, h2, rfl⟩ := h
    simp only [Tree.levels] at hf
    obtain ⟨f, rfl⟩ : ∃ f, fuel = f + 1 := ⟨fuel - 1, by omega⟩
    obtain ⟨a1, a2⟩ := hl h1 (fuel := f) (by omega)
    obtain ⟨b1, b2⟩ := hr h2 (fuel := f) (by omega)
    simp [treeAt, reachFrom, hn, a1, a2, b1, b2]

theorem spans_of_treeAt {nodes : List Node} {fuel : Nat} {i : NodeIx} {t : Tree} (h : treeAt nodes fuel i = some t) :
    Tree.levels t ≤ fuel ∧ Spans nodes t i (reachFrom nodes fuel i) := by
  induction fuel generalizing i t with
  | zero => simp [treeAt] at h
  | succ f ih =>
    simp only [treeAt] at h
    split at h
    · cases h
    · next b w hn =>
      cases h
      simp [Tree.levels, Spans, reachFrom, hn]
    · next w l r hn =>
      split at h
      · next a b ha hb =>
        cases h
        obtain ⟨l1, s1⟩ := ih ha
        obtain ⟨l2, s2⟩ := ih hb
        refine ⟨by simp only [Tree.levels]; omega, ?_⟩
        simp only [reachFrom, hn]
        exact ⟨w, l, r, _, _, hn, s1, s2, rfl⟩
      · cases h

/-- The arena of a state with a root that spans it. -/
theorem Spans.arenaOk {s : State} {t : Tree} {r : NodeIx} {xs : List NodeIx} (hr : s.root = some r)
    (h : Spans s.nodes t r xs) (hd : xs.Nodup) (hn : Tree.size t = s.nodes.length)
    (hl : Tree.levels t ≤ 256) (hc : s.nodes.length ≤ 511) : ArenaOk s := by
  have hpos : 1 ≤ Tree.size t := (Tree.levels_pos t).trans (Tree.levels_le_size t)
  have hw := h.walk (fuel := s.nodes.length) (hn ▸ Tree.levels_le_size t)
  refine ⟨?_, hc, ?_⟩
  · rw [hr]
    simp only [reduceCtorEq, false_iff]
    rintro e
    rw [e] at hn
    simp only [List.length_nil] at hn
    omega
  · intro r' hr'
    rw [hr] at hr'
    cases hr'
    exact ⟨t, hw.1, hn, hl, hw.2 ▸ hd⟩

theorem Spans.denotes {s : State} {t : Tree} {r : NodeIx} {xs : List NodeIx} (hr : s.root = some r)
    (h : Spans s.nodes t r xs) (hn : Tree.levels t ≤ s.nodes.length) : Denotes s t := ⟨r, hr, (h.walk hn).1⟩

theorem arenaOk_none {s : State} (hr : s.root = none) (hn : s.nodes = []) : ArenaOk s :=
  ⟨by simp [hr, hn], by simp [hn], by simp [hr]⟩

/-- The tree of a state with a legal arena. -/
theorem ArenaOk.denotes {s : State} (h : ArenaOk s) (hr : s.root ≠ none) :
    ∃ t, Denotes s t ∧ Tree.size t = s.nodes.length ∧ Tree.levels t ≤ 256 := by
  obtain ⟨r, hr⟩ := Option.ne_none_iff_exists'.1 hr
  obtain ⟨t, h1, h2, h3, -⟩ := h.2.2 r hr
  exact ⟨t, ⟨r, hr, h1⟩, h2, h3⟩

/-- A state denotes one tree at most. -/
theorem Denotes.unique {s : State} {t u : Tree} (h : Denotes s t) (h' : Denotes s u) : t = u := by
  obtain ⟨r, hr, ht⟩ := h
  obtain ⟨r', hr', hu⟩ := h'
  rw [hr] at hr'
  cases hr'
  rw [ht] at hu
  cases hu
  rfl

theorem Denotes.treeIn {s : State} {t : Tree} (h : Denotes s t) :
    ∃ r, s.root = some r ∧ Machine.treeIn s r = .ok t := by
  obtain ⟨r, hr, ht⟩ := h
  exact ⟨r, hr, by simp [Machine.treeIn, ht]⟩

end Sys2Proof.Machine
end

