-- ==== Sys2Proof/Laws/Builder.lean ====
section
/-! SUPPORT. The merge queue (41_tree_builder.md R121 to R124): the order a sort gives, and what holds of nodes and queue
after any number of merge steps. -/

namespace Sys2Proof.Machine

/-! ## The sort -/

/-- The order of the queue: by weight, then by index. -/
def QBefore (x y : QEntry) : Prop :=
  x.weight.toNat < y.weight.toNat ∨ x.weight = y.weight ∧ x.ix.toNat < y.ix.toNat

/-- Entries of equal weight stand in the order of their indices. -/
abbrev Tied (q : List QEntry) : Prop := q.Pairwise (fun x y => x.weight = y.weight → x.ix.toNat < y.ix.toNat)

theorem insertStable_perm (x : QEntry) (q : List QEntry) : (insertStable x q).Perm (x :: q) := by
  induction q with
  | nil => exact .refl _
  | cons y q ih =>
    unfold insertStable
    split
    · exact .refl _
    · exact (ih.cons y).trans (.swap x y q)

theorem stableSort_perm (q : List QEntry) : (stableSort q).Perm q := by
  induction q with
  | nil => exact .refl _
  | cons x q ih => exact (insertStable_perm x _).trans (ih.cons x)

theorem insertStable_before {x : QEntry} {q : List QEntry} (h : q.Pairwise QBefore)
    (hx : ∀ y ∈ q, x.weight = y.weight → x.ix.toNat < y.ix.toNat) : (insertStable x q).Pairwise QBefore := by
  induction q with
  | nil => simp [insertStable]
  | cons y q ih =>
    rw [List.pairwise_cons] at h
    unfold insertStable
    split
    · next hle =>
      rw [List.pairwise_cons, List.pairwise_cons]
      have hxy : QBefore x y := by
        rcases Nat.lt_or_eq_of_le hle with hl | he
        · exact .inl hl
        · have he := BitVec.eq_of_toNat_eq he
          exact .inr ⟨he, hx y (by simp) he⟩
      refine ⟨?_, h⟩
      intro z hz
      rcases List.mem_cons.1 hz with rfl | hz
      · exact hxy
      · have hyz := h.1 z hz
        rcases Nat.lt_or_eq_of_le (show x.weight.toNat ≤ z.weight.toNat by
            rcases hyz with hl | ⟨he, -⟩
            · omega
            · rw [← he]
              exact hle) with hl | he
        · exact .inl hl
        · have he := BitVec.eq_of_toNat_eq he
          exact .inr ⟨he, hx z (by simp [hz]) he⟩
    · next hle =>
      rw [List.pairwise_cons]
      refine ⟨?_, ih h.2 fun z hz => hx z (by simp [hz])⟩
      intro z hz
      rcases List.mem_cons.1 ((insertStable_perm x q).mem_iff.1 hz) with rfl | hz
      · exact .inl (by omega)
      · exact h.1 z hz

/-- A sort of a queue whose ties stand in index order is in the queue's order. -/
theorem stableSort_before {q : List QEntry} (h : Tied q) : (stableSort q).Pairwise QBefore := by
  induction q with
  | nil => exact .nil
  | cons x q ih =>
    rw [Tied, List.pairwise_cons] at h
    exact insertStable_before (ih h.2) fun y hy => h.1 y ((stableSort_perm q).mem_iff.1 hy)

/-! ## Nodes that only grow -/

theorem inQueue_append {nodes ns : List Node} {m x : Nat} (hm : m ≤ nodes.length) :
    InQueue (nodes ++ ns) m x ↔ InQueue nodes m x := by
  unfold InQueue
  refine and_congr_right fun _ => forall_congr' fun n => forall_congr' fun w => forall_congr' fun l =>
    forall_congr' fun r => ?_
  constructor
  · intro h hn
    rw [List.getElem?_append_left (by omega)] at h
    exact h hn
  · intro h hn
    rw [List.getElem?_append_left (by omega)]
    exact h hn

theorem Before.append {nodes : List Node} {x y : Nat} (h : Before nodes x y) (ns : List Node) :
    Before (nodes ++ ns) x y := by
  obtain ⟨a, b, ha, hb, h⟩ := h
  refine ⟨a, b, ?_, ?_, h⟩
  · rw [List.getElem?_append_left (List.getElem?_eq_some_iff.1 ha).1, ha]
  · rw [List.getElem?_append_left (List.getElem?_eq_some_iff.1 hb).1, hb]

/-- The internal node `m` merged the two first nodes of the queue, and weighs their sum. -/
def Merged (nodes : List Node) (m : Nat) (w : Word32) (l r : NodeIx) : Prop :=
  InQueue nodes m l.toNat ∧ InQueue nodes m r.toNat ∧ Before nodes l.toNat r.toNat ∧
    (∀ x, InQueue nodes m x → x ≠ l.toNat → x ≠ r.toNat → Before nodes r.toNat x) ∧
    ∃ a b, nodes[l.toNat]? = some a ∧ nodes[r.toNat]? = some b ∧ w.toNat = a.weight.toNat + b.weight.toNat

theorem Merged.append {nodes : List Node} {m : Nat} {w : Word32} {l r : NodeIx} (h : Merged nodes m w l r)
    (hm : m ≤ nodes.length) (ns : List Node) : Merged (nodes ++ ns) m w l r := by
  obtain ⟨h1, h2, h3, h4, a, b, ha, hb, hw⟩ := h
  refine ⟨(inQueue_append hm).2 h1, (inQueue_append hm).2 h2, h3.append ns, ?_, a, b, ?_, ?_, hw⟩
  · exact fun x hx hl hr => (h4 x ((inQueue_append hm).1 hx) hl hr).append ns
  · rw [List.getElem?_append_left (List.getElem?_eq_some_iff.1 ha).1, ha]
  · rw [List.getElem?_append_left (List.getElem?_eq_some_iff.1 hb).1, hb]

/-! ## The invariant of the loop -/

/-- What holds of nodes and queue after any number of merge steps on the seeds of the symbols `order` with the counts
`cnt`. -/
structure Merging (order : List Byte) (cnt : Byte → Word32) (nodes : List Node) (q : List QEntry) : Prop where
  len : nodes.length + q.length = 2 * order.length
  ent : ∀ x ∈ q, ∃ n, nodes[x.ix.toNat]? = some n ∧ n.weight = x.weight
  tied : Tied q
  sum : (q.map (fun x => x.weight.toNat)).sum = (order.map (fun b => (cnt b).toNat)).sum
  queue : ∀ x, InQueue nodes nodes.length x ↔ ∃ e ∈ q, e.ix.toNat = x
  span : ∃ (T : NodeIx → Tree) (X : NodeIx → List NodeIx), (∀ x ∈ q, Spans nodes (T x.ix) x.ix (X x.ix)) ∧
    (q.flatMap fun x => X x.ix).Perm ((List.range nodes.length).map (BitVec.ofNat 9)) ∧
    (q.flatMap fun x => Tree.symbols (T x.ix)).Perm order
  leaf : ∀ (j : Nat) b, order[j]? = some b → nodes[j]? = some (.leaf b (cnt b))
  inner : ∀ (m : Nat) n, nodes[m]? = some n → order.length ≤ m → ∃ w l r, n = .internal w l r
  merged : ∀ (m : Nat) w l r, nodes[m]? = some (.internal w l r) → Merged nodes m w l r

variable {order : List Byte} {cnt : Byte → Word32}

theorem Merging.step {nodes : List Node} {q : List QEntry} (h : Merging order cnt nodes q)
    (hk : order.length ≤ 256) (ht : (order.map (fun b => (cnt b).toNat)).sum < 2 ^ 32) (hq : 2 ≤ q.length) :
    Merging order cnt (mergeStep nodes q).1 (mergeStep nodes q).2 ∧
      (mergeStep nodes q).2.length + 1 = q.length := by
  have hp := stableSort_perm q
  have hs := stableSort_before h.tied
  obtain ⟨a, b, rest, hqs⟩ : ∃ a b rest, stableSort q = a :: b :: rest := by
    have := hp.length_eq
    match hq' : stableSort q with
    | [] => simp [hq'] at this; omega
    | [x] => simp [hq'] at this; omega
    | a :: b :: rest => exact ⟨a, b, rest, rfl⟩
  rw [hqs] at hp hs
  have hlen := h.len
  have hpl := hp.length_eq
  simp only [List.length_cons] at hpl
  have hN : nodes.length ≤ 510 := by omega
  have hnew : (BitVec.ofNat 9 nodes.length : NodeIx).toNat = nodes.length := by
    rw [BitVec.toNat_ofNat, Nat.mod_eq_of_lt]
    omega
  have hent : ∀ x ∈ a :: b :: rest, ∃ n, nodes[x.ix.toNat]? = some n ∧ n.weight = x.weight := fun x hx =>
    h.ent x (hp.mem_iff.1 hx)
  have hlt : ∀ x ∈ a :: b :: rest, x.ix.toNat < nodes.length := fun x hx => by
    obtain ⟨n, hn, -⟩ := hent x hx
    exact (List.getElem?_eq_some_iff.1 hn).1
  have hdist : (a :: b :: rest).Pairwise (fun x y => x.ix.toNat ≠ y.ix.toNat) := by
    refine hs.imp_of_mem ?_
    intro x y hx hy hxy e
    obtain ⟨n, hn, hnw⟩ := hent x hx
    obtain ⟨n', hn', hnw'⟩ := hent y hy
    rw [e, hn'] at hn
    cases hn
    rcases hxy with hl | ⟨-, hl⟩
    · rw [← hnw, ← hnw'] at hl
      omega
    · omega
  obtain ⟨na, hna, hwa⟩ := hent a (by simp)
  obtain ⟨nb, hnb, hwb⟩ := hent b (by simp)
  have hsum : a.weight.toNat + b.weight.toNat + (rest.map (fun x => x.weight.toNat)).sum =
      (order.map (fun b => (cnt b).toNat)).sum := by
    rw [← h.sum, ← (hp.map _).sum_eq]
    simp [Nat.add_assoc]
  have hadd : (a.weight + b.weight).toNat = a.weight.toNat + b.weight.toNat := by
    rw [BitVec.toNat_add, Nat.mod_eq_of_lt]
    omega
  have hstep : mergeStep nodes q = (nodes ++ [.internal (a.weight + b.weight) a.ix b.ix],
      rest ++ [⟨BitVec.ofNat 9 nodes.length, a.weight + b.weight⟩]) := by
    simp [mergeStep, hqs]
  have hlast : (nodes ++ [.internal (a.weight + b.weight) a.ix b.ix])[nodes.length]? =
      some (.internal (a.weight + b.weight) a.ix b.ix) := by simp
  rw [hstep]
  simp only
  have hqueue : ∀ x, InQueue nodes nodes.length x ↔ ∃ e ∈ a :: b :: rest, e.ix.toNat = x := fun x => by
    rw [h.queue]
    exact exists_congr fun e => and_congr_left' hp.mem_iff.symm
  have hbef : ∀ x ∈ a :: b :: rest, ∀ y ∈ a :: b :: rest, QBefore x y → Before nodes x.ix.toNat y.ix.toNat := by
    intro x hx y hy hxy
    obtain ⟨n, hn, hnw⟩ := hent x hx
    obtain ⟨n', hn', hnw'⟩ := hent y hy
    refine ⟨n, n', hn, hn', ?_⟩
    rw [hnw, hnw']
    exact hxy
  simp only [List.pairwise_cons, List.mem_cons, forall_eq_or_imp] at hs hdist
  obtain ⟨⟨hab, har⟩, hbr, hrr⟩ := hs
  obtain ⟨⟨dab, dar⟩, dbr, drr⟩ := hdist
  have hmerged : Merged nodes nodes.length (a.weight + b.weight) a.ix b.ix := by
    refine ⟨(hqueue _).2 ⟨a, by simp, rfl⟩, (hqueue _).2 ⟨b, by simp, rfl⟩, hbef a (by simp) b (by simp) hab, ?_, na, nb,
      hna, hnb, by rw [hadd, hwa, hwb]⟩
    intro x hx hxa hxb
    obtain ⟨e, he, rfl⟩ := (hqueue x).1 hx
    simp only [List.mem_cons] at he
    rcases he with rfl | rfl | he
    · exact absurd rfl hxa
    · exact absurd rfl hxb
    · exact hbef b (by simp) e (by simp [he]) (hbr e he)
  constructor
  · constructor
    · simp only [List.length_append, List.length_cons, List.length_nil]
      omega
    · intro x hx
      rcases List.mem_append.1 hx with hx | hx
      · obtain ⟨n, hn, hnw⟩ := hent x (by simp [hx])
        exact ⟨n, by rw [List.getElem?_append_left (hlt x (by simp [hx])), hn], hnw⟩
      · simp only [List.mem_singleton] at hx
        subst hx
        exact ⟨.internal (a.weight + b.weight) a.ix b.ix, by simp [hnew], rfl⟩
    · rw [Tied, List.pairwise_append]
      refine ⟨hrr.imp ?_, by simp, ?_⟩
      · rintro x y (hl | ⟨-, hl⟩) e
        · rw [e] at hl
          omega
        · exact hl
      · intro x hx y hy _
        simp only [List.mem_singleton] at hy
        subst hy
        simp only [hnew]
        exact hlt x (by simp [hx])
    · rw [List.map_append, List.sum_append]
      simp only [List.map_cons, List.map_nil, List.sum_cons, List.sum_nil, hadd]
      omega
    · intro x
      have hchild : ∀ n w l r, n < nodes.length → nodes[n]? = some (.internal w l r) →
          l.toNat < nodes.length ∧ r.toNat < nodes.length := by
        intro n w l r hn hw
        obtain ⟨h1, h2, -⟩ := h.merged n w l r hw
        have := h1.1
        have := h2.1
        omega
      have hiff : InQueue (nodes ++ [.internal (a.weight + b.weight) a.ix b.ix]) (nodes.length + 1) x ↔
          (x = nodes.length ∨ InQueue nodes nodes.length x) ∧ a.ix.toNat ≠ x ∧ b.ix.toNat ≠ x := by
        constructor
        · rintro ⟨hx, hall⟩
          refine ⟨?_, hall nodes.length _ _ _ (by omega) hlast⟩
          rcases Nat.lt_or_eq_of_le (Nat.le_of_lt_succ hx) with hl | he
          · refine .inr ⟨hl, fun n w l r hn hw => hall n w l r (by omega) ?_⟩
            rw [List.getElem?_append_left hn, hw]
          · exact .inl he
        · rintro ⟨hx, hab'⟩
          refine ⟨?_, ?_⟩
          · rcases hx with rfl | hx
            · omega
            · have := hx.1
              omega
          · intro n w l r hn hw
            rcases Nat.lt_or_eq_of_le (Nat.le_of_lt_succ hn) with hl | rfl
            · rw [List.getElem?_append_left hl] at hw
              rcases hx with rfl | hx
              · have := hchild n w l r hl hw
                omega
              · exact hx.2 n w l r hl hw
            · simp only [List.getElem?_concat_length, Option.some.injEq, Node.internal.injEq] at hw
              obtain ⟨-, rfl, rfl⟩ := hw
              exact hab'
      rw [List.length_append, List.length_singleton, hiff, hqueue]
      constructor
      · rintro ⟨rfl | ⟨e, he, rfl⟩, h1, h2⟩
        · exact ⟨⟨BitVec.ofNat 9 nodes.length, a.weight + b.weight⟩, by simp, hnew⟩
        · simp only [List.mem_cons] at he
          rcases he with rfl | rfl | he
          · exact absurd rfl h1
          · exact absurd rfl h2
          · exact ⟨e, by simp [he], rfl⟩
      · rintro ⟨e, he, rfl⟩
        rcases List.mem_append.1 he with he | he
        · exact ⟨.inr ⟨e, by simp [he], rfl⟩, dar e he, dbr e he⟩
        · simp only [List.mem_singleton] at he
          subst he
          simp only [hnew, true_or, true_and]
          have := hlt a (by simp)
          have := hlt b (by simp)
          omega
    · obtain ⟨T, X, hT, hX, hS⟩ := h.span
      let i : NodeIx := BitVec.ofNat 9 nodes.length
      have hne : ∀ x ∈ a :: b :: rest, x.ix ≠ i := fun x hx e => by
        have := hlt x hx
        rw [e, hnew] at this
        omega
      refine ⟨Function.update T i (.node (T a.ix) (T b.ix)), Function.update X i (i :: (X a.ix ++ X b.ix)), ?_, ?_, ?_⟩
      · intro x hx
        rcases List.mem_append.1 hx with hx | hx
        · rw [Function.update_of_ne (hne x (by simp [hx])), Function.update_of_ne (hne x (by simp [hx]))]
          exact (hT x (hp.mem_iff.1 (by simp [hx]))).append _
        · simp only [List.mem_singleton] at hx
          subst hx
          rw [Function.update_self, Function.update_self]
          exact ⟨_, a.ix, b.ix, _, _, by rw [hnew]; exact hlast, (hT a (hp.mem_iff.1 (by simp))).append _,
            (hT b (hp.mem_iff.1 (by simp))).append _, rfl⟩
      · have hrest : rest.flatMap (fun x => Function.update X i (i :: (X a.ix ++ X b.ix)) x.ix) =
            rest.flatMap (fun x => X x.ix) :=
          List.flatMap_congr fun x hx => Function.update_of_ne (hne x (by simp [hx])) ..
        have hX' := (hp.flatMap_right (fun x => X x.ix)).trans hX
        simp only [List.flatMap_cons] at hX'
        rw [List.flatMap_append, hrest, List.length_append, List.length_singleton, List.range_succ, List.map_append]
        simp only [List.flatMap_cons, List.flatMap_nil, List.append_nil, List.map_cons, List.map_nil]
        rw [show (BitVec.ofNat 9 nodes.length : NodeIx) = i from rfl, Function.update_self]
        refine List.Perm.trans ?_ (hX'.append_right [i])
        rw [← Multiset.coe_eq_coe]
        simp only [← Multiset.coe_add, ← Multiset.cons_coe, ← Multiset.singleton_add]
        simp only [Multiset.coe_nil, add_zero]
        abel
      · have hrest : rest.flatMap (fun x => Tree.symbols (Function.update T i (.node (T a.ix) (T b.ix)) x.ix)) =
            rest.flatMap (fun x => Tree.symbols (T x.ix)) :=
          List.flatMap_congr fun x hx => by rw [Function.update_of_ne (hne x (by simp [hx]))]
        have hS' := (hp.flatMap_right (fun x => Tree.symbols (T x.ix))).trans hS
        simp only [List.flatMap_cons] at hS'
        rw [List.flatMap_append, hrest]
        simp only [List.flatMap_cons, List.flatMap_nil, List.append_nil]
        rw [show (BitVec.ofNat 9 nodes.length : NodeIx) = i from rfl, Function.update_self]
        refine List.Perm.trans ?_ hS'
        simp only [Tree.symbols]
        rw [← Multiset.coe_eq_coe]
        simp only [← Multiset.coe_add]
        abel
    · intro j c hj
      rw [List.getElem?_append_left, h.leaf j c hj]
      exact (List.getElem?_eq_some_iff.1 (h.leaf j c hj)).1
    · intro m n hm hk
      rcases Nat.lt_or_ge m nodes.length with hl | hl
      · rw [List.getElem?_append_left hl] at hm
        exact h.inner m n hm hk
      · have := (List.getElem?_eq_some_iff.1 hm).1
        simp only [List.length_append, List.length_singleton] at this
        obtain rfl : m = nodes.length := by omega
        simp only [List.getElem?_concat_length, Option.some.injEq] at hm
        exact ⟨_, _, _, hm.symm⟩
    · intro m w l r hm
      rcases Nat.lt_or_ge m nodes.length with hl | hl
      · rw [List.getElem?_append_left hl] at hm
        exact (h.merged m w l r hm).append (by omega) _
      · have := (List.getElem?_eq_some_iff.1 hm).1
        simp only [List.length_append, List.length_singleton] at this
        obtain rfl : m = nodes.length := by omega
        simp only [List.getElem?_concat_length, Option.some.injEq, Node.internal.injEq] at hm
        obtain ⟨rfl, rfl, rfl⟩ := hm
        exact hmerged.append (le_refl _) _
  · simp only [List.length_append, List.length_singleton]
    omega

/-- All merge steps. -/
theorem Merging.steps {nodes : List Node} {q : List QEntry} (h : Merging order cnt nodes q)
    (hk : order.length ≤ 256) (ht : (order.map (fun b => (cnt b).toNat)).sum < 2 ^ 32) {n : Nat}
    (hq : n + 1 = q.length) :
    Merging order cnt (mergeSteps n nodes q).1 (mergeSteps n nodes q).2 ∧ (mergeSteps n nodes q).2.length = 1 := by
  induction n generalizing nodes q with
  | zero => exact ⟨h, by simpa [mergeSteps] using hq.symm⟩
  | succ n ih =>
    obtain ⟨h1, h2⟩ := h.step hk ht (by omega)
    exact ih h1 (by omega)

theorem Merging.seeds {s : State} (hk : s.freqOrder.length ≤ 256) :
    Merging s.freqOrder (countOf s) (seedNodes s) (seedQueue s) := by
  have hnl : (seedNodes s).length = s.freqOrder.length := by simp [seedNodes]
  have hql : (seedQueue s).length = s.freqOrder.length := by simp [seedQueue]
  have hq : ∀ (j : Nat) b, s.freqOrder[j]? = some b →
      (seedQueue s)[j]? = some ⟨BitVec.ofNat 9 j, countOf s b⟩ := fun j b hj => by simp [seedQueue, hj]
  have hn : ∀ (j : Nat) b, s.freqOrder[j]? = some b → (seedNodes s)[j]? = some (.leaf b (countOf s b)) :=
    fun j b hj => by simp [seedNodes, hj]
  have hleaf : ∀ (m : Nat) w l r, (seedNodes s)[m]? ≠ some (.internal w l r) := fun m w l r e => by
    simp only [seedNodes, List.getElem?_map, Option.map_eq_some_iff] at e
    obtain ⟨b, -, e⟩ := e
    cases e
  have hmem : ∀ x ∈ seedQueue s, ∃ (j : Nat) (b : Byte), s.freqOrder[j]? = some b ∧ x = ⟨BitVec.ofNat 9 j, countOf s b⟩ ∧
      (BitVec.ofNat 9 j : NodeIx).toNat = j := fun x hx => by
    simp only [seedQueue, List.mem_map, Prod.exists] at hx
    obtain ⟨b, j, hj, rfl⟩ := hx
    rw [List.mem_zipIdx_iff_getElem?] at hj
    have := (List.getElem?_eq_some_iff.1 hj).1
    simp only at this
    refine ⟨j, b, hj, rfl, ?_⟩
    rw [BitVec.toNat_ofNat, Nat.mod_eq_of_lt]
    omega
  constructor
  · omega
  · intro x hx
    obtain ⟨j, b, hj, rfl, ht⟩ := hmem x hx
    exact ⟨_, by rw [ht]; exact hn j b hj, rfl⟩
  · rw [Tied, List.pairwise_iff_getElem]
    intro i j hi hj hij _
    have h1 : i < s.freqOrder.length := by omega
    have h2 : j < s.freqOrder.length := by omega
    simp only [seedQueue, List.getElem_map, List.getElem_zipIdx, Nat.zero_add, BitVec.toNat_ofNat]
    rw [Nat.mod_eq_of_lt (by omega), Nat.mod_eq_of_lt (by omega)]
    exact hij
  · congr 1
    apply List.ext_getElem
    · simp [seedQueue]
    · intro i h1 h2
      simp [seedQueue]
  · intro x
    constructor
    · rintro ⟨hx, -⟩
      rw [hnl] at hx
      refine ⟨⟨BitVec.ofNat 9 x, countOf s s.freqOrder[x]⟩, List.mem_of_getElem? (hq x _ (by simp [hx])), ?_⟩
      simp only
      rw [BitVec.toNat_ofNat, Nat.mod_eq_of_lt]
      omega
    · rintro ⟨e, he, rfl⟩
      obtain ⟨j, b, hj, rfl, ht⟩ := hmem e he
      have := (List.getElem?_eq_some_iff.1 hj).1
      exact ⟨by simp only [ht]; omega, fun n w l r _ hw => absurd hw (hleaf n w l r)⟩
  · refine ⟨fun i => .leaf ((s.freqOrder[i.toNat]?).getD 0), fun i => [i], ?_, ?_, ?_⟩
    · intro x hx
      obtain ⟨j, b, hj, rfl, ht⟩ := hmem x hx
      exact ⟨⟨countOf s b, by simp only [ht, hj, Option.getD_some]; exact hn j b hj⟩, rfl⟩
    · rw [show (seedQueue s).flatMap (fun x => [x.ix]) = (seedQueue s).map QEntry.ix from (List.map_eq_flatMap ..).symm]
      refine List.Perm.of_eq ?_
      apply List.ext_getElem
      · simp [seedQueue, seedNodes]
      · intro i h1 h2
        simp [seedQueue]
    · refine List.Perm.of_eq ?_
      rw [show (seedQueue s).flatMap (fun x => Tree.symbols (.leaf ((s.freqOrder[x.ix.toNat]?).getD 0))) =
        (seedQueue s).map (fun x => (s.freqOrder[x.ix.toNat]?).getD 0) from (List.map_eq_flatMap ..).symm]
      apply List.ext_getElem
      · simp [seedQueue]
      · intro i h1 h2
        simp only [seedQueue, List.map_map, List.getElem_map, List.getElem_zipIdx, Function.comp_apply, Nat.zero_add,
          BitVec.toNat_ofNat]
        rw [Nat.mod_eq_of_lt (by omega)]
        simp [h2]
  · exact hn
  · intro m n hm hk
    have := (List.getElem?_eq_some_iff.1 hm).1
    omega
  · exact fun m w l r hm => absurd hm (hleaf m w l r)

theorem FreqOk.length_le {s : State} (h : FreqOk s) : s.freqOrder.length ≤ 256 := by
  have hnd : (s.freqOrder.map BitVec.toNat).Nodup := h.1.map fun x y e => BitVec.eq_of_toNat_eq e
  have hsub : s.freqOrder.map BitVec.toNat ⊆ List.range 256 := fun n hn => by
    obtain ⟨b, -, rfl⟩ := List.mem_map.1 hn
    exact List.mem_range.2 b.isLt
  simpa using (hnd.subperm hsub).length_le

/-- The body of `TB.BUILD` for a nonempty table (41_tree_builder.md R120, R126): a tree that spans the arena, whose
symbols are the table's, and what each node is. -/
theorem buildBody_spec {s : State} (h : FreqOk s) (hne : s.freqOrder ≠ []) :
    ∃ u t xs e, buildBody s = .ok u ∧ u = { s with nodes := u.nodes, root := some e.ix } ∧
      Merging s.freqOrder (countOf s) u.nodes [e] ∧ u.nodes.length + 1 = 2 * s.freqOrder.length ∧
      Spans u.nodes t e.ix xs ∧ xs.Perm ((List.range u.nodes.length).map (BitVec.ofNat 9)) ∧
      (Tree.symbols t).Perm s.freqOrder := by
  have hk := h.length_le
  have hpos : 0 < s.freqOrder.length := List.length_pos_iff.2 hne
  have hcap := s.cfg.inCap.property
  have hsum := h.2.2
  obtain ⟨hm, hl⟩ := (Merging.seeds hk).steps hk (by omega) (n := s.freqOrder.length - 1) (by simp [seedQueue]; omega)
  obtain ⟨e, he⟩ := List.length_eq_one_iff.1 hl
  rw [he] at hm
  obtain ⟨T, X, hT, hX, hS⟩ := hm.span
  refine ⟨{ s with
      nodes := (mergeSteps (s.freqOrder.length - 1) (seedNodes s) (seedQueue s)).1, root := some e.ix },
    T e.ix, X e.ix, e, ?_, rfl, hm, ?_, hT e (by simp), by simpa using hX, by simpa using hS⟩
  · rw [buildBody, if_neg (by unfold Config.alphabetMax; omega)]
    simp [he]
  · have := hm.len
    simpa using this

/-- The body of `TB.BUILD` for an empty table. -/
theorem buildBody_nil {s : State} (h : s.freqOrder = []) : buildBody s = .ok { s with nodes := [], root := none } := by
  simp [buildBody, h, mergeSteps, seedNodes, seedQueue]

/-- The distinct indices of a tree that spans the arena. -/
theorem nodup_of_perm_range {xs : List NodeIx} {n : Nat} (hn : n ≤ 511)
    (h : xs.Perm ((List.range n).map (BitVec.ofNat 9))) : xs.Nodup := by
  rw [h.nodup_iff]
  refine List.Nodup.map_on ?_ List.nodup_range
  intro x hx y hy hxy
  have := congrArg BitVec.toNat hxy
  simp only [List.mem_range] at hx hy
  rw [BitVec.toNat_ofNat, BitVec.toNat_ofNat, Nat.mod_eq_of_lt (by omega), Nat.mod_eq_of_lt (by omega)] at this
  exact this

/-- The arena `TB.BUILD` leaves is legal, and its root denotes a tree with the table's symbols (41_tree_builder.md
R126). -/
theorem buildBody_arena {s : State} (h : FreqOk s) :
    ∃ u, buildBody s = .ok u ∧ u = { s with nodes := u.nodes, root := u.root } ∧ ArenaOk u ∧
      (s.freqOrder = [] → u.nodes = [] ∧ u.root = none) ∧
      (s.freqOrder ≠ [] → ∃ t, Denotes u t ∧ (Tree.symbols t).Perm s.freqOrder) := by
  by_cases hne : s.freqOrder = []
  · exact ⟨_, buildBody_nil hne, rfl, arenaOk_none rfl rfl, fun _ => ⟨rfl, rfl⟩, fun h => absurd hne h⟩
  · obtain ⟨u, t, xs, e, hb, hu, -, hlen, hsp, hxs, hS⟩ := buildBody_spec h hne
    have hk := h.length_le
    have hr : u.root = some e.ix := by rw [hu]
    have hsz : Tree.size t = u.nodes.length := by simpa using hsp.length.symm.trans hxs.length_eq
    have hlv : Tree.levels t ≤ 256 := by
      have h1 := Tree.levels_le_leaves t
      have h2 := Tree.symbols_length t
      have h3 := hS.length_eq
      omega
    refine ⟨u, hb, by rw [hr]; exact hu, hsp.arenaOk hr (nodup_of_perm_range (by omega) hxs) hsz hlv (by omega),
      fun h => absurd h hne, fun _ => ⟨t, hsp.denotes hr (hsz ▸ Tree.levels_le_size t), hS⟩⟩

end Sys2Proof.Machine
end

