-- ==== Sys2Proof/Laws/Reader.lean ====
section
/-! SUPPORT. The bit reader and the two things that read a tree with it (43_bit_writer_reader.md R153,
44_tree_codec.md R170, 45_encoder_decoder_datapath.md R188): when a read succeeds, what it gives, and what it leaves
alone. -/

namespace Sys2Proof.Machine

/-- `ReadBits(n)` in its three cases; the third is in no state that keeps `IN_LEN ≤ IN_CAP`. -/
theorem readBits_cases (n : Nat) (s : State) :
    (8 * s.inLen.toNat < s.rpos.toNat + n ∧ readBits n s = .error (.raise .streamUnderrun)) ∨
      (s.rpos.toNat + n ≤ 8 * s.inLen.toNat ∧ s.rpos.toNat + n ≤ 8 * s.cfg.inCap.val ∧
        readBits n s = .ok (BitVec.ofNat n (numOf (inBits s s.rpos.toNat n)), advance n s)) ∨
      (s.rpos.toNat + n ≤ 8 * s.inLen.toNat ∧ 8 * s.cfg.inCap.val < s.rpos.toNat + n ∧
        readBits n s = .error (.stop .ibufAddress)) := by
  unfold readBits
  split
  · next h => exact .inl ⟨h, rfl⟩
  · next h =>
    split
    · next h2 => exact .inr (.inr ⟨by omega, h2, rfl⟩)
    · next h2 => exact .inr (.inl ⟨by omega, by omega, rfl⟩)

theorem readBits_of_room {n : Nat} {s : State} (hi : InputOk s) (h : s.rpos.toNat + n ≤ 8 * s.inLen.toNat) :
    readBits n s = .ok (BitVec.ofNat n (numOf (inBits s s.rpos.toNat n)), advance n s) := by
  unfold InputOk at hi
  rcases readBits_cases n s with ⟨h', -⟩ | ⟨-, -, h'⟩ | ⟨-, h', -⟩
  · omega
  · exact h'
  · omega

theorem readBits_of_underrun {n : Nat} {s : State} (h : 8 * s.inLen.toNat < s.rpos.toNat + n) :
    readBits n s = .error (.raise .streamUnderrun) := by
  rcases readBits_cases n s with ⟨-, h'⟩ | ⟨h', -⟩ | ⟨h', -⟩
  · exact h'
  · omega
  · omega

/-- A successful read changes `RPOS` alone, which does not wrap. -/
theorem readBits_ok {n : Nat} {s t : State} {v : BitVec n} (h : readBits n s = .ok (v, t)) :
    t = advance n s ∧ v = BitVec.ofNat n (numOf (inBits s s.rpos.toNat n)) ∧
      s.rpos.toNat + n ≤ 8 * s.inLen.toNat ∧ s.rpos.toNat + n ≤ 8 * s.cfg.inCap.val := by
  rcases readBits_cases n s with ⟨-, h'⟩ | ⟨h1, h2, h'⟩ | ⟨-, -, h'⟩
  · rw [h'] at h
    cases h
  · rw [h'] at h
    cases h
    exact ⟨rfl, rfl, h1, h2⟩
  · rw [h'] at h
    cases h

theorem advance_rpos_toNat {n : Nat} {s : State} (h : s.rpos.toNat + n ≤ 8 * s.cfg.inCap.val) :
    (advance n s).rpos.toNat = s.rpos.toNat + n := by
  have := s.cfg.inCap.property
  rw [advance_rpos, BitVec.toNat_ofNat, Nat.mod_eq_of_lt]
  omega

@[simp] theorem advance_zero (s : State) : advance 0 s = s := by
  simp [advance]

theorem advance_advance {m n : Nat} {s : State} (h : s.rpos.toNat + m ≤ 8 * s.cfg.inCap.val) :
    advance n (advance m s) = advance (m + n) s := by
  unfold advance
  have := advance_rpos_toNat h
  rw [advance_rpos] at this
  simp only [this, Nat.add_assoc]

@[simp] theorem inBit_advance (n : Nat) (s : State) (p : Nat) : inBit (advance n s) p = inBit s p := rfl

@[simp] theorem inBits_advance (n : Nat) (s : State) (p k : Nat) : inBits (advance n s) p k = inBits s p k := rfl

/-- The bit a one-bit read gives. -/
theorem readBits_one {s : State} {q : Bits} {b : Bool} (hi : InputOk s) (h : BitsAt s s.rpos.toNat (b :: q)) :
    readBits 1 s = .ok (BitVec.ofBool b, advance 1 s) := by
  obtain ⟨hr, hq⟩ := h
  rw [List.length_cons] at hr
  rw [readBits_of_room hi (by omega)]
  have : inBits s s.rpos.toNat 1 = [b] := by
    have := hq
    rw [List.length_cons, Nat.add_comm, inBits_append] at this
    exact List.append_inj_left (t₁ := _) (t₂ := q) this (by simp)
  rw [this]
  cases b <;> rfl

/-- The value a read of several bits gives. -/
theorem readBits_bits {s : State} {q r : Bits} (hi : InputOk s) (h : BitsAt s s.rpos.toNat (q ++ r)) :
    readBits q.length s = .ok (BitVec.ofNat q.length (numOf q), advance q.length s) := by
  obtain ⟨hr, hq⟩ := h
  rw [List.length_append] at hr
  rw [readBits_of_room hi (by omega)]
  rw [List.length_append, inBits_append] at hq
  have := List.append_inj_left hq (by simp)
  rw [this]

/-- A read gives back a value whose bits stand there. -/
theorem readBits_value {n : Nat} {s : State} {v : BitVec n} {r : Bits} (hi : InputOk s)
    (h : BitsAt s s.rpos.toNat (bitsOf v ++ r)) : readBits n s = .ok (v, advance n s) := by
  obtain ⟨hr, hq⟩ := h
  rw [List.length_append, bitsOf_length] at hr hq
  rw [readBits_of_room hi (by omega)]
  rw [inBits_append] at hq
  rw [List.append_inj_left hq (by simp), numOf_bitsOf, BitVec.ofNat_toNat, BitVec.setWidth_eq]

/-- What stands behind the bits a read has consumed. -/
theorem bitsAt_advance {s : State} {q r : Bits} (hi : InputOk s) (h : BitsAt s s.rpos.toNat (q ++ r)) :
    BitsAt (advance q.length s) (advance q.length s).rpos.toNat r := by
  obtain ⟨hr, hq⟩ := h
  unfold InputOk at hi
  rw [List.length_append] at hr
  rw [advance_rpos_toNat (by omega)]
  refine ⟨by rw [advance_inLen]; omega, ?_⟩
  rw [List.length_append, inBits_append] at hq
  exact List.append_inj_right hq (by simp)

theorem inputOk_advance {n : Nat} {s : State} (h : InputOk s) : InputOk (advance n s) := h

/-- A reading command whose read succeeds. -/
theorem readResult_ok {n : Nat} {s u : State} {v : BitVec n} (h : readBits n s = .ok (v, u)) :
    readResult n s = .next (setErr .ok (deliver v u)) := by
  rw [readResult, h]
  rfl

/-- A reading command that runs out of bits. -/
theorem readResult_of_underrun {n : Nat} {s : State} (h : 8 * s.inLen.toNat < s.rpos.toNat + n) :
    readResult n s = .next (setErr .streamUnderrun s) := by
  rw [readResult, readBits_of_underrun h]
  rfl

/-! ## Descent -/

/-- A descent along a leaf's path gives that leaf's symbol and consumes the path (45_encoder_decoder_datapath.md
R188). A tree that is one leaf reads no bit, wherever `RPOS` stands. -/
theorem descend_path {t : Tree} {b : Byte} {q r : Bits} {s : State} (hp : (b, q) ∈ Tree.paths t) (hi : InputOk s)
    (h : q = [] ∨ BitsAt s s.rpos.toNat (q ++ r)) : descend t s = .ok (b, advance q.length s) := by
  induction t generalizing q s with
  | leaf c =>
    simp only [Tree.paths, List.mem_singleton, Prod.mk.injEq] at hp
    obtain ⟨rfl, rfl⟩ := hp
    simp [descend]
  | node l r ihl ihr =>
    simp only [Tree.paths, List.mem_append, List.mem_map, Prod.mk.injEq] at hp
    rcases hp with ⟨⟨c, p⟩, hp, rfl, rfl⟩ | ⟨⟨c, p⟩, hp, rfl, rfl⟩
    · have h := h.resolve_left (by simp)
      have h1 := readBits_one hi h
      have h2 : BitsAt (advance 1 s) (advance 1 s).rpos.toNat (p ++ _) := bitsAt_advance (q := [false]) hi h
      have := ihl hp (inputOk_advance hi) (.inr h2)
      simp only [descend, h1, bind, Except.bind]
      rw [if_pos (by decide), this, advance_advance]
      · simp [Nat.add_comm]
      · have := h.1
        unfold InputOk at hi
        simp only [List.cons_append, List.length_cons] at this
        omega
    · have h := h.resolve_left (by simp)
      have h1 := readBits_one hi h
      have h2 : BitsAt (advance 1 s) (advance 1 s).rpos.toNat (p ++ _) := bitsAt_advance (q := [true]) hi h
      have := ihr hp (inputOk_advance hi) (.inr h2)
      simp only [descend, h1, bind, Except.bind]
      rw [if_neg (by decide), this, advance_advance]
      · simp [Nat.add_comm]
      · have := h.1
        unfold InputOk at hi
        simp only [List.cons_append, List.length_cons] at this
        omega

/-- A descent changes `RPOS` alone. -/
theorem descend_frame {t : Tree} {s u : State} {b : Byte} (h : descend t s = .ok (b, u)) :
    u = { s with rpos := u.rpos } := by
  induction t generalizing s with
  | leaf c =>
    simp only [descend, Except.ok.injEq, Prod.mk.injEq] at h
    rw [← h.2]
  | node l r ihl ihr =>
    simp only [descend, bind, Except.bind] at h
    split at h
    · cases h
    · next v hv =>
      obtain ⟨v, s'⟩ := v
      obtain ⟨rfl, -⟩ := readBits_ok hv
      split at h
      · have := ihl h
        exact this
      · have := ihr h
        exact this

/-! ## The parser -/

theorem allocNode_ok {n : Node} {s t : State} {i : NodeIx} (h : allocNode n s = .ok (i, t)) :
    s.nodes.length < Config.nodeCap ∧ i = BitVec.ofNat 9 s.nodes.length ∧ t = { s with nodes := s.nodes ++ [n] } := by
  unfold allocNode at h
  split at h
  · next hl =>
    cases h
    exact ⟨hl, rfl, rfl⟩
  · cases h

/-- The parser changes `RPOS` and the arena alone. -/
theorem parse_frame {levels : Nat} {s u : State} {r : Option NodeIx} (h : parse levels s = .ok (r, u)) :
    u = { s with rpos := u.rpos, nodes := u.nodes } := by
  induction levels generalizing s u r with
  | zero => cases h
  | succ levels ih =>
    simp only [parse, bind, Except.bind, pure, Except.pure] at h
    split at h
    · cases h
    · next e he =>
      obtain ⟨h1, -⟩ := readBits_ok (v := e.1) (t := e.2) he
      split at h
      · cases h
        rw [h1]
        rfl
      · split at h
        · cases h
        · next k hk =>
          obtain ⟨h2, -⟩ := readBits_ok (v := k.1) (t := k.2) hk
          split at h
          · split at h
            · cases h
            · next v hv =>
              obtain ⟨h3, -⟩ := readBits_ok (v := v.1) (t := v.2) hv
              split at h
              · cases h
              · next a ha =>
                obtain ⟨-, -, h4⟩ := allocNode_ok (i := a.1) (t := a.2) ha
                cases h
                rw [h4, h3, h2, h1]
                rfl
          · split at h
            · cases h
            · next a ha =>
              obtain ⟨-, -, h4⟩ := allocNode_ok (i := a.1) (t := a.2) ha
              split at h
              · cases h
              · next x hx =>
                split at h
                · cases h
                · have h5 := ih hx
                  split at h
                  · cases h
                  · next y hy =>
                    split at h
                    · cases h
                    · have h6 := ih hy
                      cases h
                      simp only [setNode]
                      rw [h6, h5, h4, h2, h1]
                      rfl

end Sys2Proof.Machine
end

