-- ==== Sys2Proof/Laws/Writer.lean ====
section
/-! SUPPORT. The bit writer (43_bit_writer_reader.md R145, R147, R151): what appending does to the bit string written
so far, what it leaves alone, and when it fails. -/

namespace Sys2Proof.Machine

/-! ## One bit -/

/-- `PutBit1` in its two cases. -/
theorem putBit1_cases (s : State) (b : Bool) :
    (s.wcnt = 7 ∧ putBit1 s b = storeByte (accWith b s) s) ∨
      (s.wcnt ≠ 7 ∧ putBit1 s b = { s with wacc := accWith b s, wcnt := s.wcnt + 1 }) := by
  unfold putBit1
  split
  · next h => exact .inl ⟨h, rfl⟩
  · next h => exact .inr ⟨h, rfl⟩

/-- Appending a bit touches the writer alone. -/
theorem putBit1_frame (s : State) (b : Bool) :
    ∃ o n a c, putBit1 s b = { s with obuf := o, outLen := n, wacc := a, wcnt := c } := by
  rcases putBit1_cases s b with ⟨-, h⟩ | ⟨-, h⟩
  · exact ⟨_, _, _, _, h⟩
  · exact ⟨_, _, _, _, h⟩

/-- Appending a bit sequence touches the writer alone. -/
theorem foldl_putBit1_frame (q : Bits) (s : State) :
    ∃ o n a c, q.foldl putBit1 s = { s with obuf := o, outLen := n, wacc := a, wcnt := c } := by
  induction q generalizing s with
  | nil => exact ⟨_, _, _, _, rfl⟩
  | cons b q ih =>
    obtain ⟨o, n, a, c, h⟩ := putBit1_frame s b
    obtain ⟨o', n', a', c', h'⟩ := ih (putBit1 s b)
    exact ⟨o', n', a', c', by rw [List.foldl_cons, h', h]⟩

@[simp] theorem foldl_putBit1_err (q : Bits) (s : State) : (q.foldl putBit1 s).err = s.err := by
  obtain ⟨_, _, _, _, h⟩ := foldl_putBit1_frame q s
  rw [h]

@[simp] theorem foldl_putBit1_result (q : Bits) (s : State) : (q.foldl putBit1 s).result = s.result := by
  obtain ⟨_, _, _, _, h⟩ := foldl_putBit1_frame q s
  rw [h]

@[simp] theorem foldl_putBit1_inLen (q : Bits) (s : State) : (q.foldl putBit1 s).inLen = s.inLen := by
  obtain ⟨_, _, _, _, h⟩ := foldl_putBit1_frame q s
  rw [h]

@[simp] theorem foldl_putBit1_rpos (q : Bits) (s : State) : (q.foldl putBit1 s).rpos = s.rpos := by
  obtain ⟨_, _, _, _, h⟩ := foldl_putBit1_frame q s
  rw [h]

@[simp] theorem foldl_putBit1_root (q : Bits) (s : State) : (q.foldl putBit1 s).root = s.root := by
  obtain ⟨_, _, _, _, h⟩ := foldl_putBit1_frame q s
  rw [h]

@[simp] theorem foldl_putBit1_ibuf (q : Bits) (s : State) : (q.foldl putBit1 s).ibuf = s.ibuf := by
  obtain ⟨_, _, _, _, h⟩ := foldl_putBit1_frame q s
  rw [h]

@[simp] theorem foldl_putBit1_freqCount (q : Bits) (s : State) : (q.foldl putBit1 s).freqCount = s.freqCount := by
  obtain ⟨_, _, _, _, h⟩ := foldl_putBit1_frame q s
  rw [h]

@[simp] theorem foldl_putBit1_freqOrder (q : Bits) (s : State) : (q.foldl putBit1 s).freqOrder = s.freqOrder := by
  obtain ⟨_, _, _, _, h⟩ := foldl_putBit1_frame q s
  rw [h]

@[simp] theorem foldl_putBit1_nodes (q : Bits) (s : State) : (q.foldl putBit1 s).nodes = s.nodes := by
  obtain ⟨_, _, _, _, h⟩ := foldl_putBit1_frame q s
  rw [h]

@[simp] theorem foldl_putBit1_code (q : Bits) (s : State) : (q.foldl putBit1 s).code = s.code := by
  obtain ⟨_, _, _, _, h⟩ := foldl_putBit1_frame q s
  rw [h]

@[simp] theorem foldl_putBit1_cfg (q : Bits) (s : State) : (q.foldl putBit1 s).cfg = s.cfg := by
  obtain ⟨_, _, _, _, h⟩ := foldl_putBit1_frame q s
  rw [h]

@[simp] theorem foldl_putBit1_hostQueue (q : Bits) (s : State) : (q.foldl putBit1 s).hostQueue = s.hostQueue := by
  obtain ⟨_, _, _, _, h⟩ := foldl_putBit1_frame q s
  rw [h]

@[simp] theorem foldl_putBit1_lastRead (q : Bits) (s : State) : (q.foldl putBit1 s).lastRead = s.lastRead := by
  obtain ⟨_, _, _, _, h⟩ := foldl_putBit1_frame q s
  rw [h]

@[simp] theorem foldl_putBit1_resets (q : Bits) (s : State) : (q.foldl putBit1 s).resets = s.resets := by
  obtain ⟨_, _, _, _, h⟩ := foldl_putBit1_frame q s
  rw [h]

@[simp] theorem writeCap_foldl_putBit1 (q : Bits) (s : State) : writeCap (q.foldl putBit1 s) = writeCap s := by
  simp [writeCap]

theorem writeCap_putBit1 (s : State) (b : Bool) : writeCap (putBit1 s b) = writeCap s :=
  writeCap_foldl_putBit1 [b] s

/-- The bits of the accumulator with one more bit in place `WCNT`. -/
theorem getLsbD_accWith (b : Bool) (s : State) (k : Nat) (hk : k < 8) :
    (accWith b s).getLsbD k = (s.wacc.getLsbD k || (decide (k = 7 - s.wcnt.toNat) && b)) := by
  have hw : s.wcnt.toNat < 8 := s.wcnt.isLt
  unfold accWith
  simp only [BitVec.getLsbD_or, BitVec.getLsbD_shiftLeft, BitVec.getLsbD_setWidth, BitVec.getLsbD_ofBool, hk,
    decide_true, Bool.true_and]
  congr 1
  by_cases h : k = 7 - s.wcnt.toNat
  · subst h
    simp
  · by_cases h2 : k < 7 - s.wcnt.toNat
    · simp [h, h2]
    · have : ¬(k - (7 - s.wcnt.toNat) = 0) := by omega
      simp [h, this]

/-- The partial byte's bits after one more bit. -/
theorem take_bitsOf_accWith (b : Bool) (s : State) (hz : ∀ k, k < 8 - s.wcnt.toNat → s.wacc.getLsbD k = false) :
    (bitsOf (accWith b s)).take (s.wcnt.toNat + 1) = (bitsOf s.wacc).take s.wcnt.toNat ++ [b] := by
  have hw : s.wcnt.toNat < 8 := s.wcnt.isLt
  apply List.ext_getElem
  · simp
    omega
  · intro k h1 h2
    simp only [List.length_take, bitsOf_length] at h1
    rw [List.getElem_take, bitsOf_getElem, getLsbD_accWith b s _ (by omega)]
    rw [List.getElem_append]
    split
    · next h =>
      simp only [List.length_take, bitsOf_length] at h
      rw [List.getElem_take, bitsOf_getElem]
      have : ¬(8 - 1 - k = 7 - s.wcnt.toNat) := by omega
      simp [this]
    · next h =>
      simp only [List.length_take, bitsOf_length] at h
      have hk : k = s.wcnt.toNat := by omega
      subst hk
      simp [hz (8 - 1 - s.wcnt.toNat) (by omega)]

theorem outLen_lt_of_room {s : State} {n : Nat} (h : writePos s + n ≤ writeCap s) (hn : 0 < n) :
    s.outLen.toNat < s.cfg.outCap.val ∧ s.outLen.toNat + 1 < 2 ^ 32 := by
  have := s.cfg.outCap.property
  unfold writePos writeCap at h
  omega

theorem storeByte_outLen_toNat {s : State} (v : Byte) (h : s.outLen.toNat + 1 < 2 ^ 32) :
    (storeByte v s).outLen.toNat = s.outLen.toNat + 1 := by
  simp only [storeByte_outLen, BitVec.toNat_add]
  rw [Nat.mod_eq_of_lt]
  · simp
  · simpa using h

theorem flatMap_obuf_congr (m m' : Memory) (n : Nat) (h : ∀ i, i < n → m'.read i = m.read i) :
    (List.range n).flatMap (fun i => bitsOf ((m'.read i).getD 0)) =
      (List.range n).flatMap (fun i => bitsOf ((m.read i).getD 0)) := by
  induction n with
  | zero => rfl
  | succ n ih =>
    rw [List.range_succ, List.flatMap_append, List.flatMap_append, ih (fun i hi => h i (by omega))]
    simp [h n (by omega)]

/-- What storing a whole byte does to the bit string: the partial byte becomes the byte `v`. -/
theorem writtenBits_storeByte {s : State} (v : Byte) (h : s.outLen.toNat + 1 < 2 ^ 32) :
    writtenBits (storeByte v s) =
      (List.range s.outLen.toNat).flatMap (fun i => bitsOf ((s.obuf.read i).getD 0)) ++ bitsOf v := by
  unfold writtenBits
  rw [storeByte_outLen_toNat v h, List.range_succ, List.flatMap_append]
  rw [flatMap_obuf_congr s.obuf (storeByte v s).obuf s.outLen.toNat]
  · simp
  · intro i hi
    rw [storeByte_obuf]
    exact Memory.read_write_other _ _ _ _ (by omega)

/-- Appending one bit, with room for it (43_bit_writer_reader.md R145, R147). -/
theorem putBit1_spec {s : State} (b : Bool) (hw : WriterOk s) (room : writePos s + 1 ≤ writeCap s) :
    writtenBits (putBit1 s b) = writtenBits s ++ [b] ∧ writePos (putBit1 s b) = writePos s + 1 ∧
      WriterOk (putBit1 s b) ∧ s.outLen.toNat ≤ (putBit1 s b).outLen.toNat ∧
      ObufSameOutside s (putBit1 s b) s.outLen.toNat (putBit1 s b).outLen.toNat := by
  have hc := s.wcnt.isLt
  obtain ⟨hlt, hwrap⟩ := outLen_lt_of_room room (by omega)
  rcases putBit1_cases s b with ⟨h7, h⟩ | ⟨h7, h⟩
  · have h7n : s.wcnt.toNat = 7 := by rw [h7]; rfl
    have hp : writePos (storeByte (accWith b s) s) = writePos s + 1 := by
      unfold writePos
      rw [storeByte_outLen_toNat _ hwrap]
      simp [h7n]
      omega
    rw [h]
    refine ⟨?_, hp, ⟨?_, ?_⟩, ?_, ?_⟩
    · rw [writtenBits_storeByte _ hwrap]
      have := take_bitsOf_accWith b s hw.2
      rw [h7n, List.take_of_length_le (by simp)] at this
      rw [this]
      unfold writtenBits
      rw [h7n, List.append_assoc]
    · rw [hp]
      simpa [writeCap] using room
    · simp
    · rw [storeByte_outLen_toNat _ hwrap]
      omega
    · intro i hi
      rw [storeByte_outLen_toNat _ hwrap] at hi
      rw [storeByte_obuf]
      exact Memory.read_write_other _ _ _ _ (by omega)
  · have h7n : s.wcnt.toNat ≠ 7 := fun e => h7 (BitVec.eq_of_toNat_eq (by simpa using e))
    have hs : (s.wcnt + 1).toNat = s.wcnt.toNat + 1 := by
      rw [BitVec.toNat_add, Nat.mod_eq_of_lt] <;> simp
      omega
    rw [h]
    refine ⟨?_, ?_, ⟨?_, ?_⟩, ?_, ?_⟩
    · unfold writtenBits
      simp only [hs]
      rw [take_bitsOf_accWith b s hw.2, List.append_assoc]
    · unfold writePos
      simp only [hs]
      omega
    · unfold writePos writeCap
      simp only [hs]
      unfold writePos writeCap at room
      omega
    · intro k hk
      simp only [hs] at hk
      rw [getLsbD_accWith b s k (by omega), hw.2 k (by omega)]
      have : ¬(k = 7 - s.wcnt.toNat) := by omega
      simp [this]
    · exact le_rfl
    · intro i _
      rfl

/-! ## A bit sequence -/

/-- Appending a bit sequence, with room for all of it (43_bit_writer_reader.md R145, R147). -/
theorem foldl_putBit1_spec (q : Bits) {s : State} (hw : WriterOk s) (room : writePos s + q.length ≤ writeCap s) :
    writtenBits (q.foldl putBit1 s) = writtenBits s ++ q ∧
      writePos (q.foldl putBit1 s) = writePos s + q.length ∧ WriterOk (q.foldl putBit1 s) ∧
      s.outLen.toNat ≤ (q.foldl putBit1 s).outLen.toNat ∧
      ObufSameOutside s (q.foldl putBit1 s) s.outLen.toNat (q.foldl putBit1 s).outLen.toNat := by
  induction q generalizing s with
  | nil => exact ⟨by simp, by simp, hw, le_rfl, fun _ _ => rfl⟩
  | cons b q ih =>
    simp only [List.length_cons] at room
    obtain ⟨h1, h2, h3, h4, h5⟩ := putBit1_spec b hw (by omega)
    have hcap := writeCap_putBit1 s b
    obtain ⟨g1, g2, g3, g4, g5⟩ := ih h3 (by rw [h2, hcap]; omega)
    simp only [List.foldl_cons, List.length_cons]
    refine ⟨by rw [g1, h1, List.append_assoc]; rfl, by rw [g2, h2]; omega, g3, h4.trans g4, ?_⟩
    intro i hi
    rw [g5 i (by omega), h5 i (by omega)]

/-- `PutSeq` appends all of its bits or raises `CapacityExceeded` (43_bit_writer_reader.md R147). -/
theorem putSeq_cases (q : Bits) (s : State) :
    (writePos s + q.length ≤ writeCap s ∧ putSeq q s = .ok (q.foldl putBit1 s)) ∨
      (writeCap s < writePos s + q.length ∧ putSeq q s = .error (.raise .capacityExceeded)) := by
  unfold putSeq
  split
  · next h => exact .inr ⟨h, rfl⟩
  · next h => exact .inl ⟨by omega, rfl⟩

theorem putSeq_of_room {q : Bits} {s : State} (h : writePos s + q.length ≤ writeCap s) :
    putSeq q s = .ok (q.foldl putBit1 s) := by
  rcases putSeq_cases q s with ⟨-, h'⟩ | ⟨h', -⟩
  · exact h'
  · omega

theorem putSeq_of_no_room {q : Bits} {s : State} (h : writeCap s < writePos s + q.length) :
    putSeq q s = .error (.raise .capacityExceeded) := by
  rcases putSeq_cases q s with ⟨h', -⟩ | ⟨-, h'⟩
  · omega
  · exact h'

/-- Two sequences one after the other are the one sequence of both. -/
theorem putSeq_append {q r : Bits} {s t : State} (h : putSeq q s = .ok t) (hw : WriterOk s) :
    putSeq r t = putSeq (q ++ r) s := by
  rcases putSeq_cases q s with ⟨room, hq⟩ | ⟨-, hq⟩
  · rw [hq] at h
    cases h
    have hp := (foldl_putBit1_spec q hw room).2.1
    unfold putSeq
    simp only [writeCap_foldl_putBit1, hp, List.length_append, List.foldl_append, Nat.add_assoc]
  · rw [hq] at h
    cases h

/-- What a successful `PutSeq` did, and that it did nothing else. -/
theorem putSeq_appended {q : Bits} {s t : State} (hw : WriterOk s) (h : putSeq q s = .ok t) :
    Appended s (setErr .ok t) q ∧ WriterOk t := by
  rcases putSeq_cases q s with ⟨room, hq⟩ | ⟨-, hq⟩
  · rw [hq] at h
    cases h
    obtain ⟨h1, h2, h3, -, h5⟩ := foldl_putBit1_spec q hw room
    refine ⟨⟨rfl, h1, h2, h5, ?_⟩, h3⟩
    simp [SameInput, SameTree, SameFreq, SameOwn]
  · rw [hq] at h
    cases h

/-- An appending command with room for its operand. -/
theorem appendOperand_of_room {n : Nat} {v : BitVec n} {s : State} (h : writePos s + n ≤ writeCap s) :
    appendOperand v s = .next (setErr .ok ((bitsOf v).foldl putBit1 s)) := by
  rw [appendOperand, putBits, putSeq_of_room (by simpa using h)]
  rfl

/-- An appending command without room for its operand. -/
theorem appendOperand_of_no_room {n : Nat} {v : BitVec n} {s : State} (h : writeCap s < writePos s + n) :
    appendOperand v s = .next (setErr .capacityExceeded s) := by
  rw [appendOperand, putBits, putSeq_of_no_room (by simpa using h)]
  rfl

/-! ## Finalizing -/

/-- The body of `BW.FINAL` in its three cases; the third is in no state that keeps the writer's invariant. -/
theorem finalBody_cases (s : State) :
    (s.wcnt = 0 ∧ finalBody s = .ok s) ∨
      (s.wcnt ≠ 0 ∧ s.outLen.toNat < s.cfg.outCap.val ∧ finalBody s = .ok (storeByte s.wacc s)) ∨
      (s.wcnt ≠ 0 ∧ s.cfg.outCap.val ≤ s.outLen.toNat ∧ finalBody s = .error (.stop .obufAddress)) := by
  unfold finalBody
  split
  · next h => exact .inl ⟨h, rfl⟩
  · next h =>
    split
    · next h2 => exact .inr (.inl ⟨h, h2, rfl⟩)
    · next h2 => exact .inr (.inr ⟨h, by omega, rfl⟩)

/-- A partial byte always has room (43_bit_writer_reader.md R147, R151). -/
theorem outLen_lt_of_partial {s : State} (hw : WriterOk s) (h : s.wcnt ≠ 0) :
    s.outLen.toNat < s.cfg.outCap.val := by
  have h0 : s.wcnt.toNat ≠ 0 := fun e => h (BitVec.eq_of_toNat_eq (by simpa using e))
  have := hw.1
  unfold writePos writeCap at this
  omega

end Sys2Proof.Machine
end

