-- ==== Sys2Proof/Laws/Datapath.lean ====
section
/-! SUPPORT. The datapath (45_encoder_decoder_datapath.md): a list of symbols is encoded by one append of all codes, and a
list of paths is decoded to their symbols. -/

namespace Sys2Proof.Machine

/-! ## Encoder -/

theorem putSeq_frame {q : Bits} {s t : State} (h : putSeq q s = .ok t) :
    ∃ o n a c, t = { s with obuf := o, outLen := n, wacc := a, wcnt := c } := by
  rcases putSeq_cases q s with ⟨-, hq⟩ | ⟨-, hq⟩
  · rw [hq] at h
    cases h
    exact foldl_putBit1_frame q s
  · rw [hq] at h
    cases h

theorem putSeq_codesOf {q : Bits} {s t : State} (h : putSeq q s = .ok t) (bs : List Byte) :
    codesOf t bs = codesOf s bs := by
  obtain ⟨o, n, a, c, rfl⟩ := putSeq_frame h
  rfl

theorem putSeq_nil {s : State} (hw : WriterOk s) : putSeq [] s = .ok s := by
  rw [putSeq_of_room (by simpa using hw.1)]
  rfl

theorem putSeq_error {q : Bits} {s : State} {x : Exn} (h : putSeq q s = .error x) :
    x = .raise .capacityExceeded := by
  rcases putSeq_cases q s with ⟨-, hq⟩ | ⟨-, hq⟩
  · rw [hq] at h
    cases h
  · rw [hq] at h
    cases h
    rfl

/-- Codes appended one after the other are appended together (46_compress.md R200 step 5). -/
theorem appendCodes_eq {bs : List Byte} {s : State} (hw : WriterOk s) :
    appendCodes bs s = putSeq (codesOf s bs) s := by
  induction bs generalizing s with
  | nil => exact (putSeq_nil hw).symm
  | cons b bs ih =>
    simp only [appendCodes, bind, Except.bind]
    rcases putSeq_cases (codeBits s b) s with ⟨room, hq⟩ | ⟨room, hq⟩
    · rw [hq]
      have hq' := hq
      simp only
      rw [ih (putSeq_appended hw hq').2, putSeq_codesOf hq', putSeq_append hq' hw]
      rfl
    · rw [hq]
      simp only
      rw [putSeq_of_no_room]
      simp only [codesOf, List.flatMap_cons, List.length_append]
      omega

/-- With a code for each symbol, `EN.PAYLOAD` appends the codes together (45_encoder_decoder_datapath.md R187). -/
theorem encodeSymbols_eq {bs : List Byte} {s : State} (hw : WriterOk s) (hm : ∀ b ∈ bs, (codeOf s b).isSome = true) :
    encodeSymbols bs s = putSeq (codesOf s bs) s := by
  rw [← appendCodes_eq hw]
  induction bs generalizing s with
  | nil => rfl
  | cons b bs ih =>
    obtain ⟨q, hq⟩ := Option.isSome_iff_exists.1 (hm b (by simp))
    have hb : codeBits s b = q := by simp [codeBits, hq]
    simp only [encodeSymbols, appendCodes, encodeSymbol, hq, hb, bind, Except.bind]
    rcases putSeq_cases q s with ⟨-, hp⟩ | ⟨-, hp⟩
    · rw [hp]
      refine ih (putSeq_appended hw hp).2 fun c hc => ?_
      obtain ⟨o, n, a, e, he⟩ := putSeq_frame hp
      have := hm c (by simp [hc])
      rw [he]
      exact this
    · rw [hp]

theorem encodeSymbols_append {as bs : List Byte} {s : State} :
    encodeSymbols (as ++ bs) s = (do
      let s ← encodeSymbols as s
      encodeSymbols bs s) := by
  induction as generalizing s with
  | nil => rfl
  | cons a as ih =>
    simp only [List.cons_append, encodeSymbols, bind, Except.bind]
    cases encodeSymbol a s with
    | error x => rfl
    | ok u => exact ih

/-! ## Decoder -/

/-- A descent that succeeds went along a leaf's path. -/
theorem descend_ok {t : Tree} {s u : State} {b : Byte} (h : descend t s = .ok (b, u)) :
    ∃ q, (b, q) ∈ Tree.paths t ∧ (q = [] ∨ BitsAt s s.rpos.toNat q ∧ s.rpos.toNat + q.length ≤ 8 * s.cfg.inCap.val) ∧
      u = advance q.length s := by
  induction t generalizing s with
  | leaf c =>
    simp only [descend, Except.ok.injEq, Prod.mk.injEq] at h
    obtain ⟨rfl, rfl⟩ := h
    exact ⟨[], by simp [Tree.paths], .inl rfl, by simp⟩
  | node l r ihl ihr =>
    simp only [descend, bind, Except.bind] at h
    split at h
    · cases h
    · next v hv =>
      obtain ⟨v, s'⟩ := v
      obtain ⟨rfl, rfl, h1, h2⟩ := readBits_ok hv
      have hb : BitsAt s s.rpos.toNat [inBit s s.rpos.toNat] := ⟨by simpa using h1, by simp [inBits]⟩
      have hval : (BitVec.ofNat 1 (numOf (inBits s s.rpos.toNat 1))) = BitVec.ofBool (inBit s s.rpos.toNat) := by
        simp only [inBits, List.range_one, List.map_cons, List.map_nil, Nat.add_zero, numOf, List.foldl_cons,
          List.foldl_nil]
        cases inBit s s.rpos.toNat <;> rfl
      have key : ∀ (side : Bool) (x : Tree), inBit s s.rpos.toNat = side →
          (∃ q, (b, q) ∈ Tree.paths x ∧ (q = [] ∨ BitsAt (advance 1 s) (advance 1 s).rpos.toNat q ∧
            (advance 1 s).rpos.toNat + q.length ≤ 8 * (advance 1 s).cfg.inCap.val) ∧ u = advance q.length (advance 1 s)) →
          ∃ q, (b, q) ∈ Tree.paths x ∧ (BitsAt s s.rpos.toNat (side :: q) ∧
            s.rpos.toNat + (side :: q).length ≤ 8 * s.cfg.inCap.val) ∧ u = advance (side :: q).length s := by
        rintro side x hside ⟨q, hp, hq, rfl⟩
        rw [hside] at hb
        refine ⟨q, hp, ?_, ?_⟩
        · rcases hq with rfl | ⟨⟨hq1, hq2⟩, hq3⟩
          · exact ⟨hb, by simpa using h2⟩
          · rw [advance_rpos_toNat h2] at hq1 hq2 hq3
            simp only [advance_inLen, advance_cfg] at hq1 hq3
            refine ⟨⟨by simp only [List.length_cons]; omega, ?_⟩, by simp only [List.length_cons]; omega⟩
            have h3 : inBits s s.rpos.toNat 1 = [side] := hb.2
            have h4 : inBits s (s.rpos.toNat + 1) q.length = q := hq2
            rw [List.length_cons, Nat.add_comm q.length, inBits_append, h3, h4]
            rfl
        · rw [advance_advance h2, List.length_cons, Nat.add_comm]
      rw [hval] at h
      split at h
      · next e =>
        have hf : inBit s s.rpos.toNat = false := by
          cases hx : inBit s s.rpos.toNat
          · rfl
          · rw [hx] at e
            have e : BitVec.ofBool true = 0 := e
            exact absurd e (by decide)
        obtain ⟨q, h3, h4, h5⟩ := key false l hf (ihl h)
        exact ⟨false :: q, by simp [Tree.paths, h3], .inr h4, h5⟩
      · next e =>
        have hf : inBit s s.rpos.toNat = true := by
          cases hx : inBit s s.rpos.toNat
          · rw [hx] at e
            exact absurd rfl e
          · rfl
        obtain ⟨q, h3, h4, h5⟩ := key true r hf (ihr h)
        exact ⟨true :: q, by simp [Tree.paths, h3], .inr h4, h5⟩

theorem readBits_error {n : Nat} {s : State} {x : Exn} (hi : InputOk s) (h : readBits n s = .error x) :
    x = .raise .streamUnderrun := by
  rcases readBits_cases n s with ⟨-, h'⟩ | ⟨-, -, h'⟩ | ⟨h1, h2, -⟩
  · rw [h'] at h
    cases h
    rfl
  · rw [h'] at h
    cases h
  · unfold InputOk at hi
    omega

/-- A descent fails by running out of bits alone. -/
theorem descend_error {t : Tree} {s : State} {x : Exn} (hi : InputOk s) (h : descend t s = .error x) :
    x = .raise .streamUnderrun := by
  induction t generalizing s with
  | leaf c => cases h
  | node l r ihl ihr =>
    simp only [descend, bind, Except.bind] at h
    split at h
    · next y hy =>
      cases h
      exact readBits_error hi hy
    · next v hv =>
      obtain ⟨v, s'⟩ := v
      obtain ⟨rfl, -⟩ := readBits_ok hv
      split at h
      · exact ihl (inputOk_advance hi) h
      · exact ihr (inputOk_advance hi) h

/-- The bits left in the input, from the reader's position on. -/
def bitsLeft (s : State) : Bits := inBits s s.rpos.toNat (8 * s.inLen.toNat - s.rpos.toNat)

/-- A descent along a path that the input ends in (45_encoder_decoder_datapath.md R188). -/
theorem descend_cut {t : Tree} {s : State} {b : Byte} {q : Bits} (hi : InputOk s) (hp : (b, q) ∈ Tree.paths t)
    (hq : q ≠ []) (hlt : 8 * s.inLen.toNat < s.rpos.toNat + q.length) (h : bitsLeft s <+: q) :
    descend t s = .error (.raise .streamUnderrun) := by
  induction t generalizing s q with
  | leaf c =>
    simp only [Tree.paths, List.mem_singleton, Prod.mk.injEq] at hp
    exact absurd hp.2 hq
  | node l r ihl ihr =>
    by_cases he : 8 * s.inLen.toNat < s.rpos.toNat + 1
    · simp [descend, readBits_of_underrun he, bind, Except.bind]
    · have hroom : s.rpos.toNat + 1 ≤ 8 * s.cfg.inCap.val := by
        unfold InputOk at hi
        omega
      have hadv : (advance 1 s).rpos.toNat = s.rpos.toNat + 1 := advance_rpos_toNat hroom
      have hleft : bitsLeft s = inBit s s.rpos.toNat :: bitsLeft (advance 1 s) := by
        unfold bitsLeft
        rw [hadv, advance_inLen, show 8 * s.inLen.toNat - s.rpos.toNat = 1 + (8 * s.inLen.toNat - (s.rpos.toNat + 1)) by omega,
          inBits_append]
        simp [inBits]
      obtain ⟨side, q', rfl⟩ : ∃ side q', q = side :: q' := by
        cases q with
        | nil => exact absurd rfl hq
        | cons a q' => exact ⟨a, q', rfl⟩
      rw [hleft, List.cons_prefix_cons] at h
      obtain ⟨hs, h⟩ := h
      have hb : BitsAt s s.rpos.toNat [side] := ⟨by simp; omega, by simp [inBits, hs]⟩
      have hr := readBits_one hi hb
      simp only [List.length_cons] at hlt
      have hq' : ∀ x : Tree, (b, q') ∈ Tree.paths x → q' ≠ [] := by
        rintro x - rfl
        simp only [List.length_nil] at hlt
        omega
      simp only [descend, hr, bind, Except.bind]
      simp only [Tree.paths, List.mem_append, List.mem_map, Prod.mk.injEq, List.cons.injEq] at hp
      rcases hp with ⟨c, hc, rfl, rfl, rfl⟩ | ⟨c, hc, rfl, rfl, rfl⟩
      · rw [if_pos (by decide)]
        exact ihl (inputOk_advance hi) hc (hq' l hc) (by rw [hadv, advance_inLen]; omega) h
      · rw [if_neg (by decide)]
        exact ihr (inputOk_advance hi) hc (hq' r hc) (by rw [hadv, advance_inLen]; omega) h

/-! ## Decoding several symbols -/

@[simp] theorem putBit1_advance (n : Nat) (s : State) (b : Bool) : putBit1 (advance n s) b = advance n (putBit1 s b) := by
  by_cases h : s.wcnt = 7
  · rw [putBit1, putBit1, if_pos (show (advance n s).wcnt = 7 from h), if_pos h]
    rfl
  · rw [putBit1, putBit1, if_neg (show ¬(advance n s).wcnt = 7 from h), if_neg h]
    rfl

@[simp] theorem foldl_putBit1_advance (q : Bits) (n : Nat) (s : State) :
    q.foldl putBit1 (advance n s) = advance n (q.foldl putBit1 s) := by
  induction q generalizing s with
  | nil => rfl
  | cons b q ih => rw [List.foldl_cons, List.foldl_cons, putBit1_advance, ih]

theorem writerOk_advance {n : Nat} {s : State} (h : WriterOk s) : WriterOk (advance n s) := h

theorem inputOk_foldl {q : Bits} {s : State} (h : InputOk s) : InputOk (q.foldl putBit1 s) := by
  simpa [InputOk] using h

theorem bitsAt_foldl {q r : Bits} {s : State} {p : Nat} (h : BitsAt s p r) : BitsAt (q.foldl putBit1 s) p r := by
  obtain ⟨o, n, a, c, e⟩ := foldl_putBit1_frame q s
  rw [e]
  exact h

/-- The bytes of the decoded symbols. -/
def symbolBits (ps : List (Byte × Bits)) : Bits := ps.flatMap (fun p => bitsOf p.1)

theorem symbolBits_length (ps : List (Byte × Bits)) : (symbolBits ps).length = 8 * ps.length := by
  induction ps with
  | nil => rfl
  | cons p ps ih =>
    simp only [symbolBits, List.flatMap_cons, List.length_append, bitsOf_length, List.length_cons] at ih ⊢
    omega

/-- Symbols decoded along leaves' paths (45_encoder_decoder_datapath.md R189). -/
theorem decodeSymbols_paths {t : Tree} {ps : List (Byte × Bits)} {s : State} {r : Bits} (hi : InputOk s)
    (hw : WriterOk s) (hp : ∀ p ∈ ps, p ∈ Tree.paths t) (room : writePos s + 8 * ps.length ≤ writeCap s)
    (h : ps.flatMap Prod.snd = [] ∨ BitsAt s s.rpos.toNat (ps.flatMap Prod.snd ++ r)) :
    decodeSymbols t ps.length s =
      .ok ((symbolBits ps).foldl putBit1 (advance (ps.flatMap Prod.snd).length s)) := by
  induction ps generalizing s with
  | nil => simp [decodeSymbols, symbolBits]
  | cons p ps ih =>
    obtain ⟨b, q⟩ := p
    simp only [List.flatMap_cons, List.append_assoc, List.append_eq_nil_iff] at h
    simp only [List.length_cons] at room
    have hd := descend_path (hp (b, q) (by simp)) hi (h.imp (fun h => h.1) id)
    have hput : putBits b (advance q.length s) = .ok ((bitsOf b).foldl putBit1 (advance q.length s)) :=
      putSeq_of_room (show writePos s + (bitsOf b).length ≤ writeCap s by rw [bitsOf_length]; omega)
    obtain ⟨-, g2, g3, -⟩ := foldl_putBit1_spec (bitsOf b) (s := advance q.length s) (writerOk_advance hw)
      (show writePos s + (bitsOf b).length ≤ writeCap s by rw [bitsOf_length]; omega)
    have hrest : ps.flatMap Prod.snd = [] ∨
        BitsAt ((bitsOf b).foldl putBit1 (advance q.length s)) ((bitsOf b).foldl putBit1 (advance q.length s)).rpos.toNat
          (ps.flatMap Prod.snd ++ r) := by
      refine h.imp (fun h => h.2) fun h => ?_
      have := bitsAt_advance hi h
      rw [foldl_putBit1_rpos]
      exact bitsAt_foldl this
    have := ih (s := (bitsOf b).foldl putBit1 (advance q.length s)) (inputOk_foldl (inputOk_advance hi)) g3
      (fun p hp' => hp p (by simp [hp']))
      (by rw [g2, writeCap_foldl_putBit1, bitsOf_length]
          exact (show writePos s + 8 + 8 * ps.length ≤ writeCap s by omega)) hrest
    simp only [List.length_cons, decodeSymbols, hd, hput, bind, Except.bind]
    rw [this]
    simp only [symbolBits, List.flatMap_cons, List.foldl_append, List.length_append, foldl_putBit1_advance]
    refine congrArg Except.ok ?_
    rcases h with ⟨rfl, h2⟩ | h
    · rw [h2, List.length_nil, Nat.zero_add, advance_zero, advance_zero]
    · refine advance_advance ?_
      have := h.1
      simp only [List.length_append] at this
      unfold InputOk at hi
      simp only [foldl_putBit1_rpos, foldl_putBit1_cfg]
      omega

end Sys2Proof.Machine
end

