-- ==== Sys2Proof/Laws/Encoding.lean ====
section
/-! SUPPORT. The fields of an encoded command (30_encoding.md R90, R97). -/

namespace Sys2Proof

theorem opField_encode (i : Instr) : opField (encode i) = opcodeOf i := by
  generalize ha : opcodeOf i = a
  generalize hb : operandOf i = b
  unfold opField encode
  rw [ha, hb]
  ext k hk
  simp only [BitVec.getElem_extractLsb', BitVec.getLsbD_or, BitVec.getLsbD_shiftLeft, BitVec.getLsbD_setWidth]
  have h1 : 56 + k < 64 := by omega
  have h2 : ¬(56 + k < 56) := by omega
  simp only [h1, h2, decide_true, decide_false, Bool.not_false, Bool.true_and, Nat.add_sub_cancel_left]
  rw [BitVec.getLsbD_of_ge b _ (by omega)]
  simp only [Bool.or_false, BitVec.getElem_eq_testBit_toNat, ← BitVec.testBit_toNat]
  simp
  omega

theorem rsvField_encode (i : Instr) : rsvField (encode i) = 0 := by
  generalize ha : opcodeOf i = a
  generalize hb : operandOf i = b
  unfold rsvField encode
  rw [ha, hb]
  ext k hk
  simp only [BitVec.getElem_extractLsb', BitVec.getLsbD_or, BitVec.getLsbD_shiftLeft, BitVec.getLsbD_setWidth]
  have h2 : 32 + k < 56 := by omega
  rw [BitVec.getLsbD_of_ge b _ (by omega)]
  simp [h2]

theorem argField_encode (i : Instr) : argField (encode i) = operandOf i := by
  generalize ha : opcodeOf i = a
  generalize hb : operandOf i = b
  unfold argField encode
  rw [ha, hb]
  ext k hk
  simp only [BitVec.getElem_extractLsb', BitVec.getLsbD_or, BitVec.getLsbD_shiftLeft, BitVec.getLsbD_setWidth,
    Nat.zero_add]
  have h2 : k < 56 := by omega
  have h1 : k < 64 := by omega
  simp [h1, h2, BitVec.getLsbD_eq_getElem hk]

end Sys2Proof
end

