-- ==== Sys2Proof/Laws/Generator.lean ====
section
/-! SUPPORT. What the walk of the generator records (42_code_generator.md R135, R136). -/

namespace Sys2Proof.Machine

/-- The code a walk from the root with an empty path records for a symbol: the path of its last leaf. -/
def lastPath (t : Tree) (b : Byte) : Option Bits := ((Tree.paths t).filter (fun p => p.1 = b)).getLast?.map Prod.snd

theorem lastPath_node (l r : Tree) (b : Byte) :
    lastPath (.node l r) b = ((lastPath r b).map (true :: ·)).or ((lastPath l b).map (false :: ·)) := by
  simp only [lastPath, Tree.paths, List.filter_append, List.filter_map, List.getLast?_append, List.getLast?_map,
    Function.comp_def, Option.map_or, Option.map_map]

/-- The walk in one equation: a symbol of the tree gets the path of its last leaf, every other entry stays. -/
theorem tableGet_walk (t : Tree) (p : Bits) (tbl : Vector (Option Bits) 256) (b : Byte) :
    tableGet (walk t p tbl) b = ((lastPath t b).map (fun q => some (p ++ q))).getD (tableGet tbl b) := by
  induction t generalizing p tbl with
  | leaf c =>
    by_cases h : c = b
    · subst h
      simp [walk, lastPath, Tree.paths]
    · simp [walk, lastPath, Tree.paths, h, Ne.symm h]
  | node l r hl hr =>
    rw [walk, hr, hl, lastPath_node]
    cases lastPath r b <;> cases lastPath l b <;> simp

theorem lastPath_mem {t : Tree} {b : Byte} {q : Bits} (h : lastPath t b = some q) : (b, q) ∈ Tree.paths t := by
  simp only [lastPath, Option.map_eq_some_iff] at h
  obtain ⟨x, hx, rfl⟩ := h
  have := List.mem_of_getLast? hx
  simp only [List.mem_filter, decide_eq_true_eq] at this
  obtain ⟨h1, rfl⟩ := this
  exact h1

theorem lastPath_eq_none {t : Tree} {b : Byte} : lastPath t b = none ↔ b ∉ Tree.symbols t := by
  simp only [lastPath, Option.map_eq_none_iff, List.getLast?_eq_none_iff, List.filter_eq_nil_iff, decide_eq_true_eq,
    ← Tree.paths_fst, List.mem_map, not_exists, not_and]

/-- A leaf's path is the last one when no other leaf has its symbol. -/
theorem lastPath_of_nodup {t : Tree} (hd : (Tree.symbols t).Nodup) {b : Byte} {q : Bits} (h : (b, q) ∈ Tree.paths t) :
    lastPath t b = some q := by
  obtain ⟨q', hq'⟩ : ∃ q', lastPath t b = some q' := by
    rw [← Option.ne_none_iff_exists', ne_eq, lastPath_eq_none, not_not, ← Tree.paths_fst]
    exact List.mem_map.2 ⟨_, h, rfl⟩
  rw [← Tree.paths_fst] at hd
  have := List.inj_on_of_nodup_map hd (lastPath_mem hq') h rfl
  cases this
  exact hq'

/-- No leaf's path begins with another leaf's path (42_code_generator.md R138). -/
theorem paths_prefix {t : Tree} {x y : Byte × Bits} (hx : x ∈ Tree.paths t) (hy : y ∈ Tree.paths t)
    (h : x.2 <+: y.2) : x = y := by
  induction t generalizing x y with
  | leaf c =>
    simp only [Tree.paths, List.mem_singleton] at hx hy
    rw [hx, hy]
  | node l r hl hr =>
    simp only [Tree.paths, List.mem_append, List.mem_map] at hx hy
    rcases hx with ⟨u, hu, rfl⟩ | ⟨u, hu, rfl⟩ <;> rcases hy with ⟨v, hv, rfl⟩ | ⟨v, hv, rfl⟩
    · simp only [List.cons_prefix_cons, true_and] at h
      rw [hl hu hv h]
    · simp at h
    · simp at h
    · simp only [List.cons_prefix_cons, true_and] at h
      rw [hr hu hv h]

/-- The body of `CG.GEN` on a legal arena (42_code_generator.md R135). -/
theorem genBody_spec {s : State} (h : ArenaOk s) :
    ∃ u, genBody s = .ok u ∧ u = { s with code := u.code } ∧ (s.root = none → ∀ b, codeOf u b = none) ∧
      ∀ t, Denotes s t → ∀ b, codeOf u b = lastPath t b := by
  by_cases hr : s.root = none
  · refine ⟨{ s with code := emptyTable }, by simp [genBody, hr], rfl, fun _ b => by simp [codeOf], ?_⟩
    rintro t ⟨r, hr', -⟩
    rw [hr] at hr'
    cases hr'
  · obtain ⟨t, ht, -⟩ := h.denotes hr
    obtain ⟨r, hr', hin⟩ := ht.treeIn
    refine ⟨{ s with code := walk t [] emptyTable },
      by simp [genBody, hr', hin, bind, Except.bind, pure, Except.pure], rfl, fun h => absurd h hr, ?_⟩
    intro t' ht' b
    obtain rfl := ht.unique ht'
    simp only [codeOf, tableGet_walk, tableGet_emptyTable, List.nil_append]
    cases lastPath t b <;> rfl

/-- Codes have at most 255 bits (10_state.md R40, R41). -/
theorem genBody_codeOk {s u : State} (h : ArenaOk s) (hu : genBody s = .ok u) : CodeOk u := by
  obtain ⟨v, hv, -, h1, h2⟩ := genBody_spec h
  rw [hu] at hv
  cases hv
  intro b q hq
  by_cases hr : s.root = none
  · rw [h1 hr] at hq
    cases hq
  · obtain ⟨t, ht, -, hl⟩ := h.denotes hr
    rw [h2 t ht] at hq
    have := Tree.length_lt_levels (lastPath_mem hq)
    simp only at this
    omega

end Sys2Proof.Machine
end

