-- ==== Sys2Proof/Laws/PerInstr.lean ====
section
/-! SUPPORT. Statements about every command as syntax, one lemma per constructor. Family `EncodesWellFormed`: the word
of a command passes the three checks of 30_encoding.md R94 and carries the command's opcode. -/

namespace Sys2Proof.Laws.EncodesWellFormed

/-- The encoded command is a well-formed command word with the command's own opcode. -/
def Statement (i : Instr) : Prop := wellFormed (encode i) = true ∧ opField (encode i) = opcodeOf i

/-- What has to be seen of one command: its opcode is assigned and its operand fits. -/
theorem of_fits {i : Instr} {f : Format} (hf : formatOf (opcodeOf i) = some f)
    (ho : (operandOf i).toNat < 2 ^ formatWidth f) : Statement i := by
  refine ⟨?_, opField_encode i⟩
  simp [wellFormed, opAssigned, reservedZero, operandFits, opField_encode, rsvField_encode, argField_encode, hf, ho]

theorem reset : Statement .reset := of_fits (f := .n) (by decide) (by decide)

theorem fqCount : Statement .fqCount := of_fits (f := .n) (by decide) (by decide)

theorem tbBuild : Statement .tbBuild := of_fits (f := .n) (by decide) (by decide)

theorem cgGen : Statement .cgGen := of_fits (f := .n) (by decide) (by decide)

theorem bwInit : Statement .bwInit := of_fits (f := .n) (by decide) (by decide)

theorem bwPutbit (b : BitVec 1) : Statement (.bwPutbit b) :=
  of_fits (f := .b1) rfl (by
    have := b.isLt
    simp only [operandOf, BitVec.toNat_setWidth, formatWidth]
    omega)

theorem bwPutbyte (v : Byte) : Statement (.bwPutbyte v) :=
  of_fits (f := .b8) rfl (by
    have := v.isLt
    simp only [operandOf, BitVec.toNat_setWidth, formatWidth]
    omega)

theorem bwPutu32 (n : Word32) : Statement (.bwPutu32 n) := of_fits (f := .w32) rfl n.isLt

theorem bwFinal : Statement .bwFinal := of_fits (f := .n) (by decide) (by decide)

theorem brSeek (n : Word32) : Statement (.brSeek n) := of_fits (f := .w32) rfl n.isLt

theorem brGetbit : Statement .brGetbit := of_fits (f := .n) (by decide) (by decide)

theorem brGetbyte : Statement .brGetbyte := of_fits (f := .n) (by decide) (by decide)

theorem brGetu32 : Statement .brGetu32 := of_fits (f := .n) (by decide) (by decide)

theorem tcSer : Statement .tcSer := of_fits (f := .n) (by decide) (by decide)

theorem tcDes : Statement .tcDes := of_fits (f := .n) (by decide) (by decide)

theorem enSym (v : Byte) : Statement (.enSym v) :=
  of_fits (f := .b8) rfl (by
    have := v.isLt
    simp only [operandOf, BitVec.toNat_setWidth, formatWidth]
    omega)

theorem enPayload : Statement .enPayload := of_fits (f := .n) (by decide) (by decide)

theorem deSym : Statement .deSym := of_fits (f := .n) (by decide) (by decide)

theorem dePayload (n : Word32) : Statement (.dePayload n) := of_fits (f := .w32) rfl n.isLt

theorem compress : Statement .compress := of_fits (f := .n) (by decide) (by decide)

theorem decompress : Statement .decompress := of_fits (f := .n) (by decide) (by decide)

end Sys2Proof.Laws.EncodesWellFormed
end

