-- ==== Sys2Proof/Laws/TreeCodec.lean ====
section
/-! SUPPORT. The parser (44_tree_codec.md R170): what it makes of a serialized tree, what it has consumed when it succeeds,
and how it fails. -/

namespace Sys2Proof.Machine

@[simp] theorem arenaOf_length (base : Nat) (t : Tree) : (arenaOf base t).length = Tree.size t := by
  induction t generalizing base with
  | leaf b => rfl
  | node l r hl hr => simp [arenaOf, hl, hr, Tree.size]

theorem toNat_ofNat_nine {n : Nat} (h : n ≤ 511) : (BitVec.ofNat 9 n).toNat = n := by
  rw [BitVec.toNat_ofNat, Nat.mod_eq_of_lt]
  omega

/-- The parsed entries denote the tree. -/
theorem spans_arenaOf {t : Tree} {pre post : List Node} (h : pre.length + Tree.size t ≤ 511) :
    Spans (pre ++ (arenaOf pre.length t ++ post)) t (BitVec.ofNat 9 pre.length)
      ((List.range' pre.length (Tree.size t)).map (BitVec.ofNat 9)) := by
  induction t generalizing pre post with
  | leaf b =>
    simp only [Tree.size] at h
    exact ⟨⟨0, by simp [toNat_ofNat_nine (show pre.length ≤ 511 by omega), arenaOf]⟩, rfl⟩
  | node l r hl hr =>
    simp only [Tree.size] at h
    let n : Node := .internal 0 (BitVec.ofNat 9 (pre.length + 1)) (BitVec.ofNat 9 (pre.length + 1 + Tree.size l))
    have h1 := hl (pre := pre ++ [n]) (post := arenaOf (pre.length + 1 + Tree.size l) r ++ post) (by simp; omega)
    have h2 := hr (pre := pre ++ [n] ++ arenaOf (pre.length + 1) l) (post := post) (by simp; omega)
    simp only [List.length_append, List.length_singleton, arenaOf_length, List.append_assoc] at h1 h2
    refine ⟨0, BitVec.ofNat 9 (pre.length + 1), BitVec.ofNat 9 (pre.length + 1 + Tree.size l),
      (List.range' (pre.length + 1) (Tree.size l)).map (BitVec.ofNat 9),
      (List.range' (pre.length + 1 + Tree.size l) (Tree.size r)).map (BitVec.ofNat 9), ?_, ?_, ?_, ?_⟩
    · rw [toNat_ofNat_nine (by omega)]
      simp [arenaOf]
    · simpa [arenaOf, n, List.append_assoc] using h1
    · simpa [arenaOf, n, List.append_assoc, Nat.add_assoc] using h2
    · rw [Tree.size, ← List.map_append, List.range'_append_1, List.range'_succ, List.map_cons]

theorem arenaOf_weight {t : Tree} {base : Nat} : ∀ n ∈ arenaOf base t, n.weight = 0 := by
  induction t generalizing base with
  | leaf b => simp [arenaOf, Node.weight]
  | node l r hl hr =>
    intro n hn
    simp only [arenaOf, List.mem_cons, List.mem_append] at hn
    rcases hn with rfl | hn | hn
    · rfl
    · exact hl n hn
    · exact hr n hn

/-- The left child stands just behind its parent (44_tree_codec.md R172). -/
theorem arenaOf_left {t : Tree} {base : Nat} (h : base + Tree.size t ≤ 511) {j : Nat} {w : Word32} {l r : NodeIx}
    (hj : (arenaOf base t)[j]? = some (.internal w l r)) : l.toNat = base + j + 1 := by
  induction t generalizing base j with
  | leaf b =>
    simp only [arenaOf, List.getElem?_singleton] at hj
    split at hj <;> simp at hj
  | node a b ha hb =>
    simp only [Tree.size] at h
    cases j with
    | zero =>
      simp only [arenaOf, List.getElem?_cons_zero, Option.some.injEq, Node.internal.injEq] at hj
      rw [← hj.2.1, toNat_ofNat_nine (by omega)]
    | succ j =>
      simp only [arenaOf, List.getElem?_cons_succ, List.getElem?_append, arenaOf_length] at hj
      split at hj
      · have := ha (by omega) hj
        omega
      · have := hb (by omega) hj
        omega

/-- The arena's entries replaced, everything else kept. -/
def setNodes (ns : List Node) (s : State) : State := { s with nodes := ns }

@[simp] theorem setNodes_nodes (ns : List Node) (s : State) : (setNodes ns s).nodes = ns := rfl

@[simp] theorem setNodes_rpos (ns : List Node) (s : State) : (setNodes ns s).rpos = s.rpos := rfl

@[simp] theorem setNodes_setNodes (ns ms : List Node) (s : State) : setNodes ns (setNodes ms s) = setNodes ns s := rfl

@[simp] theorem advance_setNodes (n : Nat) (ns : List Node) (s : State) :
    advance n (setNodes ns s) = setNodes ns (advance n s) := rfl

theorem setNode_eq_setNodes (i : NodeIx) (n : Node) (s : State) :
    setNode i n s = setNodes (s.nodes.set i.toNat n) s := rfl

theorem allocNode_of_room {n : Node} {s : State} (h : s.nodes.length < 511) :
    allocNode n s = .ok (BitVec.ofNat 9 s.nodes.length, setNodes (s.nodes ++ [n]) s) := by
  rw [allocNode, if_pos (by unfold Config.nodeCap; omega)]
  rfl

theorem allocNode_full {n : Node} {s : State} (h : 511 ≤ s.nodes.length) :
    allocNode n s = .error (.raise .malformedTree) := by
  rw [allocNode, if_neg (by unfold Config.nodeCap; omega)]

/-- The first two bits of a present node. -/
theorem readTwo {s : State} {a b : Bool} {q : Bits} (hi : InputOk s) (h : BitsAt s s.rpos.toNat (a :: b :: q)) :
    readBits 1 s = .ok (BitVec.ofBool a, advance 1 s) ∧
      readBits 1 (advance 1 s) = .ok (BitVec.ofBool b, advance 2 s) ∧
      BitsAt (advance 2 s) (advance 2 s).rpos.toNat q ∧
      s.rpos.toNat + 2 + q.length ≤ 8 * s.cfg.inCap.val := by
  have hroom : s.rpos.toNat + 2 + q.length ≤ 8 * s.cfg.inCap.val := by
    have := h.1
    simp only [List.length_cons] at this
    unfold InputOk at hi
    omega
  have h1 := readBits_one hi h
  have hb1 : BitsAt (advance 1 s) (advance 1 s).rpos.toNat (b :: q) := bitsAt_advance (q := [a]) hi h
  have h2 := readBits_one (inputOk_advance hi) hb1
  rw [advance_advance (by omega)] at h2
  exact ⟨h1, h2, bitsAt_advance (q := [a, b]) hi h, hroom⟩

/-- What the parser does with a state: the arena grows, the reader advances. -/
def parsed (s : State) (t : Tree) : State :=
  setNodes (s.nodes ++ arenaOf s.nodes.length t) (advance (serTree t).length s)

/-- The parser's step for a present internal node whose subtrees parse. -/
theorem parsed_node {s : State} {l r : Tree} (hn : s.nodes.length + (Tree.size l + Tree.size r + 1) ≤ 511)
    (hroom : s.rpos.toNat + 2 + (serTree l).length ≤ 8 * s.cfg.inCap.val) :
    setNode (BitVec.ofNat 9 s.nodes.length)
        (.internal 0 (BitVec.ofNat 9 (s.nodes.length + 1)) (BitVec.ofNat 9 (s.nodes.length + 1 + Tree.size l)))
        (parsed (parsed (setNodes (s.nodes ++ [.internal 0 0 0]) (advance 2 s)) l) r) = parsed s (.node l r) := by
  have hA : advance (serTree r).length (advance (serTree l).length (advance 2 s)) =
      advance (serTree (.node l r)).length s := by
    rw [advance_advance (m := 2) (by omega), advance_advance (by omega)]
    simp only [serTree, List.length_append, List.length_cons, List.length_nil]
  rw [setNode_eq_setNodes, toNat_ofNat_nine (by omega)]
  unfold parsed
  simp only [advance_setNodes, setNodes_setNodes, setNodes_nodes, hA]
  congr 1
  simp [arenaOf, List.append_assoc, Nat.add_assoc, Nat.add_comm 1]

theorem inputOk_setNodes {ns : List Node} {s : State} (h : InputOk s) : InputOk (setNodes ns s) := h

theorem inputOk_parsed {s : State} {t : Tree} (h : InputOk s) : InputOk (parsed s t) := h

theorem bitsAt_setNodes {ns : List Node} {s : State} {q : Bits} (h : BitsAt s s.rpos.toNat q) :
    BitsAt (setNodes ns s) (setNodes ns s).rpos.toNat q := h

theorem bitsAt_parsed {s : State} {t : Tree} {rest : Bits} (hi : InputOk s)
    (h : BitsAt s s.rpos.toNat (serTree t ++ rest)) : BitsAt (parsed s t) (parsed s t).rpos.toNat rest :=
  bitsAt_setNodes (bitsAt_advance hi h)

/-- A serialized tree within the two bounds is parsed (44_tree_codec.md R175). -/
theorem parse_tree {t : Tree} {levels : Nat} {s : State} {rest : Bits} (hi : InputOk s)
    (h : BitsAt s s.rpos.toNat (serTree t ++ rest)) (hl : Tree.levels t ≤ levels)
    (hn : s.nodes.length + Tree.size t ≤ 511) :
    parse levels s = .ok (some (BitVec.ofNat 9 s.nodes.length), parsed s t) := by
  induction t generalizing levels s rest with
  | leaf b =>
    obtain ⟨lv, rfl⟩ : ∃ lv, levels = lv + 1 := ⟨levels - 1, by have := Tree.levels_pos (.leaf b); omega⟩
    simp only [Tree.size] at hn
    simp only [serTree, List.cons_append, List.nil_append] at h
    obtain ⟨h1, h2, h3, hroom⟩ := readTwo hi h
    have h4 := readBits_value (inputOk_advance hi) h3
    rw [advance_advance (by omega)] at h4
    have h5 : allocNode (.leaf b 0) (advance 10 s) =
        .ok (BitVec.ofNat 9 s.nodes.length, setNodes (s.nodes ++ [.leaf b 0]) (advance 10 s)) :=
      allocNode_of_room (show (advance 10 s).nodes.length < 511 by simp; omega)
    simp only [parse, h1, h2, h4, h5, bind, Except.bind, pure, Except.pure]
    rw [if_neg (by decide), if_pos (by decide)]
    rfl
  | node l r ihl ihr =>
    obtain ⟨lv, rfl⟩ : ∃ lv, levels = lv + 1 := ⟨levels - 1, by have := Tree.levels_pos (.node l r); omega⟩
    simp only [Tree.size] at hn
    simp only [Tree.levels] at hl
    simp only [serTree, List.cons_append, List.nil_append, List.append_assoc] at h
    obtain ⟨h1, h2, h3, hroom⟩ := readTwo hi h
    simp only [List.length_append] at hroom
    have h4 : allocNode (.internal 0 0 0) (advance 2 s) =
        .ok (BitVec.ofNat 9 s.nodes.length, setNodes (s.nodes ++ [.internal 0 0 0]) (advance 2 s)) :=
      allocNode_of_room (show (advance 2 s).nodes.length < 511 by simp; omega)
    have h5 := ihl (s := setNodes (s.nodes ++ [.internal 0 0 0]) (advance 2 s)) (levels := lv)
      (inputOk_setNodes (inputOk_advance hi)) (bitsAt_setNodes h3) (by omega) (by simp; omega)
    have h6 := ihr (s := parsed (setNodes (s.nodes ++ [.internal 0 0 0]) (advance 2 s)) l) (levels := lv) (rest := rest)
      (inputOk_parsed (inputOk_setNodes (inputOk_advance hi)))
      (bitsAt_parsed (inputOk_setNodes (inputOk_advance hi)) (bitsAt_setNodes h3)) (by omega) (by simp [parsed]; omega)
    have hfin := parsed_node (s := s) (l := l) (r := r) hn (by omega)
    rw [show (setNodes (s.nodes ++ [.internal 0 0 0]) (advance 2 s)).nodes.length = s.nodes.length + 1 by simp] at h5
    rw [show (parsed (setNodes (s.nodes ++ [.internal 0 0 0]) (advance 2 s)) l).nodes.length =
      s.nodes.length + 1 + Tree.size l by simp [parsed]; omega] at h6
    simp only [parse, h1, h2, h4, h5, h6, bind, Except.bind, pure, Except.pure]
    rw [if_neg (by decide), if_neg (by decide)]
    simp only [hfin]

/-- The NIL bit (44_tree_codec.md R170). -/
theorem parse_nil {levels : Nat} {s : State} {rest : Bits} (hi : InputOk s) (hl : levels ≠ 0)
    (h : BitsAt s s.rpos.toNat (false :: rest)) : parse levels s = .ok (none, advance 1 s) := by
  obtain ⟨lv, rfl⟩ : ∃ lv, levels = lv + 1 := ⟨levels - 1, by omega⟩
  simp only [parse, readBits_one hi h, bind, Except.bind, pure, Except.pure]
  rw [if_pos (by decide)]

/-! ## Whatever stands in the input -/

theorem bitsAt_cons_of_readBits {s t : State} {v : BitVec 1} (h : readBits 1 s = .ok (v, t)) :
    t = advance 1 s ∧ BitsAt s s.rpos.toNat [v == 1] ∧ s.rpos.toNat + 1 ≤ 8 * s.cfg.inCap.val := by
  obtain ⟨rfl, rfl, h1, h2⟩ := readBits_ok h
  refine ⟨rfl, ⟨by simpa using h1, ?_⟩, h2⟩
  simp only [List.length_singleton, inBits, List.range_one, List.map_cons, List.map_nil, Nat.add_zero, numOf,
    List.foldl_cons, List.foldl_nil]
  cases inBit s s.rpos.toNat <;> rfl

theorem bitsAt_append {s : State} {q r : Bits} (h : BitsAt s s.rpos.toNat q)
    (hroom : s.rpos.toNat + q.length ≤ 8 * s.cfg.inCap.val)
    (h' : BitsAt (advance q.length s) (advance q.length s).rpos.toNat r) : BitsAt s s.rpos.toNat (q ++ r) := by
  rw [BitsAt, advance_rpos_toNat hroom] at h'
  refine ⟨by rw [List.length_append]; have := h'.1; simp only [advance_inLen] at this; omega, ?_⟩
  rw [List.length_append, inBits_append, h.2]
  congr 1
  exact h'.2

theorem bitsAt_value_of_readBits {n : Nat} {s t : State} {v : BitVec n} (h : readBits n s = .ok (v, t)) :
    BitsAt s s.rpos.toNat (bitsOf v) := by
  obtain ⟨-, rfl, h1, -⟩ := readBits_ok h
  refine ⟨by simpa using h1, ?_⟩
  rw [bitsOf_length, bitsOf_ofNat_numOf _ (by simp)]

/-- What the parser has consumed when it succeeds (44_tree_codec.md R175): the NIL bit, or a serialized tree within the
two bounds. -/
theorem parse_ok {levels : Nat} {s u : State} {o : Option NodeIx} (h : parse levels s = .ok (o, u)) :
    (o = none ∧ u = advance 1 s ∧ BitsAt s s.rpos.toNat [false]) ∨
      ∃ t, o = some (BitVec.ofNat 9 s.nodes.length) ∧ u = parsed s t ∧ BitsAt s s.rpos.toNat (serTree t) ∧
        Tree.levels t ≤ levels ∧ s.nodes.length + Tree.size t ≤ 511 ∧
        s.rpos.toNat + (serTree t).length ≤ 8 * s.cfg.inCap.val := by
  induction levels generalizing s u o with
  | zero => cases h
  | succ lv ih =>
    simp only [parse, bind, Except.bind, pure, Except.pure] at h
    split at h
    · cases h
    · next e he =>
      obtain ⟨h1, b1, r1⟩ := bitsAt_cons_of_readBits (v := e.1) (t := e.2) he
      split at h
      · next e0 =>
        cases h
        rw [e0] at b1
        exact .inl ⟨rfl, h1, b1⟩
      · next e0 =>
        have e1 : e.1 = 1 := by
          have := e.1.isLt
          have hne : e.1.toNat ≠ 0 := fun hz => e0 (BitVec.eq_of_toNat_eq (by simpa using hz))
          exact BitVec.eq_of_toNat_eq (show e.1.toNat = 1 by omega)
        rw [e1] at b1
        split at h
        · cases h
        · next k hk =>
          obtain ⟨h2, b2, r2⟩ := bitsAt_cons_of_readBits (v := k.1) (t := k.2) hk
          rw [h1] at h2 b2 r2
          rw [advance_advance r1] at h2
          simp only [advance_cfg, advance_rpos_toNat r1] at r2
          have b12 := bitsAt_append b1 (by simpa using r1) b2
          split at h
          · next k1 =>
            rw [k1] at b12
            split at h
            · cases h
            · next v hv =>
              have b3 := bitsAt_value_of_readBits (v := v.1) (t := v.2) hv
              obtain ⟨h3, -, -, r3⟩ := readBits_ok (v := v.1) (t := v.2) hv
              rw [h2] at h3 b3 r3
              rw [advance_advance (by omega)] at h3
              simp only [advance_cfg, advance_rpos_toNat (show s.rpos.toNat + 2 ≤ 8 * s.cfg.inCap.val by omega)] at r3
              split at h
              · cases h
              · next a ha =>
                obtain ⟨l1, i1, h4⟩ := allocNode_ok (i := a.1) (t := a.2) ha
                cases h
                refine .inr ⟨.leaf v.1, by rw [i1, h3]; rfl, ?_, ?_, by simp [Tree.levels], ?_, ?_⟩
                · rw [h4, h3]
                  rfl
                · exact bitsAt_append b12 (show s.rpos.toNat + 2 ≤ 8 * s.cfg.inCap.val by omega) b3
                · rw [h3] at l1
                  simp only [advance_nodes, Config.nodeCap] at l1
                  simp only [Tree.size]
                  omega
                · simp only [serTree, List.length_append, List.length_cons, List.length_nil, bitsOf_length]
                  omega
          · next k0 =>
            have k0 : (k.1 == 1) = false := by simpa using k0
            rw [k0] at b12
            split at h
            · cases h
            · next a ha =>
              obtain ⟨l1, i1, h4⟩ := allocNode_ok (i := a.1) (t := a.2) ha
              rw [h2] at h4 i1 l1
              simp only [advance_nodes, Config.nodeCap] at h4 i1 l1
              have h4 : a.2 = setNodes (s.nodes ++ [.internal 0 0 0]) (advance 2 s) := h4
              split at h
              · cases h
              · next x hx =>
                split at h
                · cases h
                · next li sl =>
                  rw [h4] at hx
                  rcases ih hx with ⟨hn, -⟩ | ⟨l, ol, ul, bl, ll, nl, rl⟩
                  · cases hn
                  · cases ol
                    split at h
                    · cases h
                    · next y hy =>
                      split at h
                      · cases h
                      · next ri sr =>
                        rw [ul] at hy
                        rcases ih hy with ⟨hn, -⟩ | ⟨r, or, ur, br, lr, nr, rr⟩
                        · cases hn
                        · cases or
                          cases h
                          have a2 := advance_rpos_toNat (show s.rpos.toNat + 2 ≤ 8 * s.cfg.inCap.val by omega)
                          simp only [setNodes_nodes, List.length_append, List.length_singleton, setNodes_rpos, a2] at nl rl
                          have rl' : s.rpos.toNat + 2 + (serTree l).length ≤ 8 * s.cfg.inCap.val := rl
                          have pr : (parsed (setNodes (s.nodes ++ [.internal 0 0 0]) (advance 2 s)) l).rpos.toNat =
                              s.rpos.toNat + 2 + (serTree l).length := by
                            simp only [parsed, setNodes_rpos, advance_setNodes]
                            rw [advance_rpos_toNat (by rw [a2]; exact rl'), a2]
                          have pn : (parsed (setNodes (s.nodes ++ [.internal 0 0 0]) (advance 2 s)) l).nodes.length =
                              s.nodes.length + 1 + Tree.size l := by
                            simp [parsed]
                            omega
                          rw [pn] at nr
                          rw [pr] at rr
                          have rr' : s.rpos.toNat + 2 + (serTree l).length + (serTree r).length ≤
                            8 * s.cfg.inCap.val := rr
                          refine .inr ⟨.node l r, by rw [i1], ?_, ?_, by simp only [Tree.levels]; omega,
                            by simp only [Tree.size]; omega, ?_⟩
                          · rw [← parsed_node (by omega) rl', ur, i1, pn]
                            simp
                          · have bl' : BitsAt (advance 2 s) (advance 2 s).rpos.toNat (serTree l) := bl
                            have br' : BitsAt (advance (serTree l).length (advance 2 s))
                              (advance (serTree l).length (advance 2 s)).rpos.toNat (serTree r) := br
                            have := bitsAt_append bl' (by rw [a2]; exact rl') br'
                            have := bitsAt_append b12 (by simp only [List.length_append, List.length_singleton]; omega) this
                            simpa [serTree] using this
                          · simp only [serTree, List.length_append, List.length_cons, List.length_nil]
                            omega

/-- How the parser fails on a legal input length (44_tree_codec.md R170). -/
theorem parse_error {levels : Nat} {s : State} {x : Exn} (hi : InputOk s) (h : parse levels s = .error x) :
    x = .raise .streamUnderrun ∨ x = .raise .malformedTree := by
  have hread : ∀ {n : Nat} {u : State} {y : Exn}, InputOk u → readBits n u = .error y → y = .raise .streamUnderrun := by
    intro n u y hu hy
    rcases readBits_cases n u with ⟨-, h'⟩ | ⟨-, -, h'⟩ | ⟨h1, h2, -⟩
    · rw [h'] at hy
      cases hy
      rfl
    · rw [h'] at hy
      cases hy
    · unfold InputOk at hu
      omega
  have halloc : ∀ {n : Node} {u : State} {y : Exn}, allocNode n u = .error y → y = .raise .malformedTree := by
    intro n u y hy
    unfold allocNode at hy
    split at hy
    · cases hy
    · cases hy
      rfl
  induction levels generalizing s x with
  | zero =>
    cases h
    exact .inr rfl
  | succ lv ih =>
    simp only [parse, bind, Except.bind, pure, Except.pure] at h
    split at h
    · next y hy =>
      cases h
      exact .inl (hread hi hy)
    · next e he =>
      have hi1 : InputOk e.2 := by
        obtain ⟨h1, -⟩ := readBits_ok (v := e.1) (t := e.2) he
        rw [h1]
        exact inputOk_advance hi
      split at h
      · cases h
      · split at h
        · next y hy =>
          cases h
          exact .inl (hread hi1 hy)
        · next k hk =>
          have hi2 : InputOk k.2 := by
            obtain ⟨h1, -⟩ := readBits_ok (v := k.1) (t := k.2) hk
            rw [h1]
            exact inputOk_advance hi1
          split at h
          · split at h
            · next y hy =>
              cases h
              exact .inl (hread hi2 hy)
            · split at h
              · next y hy =>
                cases h
                exact .inr (halloc hy)
              · cases h
          · split at h
            · next y hy =>
              cases h
              exact .inr (halloc hy)
            · next a ha =>
              have hi3 : InputOk a.2 := by
                obtain ⟨-, -, h1⟩ := allocNode_ok (i := a.1) (t := a.2) ha
                rw [h1]
                exact hi2
              split at h
              · next y hy =>
                cases h
                exact ih hi3 hy
              · next z hz =>
                split at h
                · cases h
                  exact .inr rfl
                · next li sl =>
                  have hi4 : InputOk sl := by
                    rw [parse_frame hz]
                    exact hi3
                  split at h
                  · next y hy =>
                    cases h
                    exact ih hi4 hy
                  · split at h
                    · cases h
                      exact .inr rfl
                    · cases h

/-- The parser's step for an internal node, up to its left child. -/
theorem parse_internal {lv : Nat} {s : State} {q : Bits} (hi : InputOk s)
    (h : BitsAt s s.rpos.toNat (true :: false :: q)) (hn : s.nodes.length < 511) :
    parse (lv + 1) s =
      (do
        match ← parse lv (setNodes (s.nodes ++ [.internal 0 0 0]) (advance 2 s)) with
        | (none, _) => .error (.raise .malformedTree)
        | (some l, s') =>
          match ← parse lv s' with
          | (none, _) => .error (.raise .malformedTree)
          | (some r, s'') =>
            pure (some (BitVec.ofNat 9 s.nodes.length), setNode (BitVec.ofNat 9 s.nodes.length) (.internal 0 l r) s'')) := by
  obtain ⟨h1, h2, -, -⟩ := readTwo hi h
  have h4 : allocNode (.internal 0 0 0) (advance 2 s) =
      .ok (BitVec.ofNat 9 s.nodes.length, setNodes (s.nodes ++ [.internal 0 0 0]) (advance 2 s)) :=
    allocNode_of_room hn
  simp only [parse, h1, h2, h4, bind, Except.bind, pure, Except.pure]
  rw [if_neg (by decide), if_neg (by decide)]
  -- the matches of the two sides are different constants in some builds, and then `rw` does not close the goal
  all_goals
    generalize parse lv (setNodes (s.nodes ++ [.internal 0 0 0]) (advance 2 s)) = x
    match x with
    | .error e => rfl
    | .ok (none, u) => rfl
    | .ok (some l, u) =>
      simp only
      generalize parse lv u = y
      match y with
      | .error e => rfl
      | .ok (none, u) => rfl
      | .ok (some r, u) => rfl

/-- A tree with too many levels or nodes (44_tree_codec.md R171, R174). -/
theorem parse_too_big {t : Tree} {levels : Nat} {s : State} {rest : Bits} (hi : InputOk s)
    (h : BitsAt s s.rpos.toNat (serTree t ++ rest)) (hb : levels < Tree.levels t ∨ 511 < s.nodes.length + Tree.size t) :
    parse levels s = .error (.raise .malformedTree) := by
  induction t generalizing levels s rest with
  | leaf b =>
    cases levels with
    | zero => rfl
    | succ lv =>
      simp only [Tree.levels, Tree.size] at hb
      simp only [serTree, List.cons_append, List.nil_append] at h
      obtain ⟨h1, h2, h3, hroom⟩ := readTwo hi h
      have h4 := readBits_value (inputOk_advance hi) h3
      have h5 : allocNode (.leaf b 0) (advance 8 (advance 2 s)) = .error (.raise .malformedTree) :=
        allocNode_full (show 511 ≤ s.nodes.length by omega)
      simp only [parse, h1, h2, h4, h5, bind, Except.bind, pure, Except.pure]
      rw [if_neg (by decide), if_pos (by decide)]
  | node l r ihl ihr =>
    cases levels with
    | zero => rfl
    | succ lv =>
      simp only [Tree.levels, Tree.size] at hb
      simp only [serTree, List.cons_append, List.nil_append, List.append_assoc] at h
      obtain ⟨h1, h2, h3, hroom⟩ := readTwo hi h
      by_cases hn : s.nodes.length < 511
      · rw [parse_internal hi h hn]
        have hi2 := inputOk_setNodes (ns := s.nodes ++ [.internal 0 0 0]) (inputOk_advance (n := 2) hi)
        have hb2 := bitsAt_setNodes (ns := s.nodes ++ [.internal 0 0 0]) h3
        have hlen : (setNodes (s.nodes ++ [.internal 0 0 0]) (advance 2 s)).nodes.length = s.nodes.length + 1 := by simp
        by_cases hl : lv < Tree.levels l ∨ 511 < s.nodes.length + 1 + Tree.size l
        · rw [ihl hi2 hb2 (by rw [hlen]; exact hl)]
          rfl
        · rw [parse_tree hi2 hb2 (by omega) (by rw [hlen]; omega)]
          have hlen2 : (parsed (setNodes (s.nodes ++ [.internal 0 0 0]) (advance 2 s)) l).nodes.length =
              s.nodes.length + 1 + Tree.size l := by
            simp [parsed]
            omega
          have := ihr (inputOk_parsed hi2) (bitsAt_parsed hi2 hb2) (levels := lv) (by rw [hlen2]; omega)
          simp only [bind, Except.bind]
          rw [this]
      · have h4 : allocNode (.internal 0 0 0) (advance 2 s) = .error (.raise .malformedTree) :=
          allocNode_full (show 511 ≤ s.nodes.length by omega)
        simp only [parse, h1, h2, h4, bind, Except.bind, pure, Except.pure]
        rw [if_neg (by decide), if_neg (by decide)]

/-! ## Behind open nodes -/

/-- The parser's state when the left child of an internal node is to be parsed. -/
def entered (s : State) : State := setNodes (s.nodes ++ [.internal 0 0 0]) (advance 2 s)

/-- The parser's state behind the open nodes of a path. -/
def opened : OpenPath → State → State
  | [], s => s
  | none :: p, s => opened p (entered s)
  | some l :: p, s => opened p (parsed (entered s) l)

theorem openPath_length_le (p : OpenPath) : p.length ≤ openLevels p := by
  induction p with
  | nil => exact Nat.le_refl 0
  | cons o p ih => cases o <;> simp only [List.length_cons, openLevels] <;> omega

theorem entered_nodes_length (s : State) : (entered s).nodes.length = s.nodes.length + 1 := by simp [entered]

theorem parsed_nodes_length (s : State) (t : Tree) : (parsed s t).nodes.length = s.nodes.length + Tree.size t := by
  simp [parsed]

/-- Where the reader and the arena stand behind one more open node. -/
theorem entered_spec {s : State} {q : Bits} (hi : InputOk s) (h : BitsAt s s.rpos.toNat (true :: false :: q)) :
    InputOk (entered s) ∧ BitsAt (entered s) (entered s).rpos.toNat q ∧ (entered s).rpos.toNat = s.rpos.toNat + 2 := by
  obtain ⟨-, -, h3, hroom⟩ := readTwo hi h
  exact ⟨inputOk_advance (n := 2) hi, bitsAt_setNodes h3, by rw [entered, setNodes_rpos, advance_rpos_toNat (by omega)]⟩

/-- Where the reader and the arena stand behind a subtree. -/
theorem parsed_spec {s : State} {t : Tree} {q : Bits} (hi : InputOk s) (h : BitsAt s s.rpos.toNat (serTree t ++ q)) :
    InputOk (parsed s t) ∧ BitsAt (parsed s t) (parsed s t).rpos.toNat q ∧
      (parsed s t).rpos.toNat = s.rpos.toNat + (serTree t).length := by
  refine ⟨inputOk_parsed hi, bitsAt_parsed hi h, ?_⟩
  have := h.1
  rw [List.length_append] at this
  unfold InputOk at hi
  rw [parsed, setNodes_rpos, advance_rpos_toNat (by omega)]

/-- Where the reader and the arena stand behind the open nodes, and which bits come next. -/
theorem opened_spec {p : OpenPath} {s : State} {rest : Bits} (hi : InputOk s)
    (h : BitsAt s s.rpos.toNat (openBits p ++ rest)) :
    InputOk (opened p s) ∧ BitsAt (opened p s) (opened p s).rpos.toNat rest ∧
      (opened p s).nodes.length = s.nodes.length + openNodes p ∧ (opened p s).inLen = s.inLen ∧
      (opened p s).rpos.toNat = s.rpos.toNat + (openBits p).length := by
  induction p generalizing s with
  | nil => exact ⟨hi, h, rfl, rfl, rfl⟩
  | cons o p ih =>
    cases o with
    | none =>
      obtain ⟨hi2, hb2, hr2⟩ := entered_spec hi h
      obtain ⟨i1, b1, n1, l1, r1⟩ := ih hi2 hb2
      rw [entered_nodes_length] at n1
      simp only [opened, openNodes, openBits, List.length_append, List.length_cons, List.length_nil]
      exact ⟨i1, b1, by omega, l1, by omega⟩
    | some l =>
      simp only [openBits, List.append_assoc] at h
      obtain ⟨hi2, hb2, hr2⟩ := entered_spec hi h
      obtain ⟨hi3, hb3, hr3⟩ := parsed_spec hi2 hb2
      obtain ⟨i1, b1, n1, l1, r1⟩ := ih hi3 hb3
      rw [parsed_nodes_length, entered_nodes_length] at n1
      simp only [opened, openNodes, openBits, List.length_append, List.length_cons, List.length_nil]
      exact ⟨i1, b1, by omega, l1, by omega⟩

/-- The parse of an internal node with nothing or a whole left subtree behind it fails as what comes next does. -/
theorem parse_open_node {o : Option Tree} {lv : Nat} {s : State} {rest : Bits} (hi : InputOk s)
    (h : BitsAt s s.rpos.toNat (openBits [o] ++ rest)) (hn : s.nodes.length + openNodes [o] ≤ 511)
    (hl : openLevels [o] ≤ lv + 1) :
    (∀ x, parse lv (opened [o] s) = .error x → parse (lv + 1) s = .error x) ∧
      ∀ u, parse lv (opened [o] s) = .ok (none, u) → parse (lv + 1) s = .error (.raise .malformedTree) := by
  cases o with
  | none =>
    simp only [openNodes] at hn
    rw [parse_internal hi h (by omega)]
    simp only [opened, entered]
    exact ⟨fun x hx => by rw [hx]; rfl, fun u hu => by rw [hu]; rfl⟩
  | some l =>
    simp only [openNodes] at hn
    simp only [openLevels] at hl
    simp only [openBits, List.append_assoc, List.append_nil] at h
    obtain ⟨hi2, hb2, -⟩ := entered_spec hi h
    rw [parse_internal hi h (by omega), show setNodes (s.nodes ++ [.internal 0 0 0]) (advance 2 s) = entered s from rfl,
      parse_tree hi2 hb2 (by omega) (by rw [entered_nodes_length]; omega)]
    simp only [opened, bind, Except.bind]
    exact ⟨fun x hx => by rw [hx], fun u hu => by rw [hu]⟩

/-- A failure behind open nodes is the failure of the parse (44_tree_codec.md R170). -/
theorem parse_opened_error {p : OpenPath} {levels : Nat} {s : State} {rest : Bits} {x : Exn} (hi : InputOk s)
    (h : BitsAt s s.rpos.toNat (openBits p ++ rest)) (hn : s.nodes.length + openNodes p ≤ 511)
    (hl : openLevels p ≤ levels) (he : parse (levels - p.length) (opened p s) = .error x) :
    parse levels s = .error x := by
  induction p generalizing levels s with
  | nil => exact he
  | cons o p ih =>
    obtain ⟨lv, rfl⟩ : ∃ lv, levels = lv + 1 := ⟨levels - 1, by cases o <;> simp only [openLevels] at hl <;> omega⟩
    have hb : openBits (o :: p) = openBits [o] ++ openBits p := by cases o <;> simp [openBits]
    have hs : opened (o :: p) s = opened p (opened [o] s) := by cases o <;> rfl
    have hn1 : openNodes (o :: p) = openNodes [o] + openNodes p := by cases o <;> simp only [openNodes] <;> omega
    have hl1 : openLevels [o] ≤ openLevels (o :: p) ∧ openLevels p + 1 ≤ openLevels (o :: p) := by
      cases o <;> simp only [openLevels] <;> omega
    rw [hb, List.append_assoc] at h
    obtain ⟨hi2, hb2, hn2, -, -⟩ := opened_spec hi h
    refine (parse_open_node hi h (by omega) (by omega)).1 x (ih hi2 hb2 (by omega) (by omega) ?_)
    rw [← hs, show lv - p.length = lv + 1 - (o :: p).length by rw [List.length_cons]; omega]
    exact he

/-- A NIL child behind open nodes (44_tree_codec.md R173). -/
theorem parse_opened_nil {p : OpenPath} {levels : Nat} {s : State} {rest : Bits} (hi : InputOk s)
    (h : BitsAt s s.rpos.toNat (openBits p ++ false :: rest)) (hp : p ≠ []) (hn : s.nodes.length + openNodes p ≤ 511)
    (hl : openLevels p ≤ levels) (hd : p.length < levels) : parse levels s = .error (.raise .malformedTree) := by
  induction p generalizing levels s with
  | nil => exact absurd rfl hp
  | cons o p ih =>
    obtain ⟨lv, rfl⟩ : ∃ lv, levels = lv + 1 := ⟨levels - 1, by omega⟩
    have hb : openBits (o :: p) = openBits [o] ++ openBits p := by cases o <;> simp [openBits]
    have hn1 : openNodes (o :: p) = openNodes [o] + openNodes p := by cases o <;> simp only [openNodes] <;> omega
    have hl1 : openLevels [o] ≤ openLevels (o :: p) ∧ openLevels p + 1 ≤ openLevels (o :: p) := by
      cases o <;> simp only [openLevels] <;> omega
    rw [List.length_cons] at hd
    rw [hb, List.append_assoc] at h
    obtain ⟨hi2, hb2, hn2, -, -⟩ := opened_spec hi h
    have hnode := parse_open_node hi h (show _ ≤ 511 by omega) (lv := lv) (by omega)
    by_cases hp' : p = []
    · subst hp'
      exact hnode.2 _ (parse_nil hi2 (by omega) hb2)
    · exact hnode.1 _ (ih hi2 hb2 hp' (by omega) (by omega) (by omega))

/-- Behind 256 open nodes no bit is read (44_tree_codec.md R171). -/
theorem parse_opened_deep {p : OpenPath} {s : State} (hi : InputOk s) (h : BitsAt s s.rpos.toNat (openBits p))
    (hn : s.nodes.length + openNodes p ≤ 511) (hl : openLevels p ≤ p.length) :
    parse p.length s = .error (.raise .malformedTree) :=
  parse_opened_error (rest := []) hi (by rwa [List.append_nil]) hn hl (by rw [Nat.sub_self]; rfl)

/-- Behind 511 nodes the next one finds no room, once its own bits are read (44_tree_codec.md R174). -/
theorem parse_opened_full {p : OpenPath} {levels : Nat} {s : State} {q rest : Bits} (hi : InputOk s)
    (h : BitsAt s s.rpos.toNat (openBits p ++ (q ++ rest))) (hq : q = [true, false] ∨ ∃ b, q = serTree (.leaf b))
    (hn : s.nodes.length + openNodes p = 511) (hl : openLevels p ≤ levels) (hd : p.length < levels) :
    parse levels s = .error (.raise .malformedTree) := by
  obtain ⟨hi2, hb2, hn2, -, -⟩ := opened_spec hi h
  refine parse_opened_error hi h (by omega) hl ?_
  obtain ⟨lv, hlv⟩ : ∃ lv, levels - p.length = lv + 1 := ⟨levels - p.length - 1, by omega⟩
  rw [hlv]
  rcases hq with rfl | ⟨b, rfl⟩
  · obtain ⟨h1, h2, -, -⟩ := readTwo hi2 hb2
    have h4 : allocNode (.internal 0 0 0) (advance 2 (opened p s)) = .error (.raise .malformedTree) :=
      allocNode_full (show 511 ≤ (opened p s).nodes.length by omega)
    simp only [parse, h1, h2, h4, bind, Except.bind, pure, Except.pure]
    rw [if_neg (by decide), if_neg (by decide)]
  · exact parse_too_big hi2 hb2 (.inr (by simp only [Tree.size]; omega))

/-- The input ends inside the bits of a leaf, or before a node (44_tree_codec.md R170). -/
theorem parse_cut_leaf {b : Byte} {levels n : Nat} {s : State} (hi : InputOk s) (hl : 0 < levels)
    (hlt : n < (serTree (.leaf b)).length) (he : s.rpos.toNat + n = 8 * s.inLen.toNat)
    (h : BitsAt s s.rpos.toNat ((serTree (.leaf b)).take n)) : parse levels s = .error (.raise .streamUnderrun) := by
  have hcap : 8 * s.inLen.toNat ≤ 8 * s.cfg.inCap.val := by
    unfold InputOk at hi
    omega
  obtain ⟨lv, rfl⟩ : ∃ lv, levels = lv + 1 := ⟨levels - 1, by omega⟩
  match n with
  | 0 => simp [parse, readBits_of_underrun (n := 1) (s := s) (by omega), bind, Except.bind]
  | 1 =>
    simp only [serTree, List.cons_append, List.nil_append, List.take_succ_cons, List.take_zero] at h
    have h2 : readBits 1 (advance 1 s) = .error (.raise .streamUnderrun) :=
      readBits_of_underrun (by rw [advance_rpos_toNat (by omega), advance_inLen]; omega)
    simp only [parse, readBits_one hi h, h2, bind, Except.bind]
    rw [if_neg (by decide)]
  | m + 2 =>
    simp only [serTree, List.cons_append, List.nil_append, List.take_succ_cons] at h
    simp only [serTree, List.length_append, List.length_cons, List.length_nil, bitsOf_length] at hlt
    obtain ⟨h1, h2, -, -⟩ := readTwo hi h
    have h3 : readBits 8 (advance 2 s) = .error (.raise .streamUnderrun) :=
      readBits_of_underrun (by rw [advance_rpos_toNat (by omega), advance_inLen]; omega)
    simp only [parse, h1, h2, h3, bind, Except.bind, pure, Except.pure]
    rw [if_neg (by decide), if_pos (by decide)]

/-- The input ends inside a tree (44_tree_codec.md R170). -/
theorem parse_cut {t : Tree} {levels n : Nat} {s : State} (hi : InputOk s) (hl : Tree.levels t ≤ levels)
    (hn : s.nodes.length + Tree.size t ≤ 511) (hlt : n < (serTree t).length) (he : s.rpos.toNat + n = 8 * s.inLen.toNat)
    (h : BitsAt s s.rpos.toNat ((serTree t).take n)) : parse levels s = .error (.raise .streamUnderrun) := by
  have hcap : 8 * s.inLen.toNat ≤ 8 * s.cfg.inCap.val := by
    unfold InputOk at hi
    omega
  induction t generalizing levels s n with
  | leaf b => exact parse_cut_leaf hi (by have := Tree.levels_pos (.leaf b); omega) hlt he h
  | node l r ihl ihr =>
    obtain ⟨lv, rfl⟩ : ∃ lv, levels = lv + 1 := ⟨levels - 1, by have := Tree.levels_pos (.node l r); omega⟩
    simp only [Tree.size] at hn
    simp only [Tree.levels] at hl
    match n with
    | 0 => simp [parse, readBits_of_underrun (n := 1) (s := s) (by omega), bind, Except.bind]
    | 1 =>
      simp only [serTree, List.cons_append, List.nil_append, List.take_succ_cons, List.take_zero] at h
      have h2 : readBits 1 (advance 1 s) = .error (.raise .streamUnderrun) :=
        readBits_of_underrun (by rw [advance_rpos_toNat (by omega), advance_inLen]; omega)
      simp only [parse, readBits_one hi h, h2, bind, Except.bind]
      rw [if_neg (by decide)]
    | m + 2 =>
      simp only [serTree, List.cons_append, List.nil_append, List.take_succ_cons] at h
      simp only [serTree, List.length_append, List.length_cons, List.length_nil] at hlt
      obtain ⟨h1, h2, h3, -⟩ := readTwo hi h
      rw [parse_internal hi h (by omega)]
      have hi2 := inputOk_setNodes (ns := s.nodes ++ [.internal 0 0 0]) (inputOk_advance (n := 2) hi)
      have hb2 := bitsAt_setNodes (ns := s.nodes ++ [.internal 0 0 0]) h3
      have hlen : (setNodes (s.nodes ++ [.internal 0 0 0]) (advance 2 s)).nodes.length = s.nodes.length + 1 := by simp
      have hr2 : (setNodes (s.nodes ++ [.internal 0 0 0]) (advance 2 s)).rpos.toNat = s.rpos.toNat + 2 := by
        rw [setNodes_rpos, advance_rpos_toNat (by omega)]
      by_cases hm : m < (serTree l).length
      · rw [List.take_append_of_le_length (by omega)] at hb2
        rw [ihl hi2 (by omega) (by rw [hlen]; omega) hm (by rw [hr2]; exact (show s.rpos.toNat + 2 + m = 8 * s.inLen.toNat by omega)) hb2 hcap]
        rfl
      · rw [List.take_append, List.take_of_length_le (by omega)] at hb2
        rw [parse_tree hi2 hb2 (by omega) (by rw [hlen]; omega)]
        have hlen2 : (parsed (setNodes (s.nodes ++ [.internal 0 0 0]) (advance 2 s)) l).nodes.length =
            s.nodes.length + 1 + Tree.size l := by
          simp [parsed]
          omega
        have hr3 : (parsed (setNodes (s.nodes ++ [.internal 0 0 0]) (advance 2 s)) l).rpos.toNat =
            s.rpos.toNat + 2 + (serTree l).length := by
          have hx : (setNodes (s.nodes ++ [.internal 0 0 0]) (advance 2 s)).rpos.toNat + (serTree l).length ≤
              8 * (setNodes (s.nodes ++ [.internal 0 0 0]) (advance 2 s)).cfg.inCap.val := by
            rw [hr2]
            exact (show s.rpos.toNat + 2 + (serTree l).length ≤ 8 * s.cfg.inCap.val by omega)
          rw [parsed, setNodes_rpos, advance_rpos_toNat hx, hr2]
        have := ihr (inputOk_parsed hi2) (levels := lv) (by omega) (by rw [hlen2]; omega)
          (n := m - (serTree l).length) (by omega)
          (by rw [hr3]; exact (show s.rpos.toNat + 2 + (serTree l).length + (m - (serTree l).length) = 8 * s.inLen.toNat by omega))
          (bitsAt_parsed hi2 hb2) hcap
        simp only [bind, Except.bind]
        rw [this]

/-- The input ends before the next node behind open nodes, or inside its own bits (44_tree_codec.md R170). -/
theorem parse_opened_cut {p : OpenPath} {levels k : Nat} {s : State} {b : Byte} (hi : InputOk s)
    (h : BitsAt s s.rpos.toNat (openBits p ++ (serTree (.leaf b)).take k)) (hk : k < 10)
    (hn : s.nodes.length + openNodes p ≤ 511) (hl : openLevels p ≤ levels) (hd : p.length < levels)
    (he : s.rpos.toNat + (openBits p).length + k = 8 * s.inLen.toNat) :
    parse levels s = .error (.raise .streamUnderrun) := by
  obtain ⟨hi2, hb2, hn2, hl2, hr2⟩ := opened_spec hi h
  exact parse_opened_error hi h hn hl
    (parse_cut_leaf (n := k) hi2 (by omega) (by simpa [serTree] using hk) (by rw [hl2, hr2]; omega) hb2)

/-! ## The command -/

/-- `TC.DES` when the parse succeeds (44_tree_codec.md R169). -/
theorem execTcDes_of_ok {s u : State} {o : Option NodeIx} (h : parse Config.maxDepth (discardTree s) = .ok (o, u)) :
    execTcDes s = .next { u with err := .ok, root := o } := by
  simp only [execTcDes, desBody, h, bind, Except.bind, pure, Except.pure, settle_ok]
  rfl

/-- `TC.DES` when the parse fails (60_exceptions.md R252). -/
theorem execTcDes_of_error {s : State} {e : ErrCode}
    (h : parse Config.maxDepth (discardTree s) = .error (.raise e)) :
    execTcDes s = .next { s with err := e, nodes := [], root := none } := by
  simp only [execTcDes, desBody, h, bind, Except.bind, settle_raise]
  rfl

end Sys2Proof.Machine
end

