-- ==== Sys2Proof/Laws/Stream.lean ====
section
/-! SUPPORT. Streams: the bytes of a written bit string, the bits of an output that stands as an input, the first steps of
`COMPRESS` and the whole stream it emits (46_compress.md R200). -/

namespace Sys2Proof.Machine

/-! ## Bytes and bits -/

/-- Every byte that appending completes has a value. -/
theorem putBit1_some {s : State} (b : Bool) (hroom : s.outLen.toNat + 1 < 2 ^ 32) {i : Nat}
    (h1 : s.outLen.toNat ≤ i) (h2 : i < (putBit1 s b).outLen.toNat) : ((putBit1 s b).obuf.read i).isSome = true := by
  rcases putBit1_cases s b with ⟨-, h⟩ | ⟨-, h⟩
  · rw [h, storeByte_outLen_toNat _ hroom] at h2
    obtain rfl : i = s.outLen.toNat := by omega
    rw [h, storeByte_obuf, Memory.read_write_same]
    rfl
  · rw [h] at h2
    simp only at h2
    omega

theorem foldl_putBit1_some (q : Bits) {s : State} (hw : WriterOk s) (room : writePos s + q.length ≤ writeCap s)
    {i : Nat} (h1 : s.outLen.toNat ≤ i) (h2 : i < (q.foldl putBit1 s).outLen.toNat) :
    ((q.foldl putBit1 s).obuf.read i).isSome = true := by
  induction q generalizing s with
  | nil =>
    simp only [List.foldl_nil] at h2
    omega
  | cons b q ih =>
    simp only [List.length_cons] at room
    obtain ⟨-, hwrap⟩ := outLen_lt_of_room (n := q.length + 1) room (by omega)
    obtain ⟨-, g2, g3, g4, -⟩ := putBit1_spec b hw (by omega)
    have hcap := writeCap_putBit1 s b
    rw [List.foldl_cons] at h2 ⊢
    by_cases hi : (putBit1 s b).outLen.toNat ≤ i
    · exact ih g3 (by rw [g2, hcap]; omega) hi h2
    · obtain ⟨-, -, -, -, f5⟩ := foldl_putBit1_spec q g3 (by rw [g2, hcap]; omega)
      rw [f5 i (by omega)]
      exact putBit1_some b hwrap h1 (by omega)

theorem flatMap_bytes_length (m : Memory) (n : Nat) :
    ((List.range n).flatMap (fun i => bitsOf ((m.read i).getD 0))).length = 8 * n := by
  induction n with
  | zero => rfl
  | succ n ih =>
    rw [List.range_succ, List.flatMap_append, List.length_append, ih]
    simp
    omega

@[simp] theorem writtenBits_length (s : State) : (writtenBits s).length = writePos s := by
  have := s.wcnt.isLt
  rw [writtenBits, List.length_append, flatMap_bytes_length, List.length_take, bitsOf_length, writePos]
  omega

/-- The bits of one byte of the output. -/
theorem writtenBits_byte {s : State} {i : Nat} (h : i < s.outLen.toNat) :
    bitsOf ((s.obuf.read i).getD 0) = ((writtenBits s).drop (8 * i)).take 8 := by
  obtain ⟨k, hk⟩ : ∃ k, s.outLen.toNat = i + 1 + k := ⟨s.outLen.toNat - (i + 1), by omega⟩
  rw [writtenBits, hk, List.range_add, List.flatMap_append, List.range_succ, List.flatMap_append, List.append_assoc,
    List.append_assoc, List.drop_left' (flatMap_bytes_length _ _)]
  rw [List.take_left' (by simp)]
  simp

theorem bitsOf_inj {n : Nat} {v w : BitVec n} (h : bitsOf v = bitsOf w) : v = w := by
  have := congrArg numOf h
  rw [numOf_bitsOf, numOf_bitsOf] at this
  exact BitVec.eq_of_toNat_eq this

/-- A byte of the output, from its bits. -/
theorem read_of_writtenBits {s : State} {i : Nat} {v : Byte} {p q : Bits} (h : i < s.outLen.toNat)
    (hs : (s.obuf.read i).isSome = true) (hb : writtenBits s = p ++ (bitsOf v ++ q)) (hp : p.length = 8 * i) :
    s.obuf.read i = some v := by
  obtain ⟨w, hw⟩ := Option.isSome_iff_exists.1 hs
  have := writtenBits_byte h
  rw [hb, List.drop_left' hp, List.take_left' (by simp), hw, Option.getD_some] at this
  rw [hw, bitsOf_inj this]

/-! ## An output as an input -/

theorem inBits_byte (u : State) (i : Nat) : inBits u (8 * i) 8 = bitsOf (inByte u i) := by
  apply List.ext_getElem
  · simp
  · intro k h1 h2
    simp only [inBits_length] at h1
    rw [inBits_getElem, bitsOf_getElem, inBit]
    rw [show (8 * i + k) / 8 = i by omega, show 7 - (8 * i + k) % 8 = 8 - 1 - k by omega]

theorem inBits_bytes (u : State) (n : Nat) : inBits u 0 (8 * n) = (List.range n).flatMap (fun i => bitsOf (inByte u i)) := by
  induction n with
  | zero => rfl
  | succ n ih =>
    rw [Nat.mul_succ, inBits_append, ih, Nat.zero_add, inBits_byte, List.range_succ, List.flatMap_append]
    simp

theorem inBits_of_bytes {t u : State} {n : Nat} (hn : n ≤ t.outLen.toNat)
    (h : ∀ i, i < n → t.obuf.read i = some (inByte u i)) : inBits u 0 (8 * n) = (writtenBits t).take (8 * n) := by
  rw [inBits_bytes]
  have h1 : (List.range n).flatMap (fun i => bitsOf (inByte u i)) =
      (List.range n).flatMap (fun i => bitsOf ((t.obuf.read i).getD 0)) :=
    List.flatMap_congr fun i hi => by rw [h i (List.mem_range.1 hi), Option.getD_some]
  obtain ⟨k, hk⟩ : ∃ k, t.outLen.toNat = n + k := ⟨t.outLen.toNat - n, by omega⟩
  rw [h1, writtenBits, hk, List.range_add, List.flatMap_append, List.append_assoc,
    List.take_left' (flatMap_bytes_length _ _)]

/-- A whole output, of whole bytes, that stands as an input. -/
theorem Presented.bitsAt {t u : State} {q : Bits} (h : Presented t u) (hw : t.wcnt = 0) (hb : writtenBits t = q) :
    BitsAt u 0 q := by
  have hl : q.length = 8 * u.inLen.toNat := by
    rw [← hb, writtenBits_length, writePos, hw, h.1]
    rfl
  refine ⟨by omega, ?_⟩
  have := inBits_of_bytes (le_refl _) h.2
  rw [List.take_of_length_le (by rw [writtenBits_length, writePos, hw]; simp), hb, ← h.1, ← hl] at this
  exact this

/-- The big-endian count is the first 32 bits (47_decompress.md R216). -/
theorem headerCount_eq (s : State) : headerCount s = numOf (inBits s 0 32) := by
  have h : inBits s 0 32 = bitsOf (inByte s 0) ++ (bitsOf (inByte s 1) ++ (bitsOf (inByte s 2) ++ bitsOf (inByte s 3))) := by
    rw [show 32 = 8 * 4 from rfl, inBits_bytes]
    simp [List.range_succ]
  have happ : ∀ q r : Bits, numOf (q ++ r) = numOf q * 2 ^ r.length + numOf r := fun q r => by
    rw [numOf, List.foldl_append, foldl_bits]
    rfl
  rw [h, happ, happ, happ]
  simp only [numOf_bitsOf, List.length_append, bitsOf_length, headerCount]
  omega

/-! ## The first steps of `COMPRESS` -/

/-- Counts, tree and codes of the input (46_compress.md R200 steps 1 and 2). -/
structure Analysed (s a : State) : Prop where
  frame : a = { s with freqCount := a.freqCount, freqOrder := a.freqOrder, nodes := a.nodes, root := a.root,
                       code := a.code }
  tab : Tabulates a (inputBytes s)
  arena : ArenaOk a
  empty : a.freqOrder = [] → a.nodes = [] ∧ a.root = none ∧ ∀ b, codeOf a b = none
  tree : a.freqOrder ≠ [] → ∃ t, Denotes a t ∧ (Tree.symbols t).Perm a.freqOrder ∧ ∀ b, codeOf a b = lastPath t b

theorem analyseBody_spec {s : State} (hi : InputOk s) :
    ∃ c b a, countBody s = .ok c ∧ buildBody c = .ok b ∧ genBody b = .ok a ∧ analyseBody s = .ok a ∧ Analysed s a := by
  have hi' : s.inLen.toNat ≤ s.cfg.inCap.val := hi
  obtain ⟨c, hc, fc, tc⟩ := countBody_spec hi
  have hf : FreqOk c := tc.freqOk (by rw [inputBytes_length, fc]; exact hi')
  obtain ⟨b, hb, fb, ab, e0, e1⟩ := buildBody_arena hf
  obtain ⟨a, ha, fa, ga, ta⟩ := genBody_spec ab
  refine ⟨c, b, a, hc, hb, ha, by simp [analyseBody, hc, hb, ha, bind, Except.bind], ?_⟩
  have hac : a.freqCount = c.freqCount ∧ a.freqOrder = c.freqOrder ∧ a.nodes = b.nodes ∧ a.root = b.root := by
    rw [fa, fb]
    exact ⟨rfl, rfl, rfl, rfl⟩
  constructor
  · rw [fa, fb, fc]
  · constructor
    · intro x
      rw [countOf, hac.1]
      exact tc.count x
    · rw [hac.2.1]
      exact tc.nodup
    · rw [hac.2.1]
      exact tc.mem
    · rw [hac.2.1]
      exact tc.order
  · rw [fa]
    exact ab
  · rw [hac.2.1, hac.2.2.1, hac.2.2.2]
    exact fun h => ⟨(e0 h).1, (e0 h).2, ga (e0 h).2⟩
  · rw [hac.2.1]
    intro h
    obtain ⟨t, ht, hp⟩ := e1 h
    refine ⟨t, ?_, hp, ta t ht⟩
    rw [fa]
    exact ht

/-- The bits of the stream of a nonempty input before padding (20_memory.md R65, R69). -/
def streamBits (a : State) (t : Tree) : Bits := bitsOf a.inLen ++ serTree t ++ codesOf a (inputBytes a)

theorem Analysed.inputBytes {s a : State} (h : Analysed s a) : Machine.inputBytes a = Machine.inputBytes s := by
  rw [h.frame]
  rfl

/-- Steps 3 to 5 are one append of the whole stream (46_compress.md R200). -/
theorem emitBody_eq {s : State} {t : Tree} (hne : s.freqOrder ≠ []) (ht : Denotes s t) :
    emitBody (emptyWriter s) = (do
      let u ← putSeq (streamBits s t) (emptyWriter s)
      let u ← finalBody u
      pure (discardTree u)) := by
  obtain ⟨r, hr, hin⟩ := ht.treeIn
  have hw : WriterOk (emptyWriter s) := ⟨Nat.zero_le _, fun k _ => by simp⟩
  have hser : ∀ u, u.nodes = s.nodes → u.root = s.root → serBody u = putSeq (serTree t) u := fun u h1 h2 => by
    have : treeIn u r = .ok t := by
      rw [treeIn, h1]
      exact hin
    simp [serBody, serBits, h2, hr, this, bind, Except.bind, pure, Except.pure]
  simp only [emitBody, putBits, bind, Except.bind]
  cases h1 : putSeq (bitsOf (emptyWriter s).inLen) (emptyWriter s) with
  | error x =>
    have hx := putSeq_error h1
    subst hx
    rw [putSeq_of_no_room]
    rcases putSeq_cases (bitsOf (emptyWriter s).inLen) (emptyWriter s) with ⟨-, hq⟩ | ⟨room, -⟩
    · rw [hq] at h1
      cases h1
    · simp only [streamBits, List.length_append, emptyWriter_inLen] at room ⊢
      omega
  | ok u =>
    have hu := (putSeq_appended hw h1).2
    obtain ⟨o1, n1, a1, c1, f1⟩ := putSeq_frame h1
    have hord : u.freqOrder ≠ [] := by
      rw [f1]
      exact hne
    simp only [if_neg hord]
    rw [hser u (by rw [f1]; rfl) (by rw [f1]; rfl)]
    have e1 := putSeq_append (r := serTree t) h1 hw
    rw [e1]
    cases h2 : putSeq (bitsOf (emptyWriter s).inLen ++ serTree t) (emptyWriter s) with
    | error x =>
      have hx := putSeq_error h2
      subst hx
      rw [putSeq_of_no_room]
      rcases putSeq_cases (bitsOf (emptyWriter s).inLen ++ serTree t) (emptyWriter s) with ⟨-, hq⟩ | ⟨room, -⟩
      · rw [hq] at h2
        cases h2
      · simp only [streamBits, List.length_append, emptyWriter_inLen] at room ⊢
        omega
    | ok v =>
      have hv := (putSeq_appended hw h2).2
      obtain ⟨o2, n2, a2, c2, f2⟩ := putSeq_frame h2
      simp only
      rw [appendCodes_eq hv, putSeq_append h2 hw]
      have e2 : codesOf v (Machine.inputBytes v) = codesOf s (Machine.inputBytes s) := by
        rw [f2]
        rfl
      rw [e2]
      rfl

/-- The padding that `BW.FINAL` appends, and what it leaves (43_bit_writer_reader.md R151). -/
theorem finalBody_spec {s : State} (hw : WriterOk s) :
    ∃ t, finalBody s = .ok t ∧ writtenBits t = writtenBits s ++ padding s.wcnt.toNat ∧ t.wcnt = 0 ∧ t.wacc = 0 ∧
      WriterOk t ∧ t.outLen.toNat = (writePos s + 7) / 8 ∧ s.outLen.toNat ≤ t.outLen.toNat ∧
      ObufSameOutside s t s.outLen.toNat t.outLen.toNat ∧
      (∀ i, s.outLen.toNat ≤ i → i < t.outLen.toNat → (t.obuf.read i).isSome = true) ∧
      t = { s with obuf := t.obuf, outLen := t.outLen, wacc := t.wacc, wcnt := t.wcnt } := by
  have hc := s.wcnt.isLt
  rcases finalBody_cases s with ⟨h0, h⟩ | ⟨h0, hlt, h⟩ | ⟨h0, hge, -⟩
  · have h0n : s.wcnt.toNat = 0 := by rw [h0]; rfl
    refine ⟨s, h, by simp [padding, h0n], h0, ?_, hw, ?_, le_refl _, fun _ _ => rfl, fun i h1 h2 => by omega, rfl⟩
    · apply BitVec.eq_of_getLsbD_eq
      intro k hk
      rw [hw.2 k (by omega)]
      simp
    · rw [writePos, h0n]
      omega
  · have hcap := s.cfg.outCap.property
    have hwrap : s.outLen.toNat + 1 < 2 ^ 32 := by omega
    have h0n : s.wcnt.toNat ≠ 0 := fun e => h0 (BitVec.eq_of_toNat_eq (by simpa using e))
    have hbits : bitsOf s.wacc = (bitsOf s.wacc).take s.wcnt.toNat ++ padding s.wcnt.toNat := by
      apply List.ext_getElem
      · simp only [bitsOf_length, List.length_append, List.length_take, padding, List.length_replicate]
        omega
      · intro k h1 h2
        simp only [bitsOf_length] at h1
        rw [List.getElem_append]
        split
        · rw [List.getElem_take]
        · next hk =>
          simp only [List.length_take, bitsOf_length] at hk
          simp only [padding, List.getElem_replicate, bitsOf_getElem]
          exact hw.2 _ (by omega)
    refine ⟨storeByte s.wacc s, h, ?_, by simp, by simp, ?_, ?_, ?_, ?_, ?_, rfl⟩
    · rw [writtenBits_storeByte _ hwrap]
      conv_lhs => rw [hbits]
      rw [writtenBits, List.append_assoc]
    · refine ⟨?_, fun k _ => by simp⟩
      rw [writePos, storeByte_outLen_toNat _ hwrap]
      have := hw.1
      simp only [writeCap, storeByte_cfg, storeByte_wcnt] at this ⊢
      simp
      omega
    · rw [storeByte_outLen_toNat _ hwrap, writePos]
      omega
    · rw [storeByte_outLen_toNat _ hwrap]
      omega
    · intro i hi
      rw [storeByte_outLen_toNat _ hwrap] at hi
      rw [storeByte_obuf]
      exact Memory.read_write_other _ _ _ _ (by omega)
    · intro i h1 h2
      rw [storeByte_outLen_toNat _ hwrap] at h2
      obtain rfl : i = s.outLen.toNat := by omega
      simp
  · have := outLen_lt_of_partial hw h0
    omega

end Sys2Proof.Machine
end

