-- ==== Sys2Proof/Tests/Slice0.lean ====
section
/-! SUPPORT. Tests on fixed values, each taken from the spec (V numbers are those of 95_test_vectors.md), and a witness
for every statement of Certificates/Slice0/Obligations.lean that has hypotheses. -/

namespace Sys2Proof.Tests

open Sys2Proof.Machine

set_option Elab.async false

/-! ## Helpers -/

/-- The next state of an outcome, the reset state where there is none. -/
def nextOf : Host.Outcome State Fault Refusal → State
  | .next s => s
  | .fault _ => State.reset
  | .refused _ => State.reset

/-- Whether an outcome is a next state. -/
def isNext : Host.Outcome State Fault Refusal → Bool
  | .next _ => true
  | .fault _ => false
  | .refused _ => false

theorem eq_next {o : Host.Outcome State Fault Refusal} (h : isNext o = true) : o = .next (nextOf o) := by
  cases o with
  | next s => rfl
  | fault f => cases h
  | refused r => cases h

/-- What is seen of the next state of a command, if there is one. -/
def seen {α : Type} (f : State → α) (i : Instr) (s : State) : Option α :=
  match exec i s with
  | .next t => some (f t)
  | .fault _ => none
  | .refused _ => none

/-- The reset state with an input loaded, as the directive `.in` leaves it (30_encoding.md R99). -/
def loaded (bs : List Byte) : State :=
  { State.reset with ibuf := bs.zipIdx.map (fun p => (p.2, p.1)), inLen := BitVec.ofNat 32 bs.length }

/-- A state with `OUT_CAP` changed. -/
def withCap (n : Nat) (h : 4 ≤ n ∧ n ≤ 2 ^ 29 - 1) (s : State) : State :=
  { s with cfg := { s.cfg with outCap := ⟨n, h⟩ } }

/-- `OUT_CAP = 4`. -/
def cap4 (s : State) : State := withCap 4 (by decide) s

/-- A state whose writer holds some bytes, then the top bits of `WACC`. -/
def written (bs : List Byte) (acc : Byte) (cnt : BitVec 3) (s : State) : State :=
  { s with obuf := bs.zipIdx.map (fun p => (p.2, p.1)), outLen := BitVec.ofNat 32 bs.length, wacc := acc, wcnt := cnt }

/-- What the host sees of the writer: `OBUF` below `OUT_LEN`, `WACC`, `WCNT`, and `ERR`. -/
def writerView (s : State) : List (Option Byte) × Byte × BitVec 3 × ErrCode := (outputBytes s, s.wacc, s.wcnt, s.err)

/-- `RESULT`, `RPOS` and `ERR`. -/
def readerView (s : State) : Word32 × Word32 × ErrCode := (s.result, s.rpos, s.err)

/-- The arena, `ROOT`, `RPOS` and `ERR`. -/
def treeView (s : State) : List Node × Option NodeIx × Word32 × ErrCode := (s.nodes, s.root, s.rpos, s.err)

/-- The tree of V13, made from "aaab". -/
def withTree13 (s : State) : State := { s with nodes := [.leaf 0x61 3, .leaf 0x62 1, .internal 4 1 0], root := some 2 }

/-- The same tree as `TC.DES` leaves it, V66. -/
def withTree66 (s : State) : State := { s with nodes := [.internal 0 1 2, .leaf 0x62 0, .leaf 0x61 0], root := some 0 }

/-- The tree of V10, one leaf. -/
def withLeaf (s : State) : State := { s with nodes := [.leaf 0x61 5], root := some 0 }

/-- The abstract tree of V13 and V66. -/
def tree13 : Tree := .node (.leaf 0x62) (.leaf 0x61)

/-- The code table of V22. -/
def withTable22 (s : State) : State :=
  { s with code := tableSet (tableSet emptyTable 0x62 (some [false])) 0x61 (some [true]) }

/-- The frequency table of "aaab", V2. -/
def withFreq2 (s : State) : State :=
  { s with freqCount := tableSet (tableSet zeroCounts 0x61 3) 0x62 1, freqOrder := [0x61, 0x62] }

/-- "aaab". -/
def aaab : List Byte := [0x61, 0x61, 0x61, 0x62]

/-- The stream of V86. -/
def stream86 : List Byte := [0x00, 0x00, 0x00, 0x04, 0xB6, 0x2D, 0x87, 0x80]

/-! ## Well-formed words and the decoder -/

/-- V126: an `op` that is not in the table. -/
theorem test_wf_refuses_unassigned_op :
    opAssigned 0x0200000000000000#64 = false ∧ wellFormed 0x0200000000000000#64 = false ∧
      decode 0x0200000000000000#64 = .error .opUnassigned := by decide +kernel

/-- V128: a reserved bit. -/
theorem test_wf_refuses_reserved_bit :
    reservedZero 0x4300000100000000#64 = false ∧ wellFormed 0x4300000100000000#64 = false ∧
      decode 0x4300000100000000#64 = .error .reservedNonzero := by decide +kernel

/-- V127: a bit of `arg` outside the operand. -/
theorem test_wf_refuses_wide_operand :
    operandFits 0x4100000000000002#64 = false ∧ wellFormed 0x4100000000000002#64 = false ∧
      operandFits 0x4200000000000100#64 = false ∧ operandFits 0x7000000000000001#64 = false ∧
      decode 0x4100000000000002#64 = .error .operandTooWide ∧
      decode 0x4200000000000100#64 = .error .operandTooWide ∧
      decode 0x7000000000000001#64 = .error .operandTooWide ∧
      decode 0x0100000000000001#64 = .error .operandTooWide := by decide +kernel

/-- The encodings of 40_freq_counter.md to 42_code_generator.md and 48_system.md, format `N`. -/
theorem test_decode_reset_counter_builder_generator :
    decode 0x0100000000000000#64 = .ok .reset ∧ decode 0x1000000000000000#64 = .ok .fqCount ∧
      decode 0x2000000000000000#64 = .ok .tbBuild ∧ decode 0x3000000000000000#64 = .ok .cgGen := by decide +kernel

/-- The encodings of 43_bit_writer_reader.md; the operands stand in `arg` from bit 0. -/
theorem test_decode_writer :
    decode 0x4000000000000000#64 = .ok .bwInit ∧ decode 0x4100000000000001#64 = .ok (.bwPutbit 1) ∧
      decode 0x4100000000000000#64 = .ok (.bwPutbit 0) ∧ decode 0x42000000000000A5#64 = .ok (.bwPutbyte 0xA5) ∧
      decode 0x4300000001020304#64 = .ok (.bwPutu32 0x01020304) ∧
      decode 0x4400000000000000#64 = .ok .bwFinal := by decide +kernel

theorem test_decode_reader :
    decode 0x48000000FFFFFFFF#64 = .ok (.brSeek 0xFFFFFFFF) ∧ decode 0x4900000000000000#64 = .ok .brGetbit ∧
      decode 0x4A00000000000000#64 = .ok .brGetbyte ∧ decode 0x4B00000000000000#64 = .ok .brGetu32 := by
  decide +kernel

/-- The encodings of 44_tree_codec.md to 47_decompress.md. -/
theorem test_decode_codec_datapath_streams :
    decode 0x5000000000000000#64 = .ok .tcSer ∧ decode 0x5100000000000000#64 = .ok .tcDes ∧
      decode 0x6000000000000061#64 = .ok (.enSym 0x61) ∧ decode 0x6100000000000000#64 = .ok .enPayload ∧
      decode 0x6800000000000000#64 = .ok .deSym ∧ decode 0x69000000000007D0#64 = .ok (.dePayload 2000) ∧
      decode 0x7000000000000000#64 = .ok .compress ∧ decode 0x7100000000000000#64 = .ok .decompress := by
  decide +kernel

/-- 30_encoding.md R97: the assembler's word, and its three complaints. -/
theorem test_assemble :
    assemble "BW.PUTBYTE" (some 0x61) = .ok 0x4200000000000061#64 ∧
      assemble "COMPRESS" none = .ok 0x7000000000000000#64 ∧
      assemble "BW.PUTBIT" (some 2) = .error .operandTooLarge ∧ assemble "BR.SEEK" none = .error .operandMissing ∧
      assemble "RESET" (some 1) = .error .operandUnexpected ∧ assemble "NOP" none = .error .unknownMnemonic := by
  decide +kernel

/-- 30_encoding.md R98. -/
theorem test_pseudo :
    expandPseudo (.putbits [true, false, true]) = [.bwPutbit 1, .bwPutbit 0, .bwPutbit 1] ∧
      expandPseudo (.putleaf 0x61) = [.bwPutbit 1, .bwPutbit 1, .bwPutbyte 0x61] ∧
      expandPseudo .skiphdr = [.brSeek 32] := by decide +kernel

/-- 30_encoding.md R99: `.in 61 62`, and `.loop` of an output of two bytes. -/
theorem test_directives :
    directiveIn [0x61, 0x62] = [.writeIbuf 0 0x61, .writeIbuf 1 0x62, .writeReg 3 2] ∧
      directiveLoop (written [0xD8, 0x40] 0 0 State.reset) =
        some [.writeIbuf 0 0xD8, .writeIbuf 1 0x40, .writeReg 3 2] := by decide +kernel

/-! ## The commands -/

/-- V129: `RESET` after other commands. -/
theorem test_reset :
    seen writerView .reset (withTable22 (withTree13 (withFreq2 (written [1] 0x80 1 (loaded aaab))))) =
        some ([], 0, 0, .ok) ∧
      seen (fun t => (t.inLen, t.nsym, t.nodes, t.root)) .reset
          (withTable22 (withTree13 (withFreq2 (written [1] 0x80 1 (loaded aaab))))) =
        some (0, 0, [], none) ∧
      seen (fun t => codeOf t 0x61) .reset (withTable22 State.reset) = some none := by decide +kernel

/-- V6. -/
theorem test_fqCount_first_occurrence :
    seen (fun t => (t.freqOrder, countOf t 0x00, countOf t 0xFF, countOf t 0x61)) .fqCount
        (loaded [0x00, 0xFF, 0xFF, 0x00, 0x00]) = some ([0x00, 0xFF], 3, 2, 0) := by decide +kernel

/-- V8: a second count starts from nothing. -/
theorem test_fqCount_starts_afresh :
    seen (fun t => (t.freqOrder, countOf t 0x61, countOf t 0x62)) .fqCount (withFreq2 (loaded [0x62])) =
      some ([0x62], 0, 1) := by decide +kernel

/-- V13: the lighter leaf is the left child. -/
theorem test_tbBuild_lighter_left :
    seen treeView .tbBuild (withFreq2 State.reset) =
      some ([.leaf 0x61 3, .leaf 0x62 1, .internal 4 1 0], some 2, 0, .ok) := by decide +kernel

/-- V15: among equal weights the node that entered the queue first comes first. -/
theorem test_tbBuild_ties :
    seen treeView .tbBuild
        { State.reset with
          freqCount := tableSet (tableSet (tableSet zeroCounts 0x61 2) 0x62 1) 0x63 1, freqOrder := [0x61, 0x62, 0x63] } =
      some ([.leaf 0x61 2, .leaf 0x62 1, .leaf 0x63 1, .internal 2 1 2, .internal 4 0 3], some 4, 0, .ok) := by
  decide +kernel

/-- V22: left is `0`, right is `1`. -/
theorem test_cgGen :
    seen (fun t => (codeOf t 0x61, codeOf t 0x62, codeOf t 0x63)) .cgGen (withTree13 State.reset) =
      some (some [true], some [false], none) := by decide +kernel

/-- V27: of two leaves with one symbol the right one's code stays. -/
theorem test_cgGen_last_leaf :
    seen (fun t => codeOf t 0x61) .cgGen
        { State.reset with nodes := [.internal 0 1 2, .leaf 0x61 0, .leaf 0x61 0], root := some 0 } =
      some (some [true]) := by decide +kernel

/-- 43_bit_writer_reader.md R146. -/
theorem test_bwInit :
    seen (fun t => (t.outLen, t.wacc, t.wcnt, t.rpos)) .bwInit (written [1, 2] 0x80 1 { State.reset with rpos := 9 }) =
      some (0, 0, 0, 9) := by decide +kernel

/-- V29: the eighth bit completes the byte. -/
theorem test_bwPutbit_completes :
    seen writerView (.bwPutbit 1) (written [] 0xBE 7 State.reset) = some ([some 0xBF], 0, 0, .ok) := by decide +kernel

/-- V40: no room for a pending bit. -/
theorem test_bwPutbit_full :
    seen writerView (.bwPutbit 0) (cap4 (written [0, 0, 0, 7] 0 0 State.reset)) =
      some ([some 0, some 0, some 0, some 7], 0, 0, .capacityExceeded) := by decide +kernel

/-- V31 and V32: unaligned bytes. -/
theorem test_bwPutbyte_unaligned :
    seen writerView (.bwPutbyte 0xFF) (written [] 0x80 1 State.reset) = some ([some 0xFF], 0x80, 1, .ok) ∧
      seen writerView (.bwPutbyte 0x80) (written [] 0x00 1 State.reset) = some ([some 0x40], 0x00, 1, .ok) := by
  decide +kernel

/-- V41: 25 and 8 bits do not fit in 32. -/
theorem test_bwPutbyte_full :
    seen writerView (.bwPutbyte 4) (cap4 (written [1, 2, 3] 0x80 1 State.reset)) =
      some ([some 1, some 2, some 3], 0x80, 1, .capacityExceeded) := by decide +kernel

/-- V34. -/
theorem test_bwPutu32 :
    seen writerView (.bwPutu32 0xFFFFFFFF) (written [] 0xA0 3 State.reset) =
      some ([some 0xBF, some 0xFF, some 0xFF, some 0xFF], 0xE0, 3, .ok) := by decide +kernel

/-- V35 and V36. -/
theorem test_bwFinal :
    seen writerView .bwFinal (written [0xBF] 0xE0 3 State.reset) = some ([some 0xBF, some 0xE0], 0, 0, .ok) ∧
      seen writerView .bwFinal (written [0xBF, 0xE0] 0 0 State.reset) = some ([some 0xBF, some 0xE0], 0, 0, .ok) := by
  decide +kernel

/-- V46: any offset, also beyond the input. -/
theorem test_brSeek : seen readerView (.brSeek 0xFFFFFFFF) (loaded [0xA5, 0x3C]) = some (0, 0xFFFFFFFF, .ok) := by
  decide +kernel

/-- V42: bit 1 of `A5` is `0`, bit 2 is `1`. -/
theorem test_brGetbit :
    seen readerView .brGetbit { loaded [0xA5, 0x3C] with rpos := 1 } = some (0, 2, .ok) ∧
      seen readerView .brGetbit { loaded [0xA5, 0x3C] with rpos := 2 } = some (1, 3, .ok) := by decide +kernel

/-- V46: no wrap at the top. -/
theorem test_brGetbit_underrun :
    seen readerView .brGetbit { loaded [0xA5, 0x3C] with rpos := 0xFFFFFFFF } =
      some (0, 0xFFFFFFFF, .streamUnderrun) := by decide +kernel

/-- V43 and V45. -/
theorem test_brGetbyte :
    seen readerView .brGetbyte { loaded [0xA5, 0x3C] with rpos := 4 } = some (0x53, 12, .ok) ∧
      seen readerView .brGetbyte { loaded [0xA5, 0x3C] with rpos := 9 } = some (0, 9, .streamUnderrun) := by
  decide +kernel

/-- V47. -/
theorem test_brGetu32 :
    seen readerView .brGetu32 { loaded [0x00, 0x00, 0x01, 0x00, 0x80] with rpos := 1 } = some (0x201, 33, .ok) ∧
      seen readerView .brGetu32 { loaded [0x00, 0x00, 0x01, 0x00, 0x80] with rpos := 9 } =
        some (0, 9, .streamUnderrun) := by decide +kernel

/-- V50 and V52. -/
theorem test_tcSer :
    seen writerView .tcSer State.reset = some ([], 0, 1, .ok) ∧
      seen writerView .tcSer (withTree13 State.reset) = some ([some 0xB6, some 0x2D], 0x84, 6, .ok) := by decide +kernel

/-- V57 and V56: an exact fit, and one bit too many. -/
theorem test_tcSer_capacity :
    seen writerView .tcSer (cap4 (withTree13 (written [0xEE] 0xC0 2 State.reset))) =
        some ([some 0xEE, some 0xED, some 0x8B, some 0x61], 0, 0, .ok) ∧
      seen writerView .tcSer (cap4 (withTree13 (written [0xEE, 0xEE] 0x80 1 State.reset))) =
        some ([some 0xEE, some 0xEE], 0x80, 1, .capacityExceeded) := by decide +kernel

/-- V66: pre-order entries. -/
theorem test_tcDes :
    seen treeView .tcDes { loaded stream86 with rpos := 32 } =
      some ([.internal 0 1 2, .leaf 0x62 0, .leaf 0x61 0], some 0, 54, .ok) := by decide +kernel

/-- V60, V61, V62 and V58. -/
theorem test_tcDes_failures :
    [withTree13 (loaded [0x80]), loaded [0xB6, 0x10], loaded [0xB0], loaded [0x00]].map (seen treeView .tcDes) =
      [some ([], none, 0, .malformedTree), some ([], none, 0, .malformedTree), some ([], none, 0, .streamUnderrun),
        some ([], none, 1, .ok)] := by decide +kernel

/-- V72. -/
theorem test_enSym :
    seen writerView (.enSym 0x61) (withTable22 (written [] 0x80 2 State.reset)) = some ([], 0xA0, 3, .ok) ∧
      seen writerView (.enSym 0x63) (withTable22 (written [] 0x80 2 State.reset)) =
        some ([], 0x80, 2, .unmappedSymbol) := by decide +kernel

/-- S6: the payload `1110` of "aaab"; 60_exceptions.md R251: nothing is kept when a later symbol fails. -/
theorem test_enPayload :
    seen writerView .enPayload (withTable22 (loaded aaab)) = some ([], 0xE0, 4, .ok) ∧
      seen writerView .enPayload (withTable22 (loaded [0x61, 0x63])) = some ([], 0, 0, .unmappedSymbol) := by
  decide +kernel

/-- V100 and V102. -/
theorem test_deSym :
    seen readerView .deSym { withTree66 (loaded stream86) with rpos := 57 } = some (0x62, 58, .ok) ∧
      seen readerView .deSym State.reset = some (0, 0, .malformedHeader) := by decide +kernel

/-- V101: a tree of one leaf needs no bit, also beyond the input. -/
theorem test_deSym_leaf :
    seen readerView .deSym { withLeaf (loaded [0xD8, 0x40]) with rpos := 1000 } = some (0x61, 1000, .ok) := by
  decide +kernel

/-- V104: four symbols, and eleven where there are ten. -/
theorem test_dePayload :
    seen (fun t => (outputBytes t, t.rpos, t.err)) (.dePayload 4) { withTree66 (loaded stream86) with rpos := 54 } =
        some ([some 0x61, some 0x61, some 0x61, some 0x62], 58, .ok) ∧
      seen (fun t => (outputBytes t, t.rpos, t.err)) (.dePayload 11) { withTree66 (loaded stream86) with rpos := 54 } =
        some ([], 54, .streamUnderrun) := by decide +kernel

/-- V104: the capacity is tested before the payload is read. -/
theorem test_dePayload_capacity :
    seen (fun t => (outputBytes t, t.rpos, t.err)) (.dePayload 2000) { withTree66 (loaded stream86) with rpos := 54 } =
      some ([], 54, .capacityExceeded) := by decide +kernel

/-- V86. -/
theorem test_compress :
    seen (fun t => (outputBytes t, t.root, t.nodes, t.err)) .compress (loaded aaab) =
        some (stream86.map some, none, [], .ok) ∧
      seen (fun t => (t.freqOrder, codeOf t 0x61)) .compress (loaded aaab) = some ([0x61, 0x62], some [true]) := by decide +kernel

/-- V98: one byte too few. -/
theorem test_compress_capacity :
    seen (fun t => (t.outLen, t.wcnt, t.root, t.err)) .compress (withCap 7 (by decide) (loaded aaab)) =
        some (0, 0, none, .capacityExceeded) ∧
      seen (fun t => (t.freqOrder, codeOf t 0x62)) .compress (withCap 7 (by decide) (loaded aaab)) =
        some ([0x61, 0x62], some [false]) := by decide +kernel

/-- V113 and V118. -/
theorem test_decompress :
    seen (fun t => (outputBytes t, t.rpos, t.root, t.err)) .decompress (loaded stream86) =
        some (aaab.map some, 58, none, .ok) ∧
      seen (fun t => (outputBytes t, t.rpos, t.root, t.err)) .decompress
          (loaded [0x00, 0x00, 0x00, 0x02, 0xB6, 0x1D, 0x85]) =
        some ([some 0x61, some 0x61], 56, none, .ok) := by decide +kernel

/-- V119, V120, V121 and V124: the order of the errors, and `RPOS` kept. -/
theorem test_decompress_failures :
    seen readerView .decompress (loaded [0x00, 0x00, 0x00, 0x01, 0x00]) = some (0, 0, .malformedHeader) ∧
      seen readerView .decompress (loaded [0x00, 0x00, 0x00, 0x01, 0x80]) = some (0, 0, .malformedTree) ∧
      seen readerView .decompress (loaded [0xFF, 0xFF, 0xFF, 0xFF, 0xD8, 0x40]) = some (0, 0, .capacityExceeded) ∧
      seen readerView .decompress { loaded [0x00, 0x00, 0x00, 0x04, 0xB6, 0x2D, 0x87] with rpos := 5 } =
        some (0, 5, .streamUnderrun) := by decide +kernel

/-! ## Host and step -/

/-- V126: an illegal word sets `ERR` to 6 and advances to the next action. -/
theorem test_step_illegal_word :
    (nextOf (step (State.reset.withFetchWord 64 0x0200000000000000))).err = .illegalCommand ∧
      (nextOf (step (State.reset.withFetchWord 64 0x0200000000000000))).hostQueue = [] := by decide +kernel

/-- 10_state.md R45: `IN_LEN` is register 3, `ROOT` register 10 and 0xFFFFFFFF for `NONE`. -/
theorem test_host_registers :
    (nextOf (hostAct (.writeReg 3 4) State.reset)).inLen = 4 ∧
      (nextOf (hostAct (.readReg 10) State.reset)).lastRead = some 0xFFFFFFFF ∧
      (nextOf (hostAct (.readReg 1) { State.reset with err := .illegalCommand })).lastRead = some 6 := by decide +kernel

/-- V22 and V26: `CODE_INFO` and `CODE_W`. -/
theorem test_host_code_table :
    (nextOf (hostAct (.readCodeInfo 0x61) (withTable22 State.reset))).lastRead = some 0x80000001 ∧
      (nextOf (hostAct (.readCodeWord 0x61 0) (withTable22 State.reset))).lastRead = some 0x80000000 ∧
      (nextOf (hostAct (.readCodeWord 0x01 7)
        { State.reset with code := tableSet emptyTable 0x01 (some (List.replicate 254 false ++ [true])) })).lastRead =
          some 2 := by decide +kernel

/-! ## Witnesses of the statements' hypotheses -/

/-- A state in which every command but `RESET` has something to do, and every invariant holds. -/
def busy : State := withTable22 (withTree13 (withFreq2 (written [0xEE] 0xC0 2 (loaded aaab))))

theorem busy_denotes : Denotes busy tree13 := ⟨2, rfl, rfl⟩

theorem busy_arena : ArenaOk busy := by
  refine ⟨by decide, by decide, fun r h => ?_⟩
  cases h
  exact ⟨tree13, rfl, rfl, by decide, by decide⟩

theorem busy_inv : Inv busy where
  input := by unfold InputOk; decide
  writer := by unfold WriterOk; decide
  buffers := by unfold BuffersOk; decide
  freq := by unfold FreqOk; decide +kernel
  arena := busy_arena
  code := by
    intro b q h
    have hb : ∀ b, codeOf busy b = if b = 0x61 then some [true] else if b = 0x62 then some [false] else none := by
      decide +kernel
    rw [hb] at h
    split at h
    · cases h; decide
    · split at h
      · cases h; decide
      · cases h

theorem witness_WordsMatchTheTable :
    decode 0x69000000FFFFFFFF#64 = .ok (.dePayload 0xFFFFFFFF) ∧ (⟨0x69#8, "DE.PAYLOAD", .w32⟩ : OpRow) ∈ opTable ∧
      rowEncodes ⟨0x69#8, "DE.PAYLOAD", .w32⟩ 0x69000000FFFFFFFF#64 = true := by decide +kernel

theorem witness_IllegalWordsOnlySetErr : ∃ e, decode 0x6900000100000000#64 = .error e :=
  ⟨.reservedNonzero, by decide +kernel⟩

theorem witness_StepRunsDecodedCommand :
    (State.reset.withFetchWord 64 0x7000000000000000).hostQueue = .writeReg 0 0x7000000000000000#64 :: [] ∧
      decode 0x7000000000000000#64 = .ok .compress ∧ State.reset.hostQueue = [] ∧
      decodeTableWord 64 0x7000000000000000 = some .compress := by decide +kernel

/-- The last index and the first that does not exist, the largest length and the first too large, the registers 10 and
11, the last output byte and the first beyond. -/
theorem witness_HostActionsDoWhatTheTableSays :
    decode 0x7000000000000000#64 = .ok .compress ∧ decode 0x7000000000000001#64 = .error .operandTooWide ∧
      (1023 < State.reset.cfg.inCap.val ∧ State.reset.cfg.inCap.val ≤ 1024) ∧
      ((1024 : BitVec 64).toNat ≤ State.reset.cfg.inCap.val ∧ State.reset.cfg.inCap.val < (1025 : BitVec 64).toNat) ∧
      (3 < busy.cfg.inCap.val ∧ busy.ibuf.read 3 = some 0x62 ∧ busy.ibuf.read 4 = none) ∧
      0 < busy.outLen.toNat ∧ busy.obuf.read 0 = some 0xEE ∧ busy.outLen.toNat ≤ 1 := by decide +kernel

theorem witness_HostReadsRegisters :
    busy.freqOrder.length ≤ 256 ∧ busy.nodes.length ≤ 511 ∧ busy.root = some 2 ∧ State.reset.root = none ∧
      (List.replicate 256 (0 : Byte)).length ≤ 256 ∧ (List.replicate 511 (Node.leaf 0 0)).length ≤ 511 := by
  decide +kernel

theorem witness_HostReadsCodeTable :
    codeOf busy 0x63 = none ∧ codeOf busy 0x61 = some [true] ∧
      codeOf { State.reset with code := tableSet emptyTable 0x00 (some (List.replicate 255 false)) } 0x00 =
        some (List.replicate 255 false) ∧ (List.replicate 255 false).length ≤ 255 := by decide +kernel

theorem witness_PutCommandsAppendTheirBits :
    (WriterOk (cap4 (written [1, 2, 3] 0xFE 7 State.reset)) ∧
      writePos (cap4 (written [1, 2, 3] 0xFE 7 State.reset)) + 1 = writeCap (cap4 State.reset)) ∧
    (WriterOk (cap4 (written [1, 2, 3] 0 0 State.reset)) ∧
      writePos (cap4 (written [1, 2, 3] 0 0 State.reset)) + 8 = writeCap (cap4 State.reset)) ∧
    WriterOk (cap4 State.reset) ∧ writePos (cap4 State.reset) + 32 = writeCap (cap4 State.reset) := by
  unfold WriterOk; decide +kernel

theorem witness_PutCommandsRefuseWhatDoesNotFit :
    writeCap (cap4 State.reset) < writePos (cap4 (written [1, 2, 3, 4] 0 0 State.reset)) + 1 ∧
      writeCap (cap4 State.reset) < writePos (cap4 (written [1, 2, 3] 0 1 State.reset)) + 8 ∧
      writeCap (cap4 State.reset) < writePos (cap4 (written [] 0 1 State.reset)) + 32 := by decide +kernel

theorem witness_BwFinalPadsThePartialByte :
    WriterOk (cap4 (written [1, 2, 3] 0xFE 7 State.reset)) ∧ WriterOk (cap4 (written [1, 2, 3, 4] 0 0 State.reset)) := by
  unfold WriterOk; decide +kernel

theorem witness_ReadCommandsDeliverTheNextBits :
    (InputOk { busy with rpos := 31 } ∧ { busy with rpos := 31 }.rpos.toNat + 1 ≤ 8 * busy.inLen.toNat) ∧
      { busy with rpos := 24 }.rpos.toNat + 8 ≤ 8 * busy.inLen.toNat ∧
      busy.rpos.toNat + 32 ≤ 8 * busy.inLen.toNat := by unfold InputOk; decide +kernel

theorem witness_ReadCommandsUnderrun :
    8 * busy.inLen.toNat < { busy with rpos := 32 }.rpos.toNat + 1 ∧
      8 * busy.inLen.toNat < { busy with rpos := 25 }.rpos.toNat + 8 ∧
      8 * busy.inLen.toNat < { busy with rpos := 1 }.rpos.toNat + 32 := by decide +kernel

/-- The one bit `1`, written and presented: bits 0 and 7 of the byte, and the end of the input. -/
theorem witness_WrittenBitsAreReadBack :
    [true].length ≤ 8 * State.reset.cfg.outCap.val ∧
      (∃ t, runOk [.bwInit, .bwPutbit 1, .bwFinal] State.reset = some t ∧ Presented t (loaded [0x80])) ∧
      InputOk (loaded [0x80]) ∧ ([true] ++ padding 1)[0]? = some true ∧ ([true] ++ padding 1)[7]? = some false ∧
      { loaded [0x80] with rpos := 8 }.rpos.toNat = ([true] ++ padding 1).length := by
  refine ⟨by decide, ⟨_, rfl, ?_⟩, ?_, by decide, by decide, by decide⟩
  · unfold Presented; decide +kernel
  · unfold InputOk; decide

/-- Both values at bit 1 of an empty output. -/
theorem witness_WrittenValuesAreReadBack :
    WriterOk (written [] 0x80 1 State.reset) ∧ InputOk { loaded [0xD2, 0x80] with rpos := 1 } ∧
      { loaded [0xD2, 0x80] with rpos := 1 }.rpos.toNat = writePos (written [] 0x80 1 State.reset) ∧
      writePos (written [] 0x80 1 State.reset) + 32 ≤ writeCap (written [] 0x80 1 State.reset) ∧
      ∃ t f, exec (.bwPutbyte 0xA5) (written [] 0x80 1 State.reset) = .next t ∧ exec .bwFinal t = .next f ∧
        Presented f { loaded [0xD2, 0x80] with rpos := 1 } := by
  refine ⟨?_, ?_, by decide, by decide, _, _, eq_next (by decide +kernel), eq_next (by decide +kernel), ?_⟩
  · unfold WriterOk; decide
  · unfold InputOk; decide
  · unfold Presented; decide +kernel

theorem witness_FqCountTabulatesTheInput : InputOk (loaded aaab) ∧ InputOk (loaded []) := by unfold InputOk; decide

theorem witness_TbBuildMakesTheTree :
    FreqOk busy ∧ busy.freqOrder ≠ [] ∧ FreqOk State.reset ∧ State.reset.freqOrder = [] := by
  unfold FreqOk; decide +kernel

theorem witness_TbBuildMergesTheLightest :
    FreqOk busy ∧ isNext (exec .tbBuild busy) = true ∧
      (nextOf (exec .tbBuild busy)).nodes[2]? = some (.internal 4 1 0) := by unfold FreqOk; decide +kernel

theorem reset_arena : ArenaOk State.reset := ⟨by decide, by decide, fun r h => by cases h⟩

theorem witness_CgGenRecordsThePaths :
    (ArenaOk State.reset ∧ State.reset.root = none) ∧ ArenaOk busy ∧ Denotes busy tree13 :=
  ⟨⟨reset_arena, rfl⟩, busy_arena, busy_denotes⟩

theorem witness_CodeTableIsPrefixFree :
    ArenaOk busy ∧ Denotes busy tree13 ∧ (Tree.symbols tree13).Nodup ∧ 2 ≤ Tree.leaves tree13 ∧
      exec .cgGen busy = .next (nextOf (exec .cgGen busy)) ∧ codeOf (nextOf (exec .cgGen busy)) 0x61 = some [true] ∧
      codeOf (nextOf (exec .cgGen busy)) 0x62 = some [false] :=
  ⟨busy_arena, busy_denotes, by decide, by decide, eq_next (by decide +kernel), by decide +kernel, by decide +kernel⟩

/-- No tree and one bit, a tree of 22 bits: each with its last room and with one bit less. -/
theorem witness_TcSerAppendsTheTree :
    (WriterOk (cap4 (written [1, 2, 3] 0xFE 7 State.reset)) ∧
      writePos (cap4 (written [1, 2, 3] 0xFE 7 State.reset)) + 1 ≤ writeCap (cap4 State.reset) ∧
      WriterOk (cap4 (written [1, 2, 3, 4] 0 0 State.reset)) ∧
      writeCap (cap4 State.reset) < writePos (cap4 (written [1, 2, 3, 4] 0 0 State.reset)) + 1) ∧
    (WriterOk (cap4 busy) ∧ writePos (cap4 busy) + (serTree tree13).length = writeCap (cap4 busy)) ∧
    WriterOk { cap4 busy with wcnt := 3 } ∧
      writeCap (cap4 busy) < writePos { cap4 busy with wcnt := 3 } + (serTree tree13).length := by
  unfold WriterOk; decide +kernel

theorem witness_TcSerAppendsTheTree_denotes : Denotes (cap4 busy) tree13 ∧ Denotes { cap4 busy with wcnt := 3 } tree13 :=
  ⟨⟨2, rfl, rfl⟩, ⟨2, rfl, rfl⟩⟩

theorem witness_TcDesParsesTheSerializedTree :
    (InputOk (loaded [0x00]) ∧ BitsAt (loaded [0x00]) 0 [false]) ∧ InputOk { loaded stream86 with rpos := 32 } ∧
      Tree.size tree13 ≤ 511 ∧ Tree.levels tree13 ≤ 256 ∧
      BitsAt { loaded stream86 with rpos := 32 } 32 (serTree tree13) := by unfold InputOk BitsAt; decide +kernel

theorem witness_TcDesConsumesTheSerializedTree :
    InputOk { loaded stream86 with rpos := 32 } ∧
      exec .tcDes { loaded stream86 with rpos := 32 } =
        .next (nextOf (exec .tcDes { loaded stream86 with rpos := 32 })) ∧
      (nextOf (exec .tcDes { loaded stream86 with rpos := 32 })).err = .ok :=
  ⟨by unfold InputOk; decide, eq_next (by decide +kernel), by decide +kernel⟩

/-- V60 and V61. -/
theorem witness_TcDesRejectsMalformedTrees :
    (InputOk (loaded [0x80]) ∧ BitsAt (loaded [0x80]) 0 [true, false, false]) ∧
      InputOk (loaded [0xB6, 0x10]) ∧ Tree.size (.leaf 0x61) ≤ 510 ∧ Tree.levels (.leaf 0x61) ≤ 255 ∧
      BitsAt (loaded [0xB6, 0x10]) 0 ([true, false] ++ serTree (.leaf 0x61) ++ [false]) := by
  unfold InputOk BitsAt; decide +kernel

theorem read_zipIdx (bs : List Byte) (n i : Nat) :
    Memory.read ((bs.zipIdx n).map (fun p => (p.2, p.1))) (n + i) = bs[i]? := by
  induction bs generalizing n i with
  | nil => rfl
  | cons b bs ih =>
    cases i with
    | zero => simp [Memory.read]
    | succ i =>
      simp only [List.zipIdx_cons, List.map_cons, Memory.read, List.getElem?_cons_succ]
      rw [if_neg (by omega), ← ih (n + 1) i]
      congr 1; omega

theorem loaded_read (bs : List Byte) (i : Nat) : (loaded bs).ibuf.read i = bs[i]? := by
  have := read_zipIdx bs 0 i
  simpa [loaded] using this

/-- A chain of internal nodes, each the left child of the one before, with equal leaves. -/
def chain : Nat → Tree
  | 0 => .leaf 0xFF
  | n + 1 => .node (chain n) (.leaf 0xFF)

/-- The stream of V68: 256 times `10`, then 257 leaves, here all with the symbol `FF`. -/
def tooDeep : State := loaded (List.replicate 64 0xAA ++ List.replicate 321 0xFF ++ [0xC0])

theorem serTree_chain (n : Nat) :
    serTree (chain n) = (List.replicate n [true, false]).flatten ++ List.replicate (10 * (n + 1)) true := by
  have hl : serTree (.leaf 0xFF) = List.replicate 10 true := by decide
  induction n with
  | zero => simpa [chain] using hl
  | succ n ih =>
    rw [List.replicate_succ, List.flatten_cons, chain, serTree, ih, hl,
      show 10 * (n + 1 + 1) = 10 * (n + 1) + 10 by omega, ← List.replicate_append_replicate]
    simp only [List.append_assoc]

/-- The bits of a loaded input are the bits of its bytes. -/
theorem loaded_bitsAt {bs : List Byte} {q : Bits} (hl : bs.length < 2 ^ 32) (h : q <+: bs.flatMap bitsOf) :
    BitsAt (loaded bs) 0 q := by
  obtain ⟨r, hr⟩ := h
  have hin : (loaded bs).inLen.toNat = bs.length := by simpa [loaded] using hl
  have hbs : (List.range bs.length).map (inByte (loaded bs)) = bs := by
    apply List.ext_getElem (by simp)
    intro i h1 h2
    simp [inByte, loaded_read, h2]
  have hall : inBits (loaded bs) 0 (8 * bs.length) = q ++ r := by
    rw [inBits_bytes, hr]
    conv => rhs; rw [← hbs]
    rw [List.flatMap_map]
  have hlen : q.length + r.length = 8 * bs.length := by
    rw [← List.length_append, ← hall, inBits_length]
  rw [← hlen, inBits_append] at hall
  exact ⟨by rw [hin]; omega, List.append_inj_left hall (by simp)⟩

theorem chain_size (n : Nat) : Tree.size (chain n) = 2 * n + 1 ∧ Tree.levels (chain n) = n + 1 := by
  induction n with
  | zero => decide
  | succ n ih =>
    rw [chain, Tree.size, Tree.levels, ih.1, ih.2]
    simp only [Tree.size, Tree.levels]
    omega

theorem witness_TcDesRejectsMalformedTrees_bounds :
    InputOk tooDeep ∧ 511 < Tree.size (chain 256) ∧ 256 < Tree.levels (chain 256) ∧
      BitsAt tooDeep 0 (serTree (chain 256)) := by
  rw [(chain_size 256).1, (chain_size 256).2]
  refine ⟨?_, by decide, by decide, loaded_bitsAt (by decide +kernel) ?_⟩
  · unfold InputOk; decide +kernel
  · rw [serTree_chain]; decide +kernel

/-- 44_tree_codec.md R173 on a deeper node: `10 10 0`, and `10`, a leaf, `10 0`. -/
theorem witness_TcDesRejectsMalformedTrees_deeper_nil :
    (InputOk (loaded [0xA0]) ∧ OpenOk [none, none] ∧ BitsAt (loaded [0xA0]) 0 (openBits [none, none] ++ [false])) ∧
      InputOk (loaded [0xB6, 0x18]) ∧ OpenOk [some (.leaf 0x61), none] ∧
      BitsAt (loaded [0xB6, 0x18]) 0 (openBits [some (.leaf 0x61), none] ++ [false]) := by
  unfold InputOk BitsAt OpenOk; decide +kernel

/-- V69: `AA` × 64, after which nothing follows. -/
theorem witness_TcDesRejectsMalformedTrees_depth :
    InputOk (loaded (List.replicate 64 0xAA)) ∧ OpenOk (List.replicate 256 none) ∧
      (List.replicate 256 (none : Option Tree)).length = 256 ∧
      BitsAt (loaded (List.replicate 64 0xAA)) 0 (openBits (List.replicate 256 none)) := by
  refine ⟨?_, ?_, List.length_replicate, loaded_bitsAt (by decide +kernel) (by decide +kernel)⟩
  · unfold InputOk; decide +kernel
  · unfold OpenOk; decide +kernel

/-- The 512th node is an internal one, and the input ends with its second bit: `10`, a subtree of 509 nodes, `10 10`. -/
theorem witness_TcDesRejectsMalformedTrees_full :
    InputOk (loaded (List.replicate 63 0xAA ++ [0xAB] ++ List.replicate 318 0xFF ++ [0xFA])) ∧
      OpenOk [some (chain 254), none] ∧ openNodes [some (chain 254), none] = 511 ∧
      BitsAt (loaded (List.replicate 63 0xAA ++ [0xAB] ++ List.replicate 318 0xFF ++ [0xFA])) 0
        (openBits [some (chain 254), none] ++ [true, false]) := by
  refine ⟨?_, ?_, by decide +kernel, loaded_bitsAt (by decide +kernel) ?_⟩
  · unfold InputOk; decide +kernel
  · unfold OpenOk; decide +kernel
  · simp only [openBits]
    rw [serTree_chain]
    decide +kernel

/-- V69: `AA` × 63, where the input ends before any bound is met, and V62, where it ends inside a leaf. -/
theorem witness_TcDesUnderruns_open :
    (InputOk (loaded (List.replicate 63 0xAA)) ∧ OpenOk (List.replicate 252 none) ∧
      BitsAt (loaded (List.replicate 63 0xAA)) 0 (openBits (List.replicate 252 none) ++ (serTree (.leaf 0)).take 0)) ∧
    (openBits (List.replicate 252 none)).length + 0 = 8 * (loaded (List.replicate 63 0xAA)).inLen.toNat ∧
    BitsAt (loaded [0xB0]) 0 (openBits [none] ++ (serTree (.leaf 0)).take 6) ∧
    (openBits [none]).length + 6 = 8 * (loaded [0xB0]).inLen.toNat := by
  refine ⟨⟨?_, ?_, loaded_bitsAt (by decide +kernel) (by decide +kernel)⟩, by decide +kernel,
    loaded_bitsAt (by decide +kernel) (by decide +kernel), by decide +kernel⟩
  · unfold InputOk; decide +kernel
  · unfold OpenOk; decide +kernel

theorem witness_TcDesUnderruns :
    (InputOk (loaded []) ∧ 8 * (loaded []).inLen.toNat ≤ (loaded []).rpos.toNat) ∧
      InputOk { loaded [0x00, 0xB6, 0x2D] with rpos := 8 } ∧ Tree.size tree13 ≤ 511 ∧ Tree.levels tree13 ≤ 256 ∧
      16 < (serTree tree13).length ∧ 8 + 16 = 8 * (loaded [0x00, 0xB6, 0x2D]).inLen.toNat ∧
      BitsAt { loaded [0x00, 0xB6, 0x2D] with rpos := 8 } 8 ((serTree tree13).take 16) := by
  unfold InputOk BitsAt; decide +kernel

theorem witness_EnSymAppendsTheCode :
    WriterOk busy ∧ codeOf busy 0x63 = none ∧ codeOf busy 0x61 = some [true] ∧
      writePos (cap4 (written [1, 2, 3] 0xFE 7 busy)) + [true].length = writeCap (cap4 busy) ∧
      writeCap (cap4 busy) < writePos (cap4 (written [1, 2, 3, 4] 0 0 busy)) + [true].length := by
  unfold WriterOk; decide +kernel

theorem witness_EnPayloadAppendsTheCodes :
    WriterOk (cap4 (written [1, 2, 3] 0xF0 4 busy)) ∧ InputOk (cap4 (written [1, 2, 3] 0xF0 4 busy)) ∧
      (∀ b ∈ inputBytes busy, (codeOf busy b).isSome = true) ∧
      writePos (cap4 (written [1, 2, 3] 0xF0 4 busy)) + (codesOf busy (inputBytes busy)).length =
        writeCap (cap4 busy) := by unfold WriterOk InputOk; decide +kernel

/-- "aac", where `c` has no code; and "aaab" with room for three of its four bits. -/
theorem witness_EnPayloadReportsTheFirstCause :
    (inputBytes (withTable22 (loaded [0x61, 0x61, 0x63])) = [0x61, 0x61] ++ 0x63 :: [] ∧
      (∀ b ∈ [(0x61 : Byte), 0x61], (codeOf busy b).isSome = true) ∧ codeOf busy 0x63 = none) ∧
    WriterOk (cap4 (written [1, 2, 3] 0xF8 5 busy)) ∧
      inputBytes (cap4 (written [1, 2, 3] 0xF8 5 busy)) = [0x61, 0x61, 0x61] ++ 0x62 :: [] ∧
      writePos (cap4 (written [1, 2, 3] 0xF8 5 busy)) + (codesOf busy [0x61, 0x61, 0x61]).length ≤
        writeCap (cap4 busy) ∧
      codeOf busy 0x62 = some [false] ∧
      writeCap (cap4 busy) < writePos (cap4 (written [1, 2, 3] 0xF8 5 busy)) +
        (codesOf busy [0x61, 0x61, 0x61]).length + [false].length := by unfold WriterOk; decide +kernel

/-- The last bit of the input, a tree of one leaf, no bit left, and no tree. -/
theorem witness_DeSymDescends :
    (InputOk { busy with rpos := 31 } ∧ (0x62, [false]) ∈ Tree.paths tree13 ∧
      BitsAt { busy with rpos := 31 } 31 [false]) ∧
    (0x61, []) ∈ Tree.paths (.leaf 0x61) ∧
    (8 * busy.inLen.toNat < { busy with rpos := 32 }.rpos.toNat + [false].length ∧
      inBits { busy with rpos := 32 } 32 (8 * busy.inLen.toNat - 32) <+: [false]) ∧
    State.reset.root = none := by unfold InputOk BitsAt; decide +kernel

theorem witness_DeSymDescends_leaf : Denotes (withLeaf State.reset) (.leaf 0x61) := ⟨0, rfl, rfl⟩

/-- V104: the four symbols of "aaab" at bit 54, with `OUT_CAP = 4`. -/
theorem witness_DePayloadDecodesPaths :
    InputOk (cap4 (withTree66 { loaded stream86 with rpos := 54 })) ∧
      (∀ p ∈ [((0x61 : Byte), [true]), (0x61, [true]), (0x61, [true]), (0x62, [false])], p ∈ Tree.paths tree13) ∧
      [((0x61 : Byte), [true]), (0x61, [true]), (0x61, [true]), (0x62, [false])].length ≤ (cap4 busy).cfg.outCap.val ∧
      BitsAt (cap4 (withTree66 { loaded stream86 with rpos := 54 })) 54
        ([((0x61 : Byte), [true]), (0x61, [true]), (0x61, [true]), (0x62, [false])].flatMap Prod.snd) := by
  unfold InputOk BitsAt; decide +kernel

theorem witness_DePayloadDecodesPaths_denotes :
    Denotes (cap4 (withTree66 { loaded stream86 with rpos := 54 })) tree13 := ⟨0, rfl, rfl⟩

/-- No tree; one more than the capacity; and the eleventh symbol of V104, where the input has ten bits. -/
theorem witness_DePayloadZeroAndFailures :
    State.reset.root = none ∧ (busy.root ≠ none ∧ busy.cfg.outCap.val < (1025 : Word32).toNat) ∧
    InputOk (withTree66 { loaded stream86 with rpos := 63 }) ∧ (0x62, [false]) ∈ Tree.paths tree13 ∧
      1 < (2 : Word32).toNat ∧ 8 * (loaded stream86).inLen.toNat < 63 + [false].length + [false].length ∧
      [false].length ≤ 8 * (loaded stream86).inLen.toNat - 63 ∧
      inBits (withTree66 { loaded stream86 with rpos := 63 }) 63 (8 * (loaded stream86).inLen.toNat - 63) <+:
        [false] ++ [false] := by unfold InputOk; decide +kernel

/-- The state of V100 before a `CG.GEN`, at the payload. -/
def atPayload : State := withTree66 { loaded stream86 with rpos := 54 }

theorem atPayload_arena : ArenaOk atPayload := by
  refine ⟨by decide, by decide, fun r h => ?_⟩
  cases h
  exact ⟨tree13, rfl, rfl, by decide, by decide⟩

theorem witness_DePayloadInvertsTheCodes :
    ArenaOk atPayload ∧ InputOk atPayload ∧ exec .cgGen atPayload = .next (nextOf (exec .cgGen atPayload)) ∧
      Denotes (nextOf (exec .cgGen atPayload)) tree13 ∧ (Tree.symbols tree13).Nodup ∧
      (∀ b ∈ aaab, b ∈ Tree.symbols tree13) ∧ aaab.length ≤ (nextOf (exec .cgGen atPayload)).cfg.outCap.val ∧
      BitsAt (nextOf (exec .cgGen atPayload)) (nextOf (exec .cgGen atPayload)).rpos.toNat
        (codesOf (nextOf (exec .cgGen atPayload)) aaab) := by
  refine ⟨atPayload_arena, ?_, eq_next (by decide +kernel), ⟨0, by decide +kernel, by decide +kernel⟩, by decide,
    by decide, by decide +kernel, ?_⟩
  · unfold InputOk; decide
  · unfold BitsAt; decide +kernel

/-- V86 and V98: eight bytes of room, and seven. -/
theorem witness_CompressEmitsTheStream :
    InputOk (withCap 8 (by decide) (loaded aaab)) ∧ (loaded aaab).inLen ≠ 0 ∧
      ((runOk [.fqCount, .tbBuild, .cgGen] (loaded aaab)).map
        (fun a => (bitsOf a.inLen ++ serTree tree13 ++ codesOf a aaab).length)) = some 58 ∧ 58 ≤ 8 * 8 ∧ 8 * 7 < 58 := by
  unfold InputOk; decide +kernel

theorem witness_CompressEmptyInput : State.reset.inLen = 0 := rfl

/-- V80 presented to `DECOMPRESS`. -/
theorem witness_CompressDegenerateInput_presented :
    Presented (nextOf (exec .compress (loaded [0x61, 0x61, 0x61, 0x61, 0x61])))
        (loaded [0x00, 0x00, 0x00, 0x05, 0xD8, 0x40]) ∧
      InputOk (loaded [0x00, 0x00, 0x00, 0x05, 0xD8, 0x40]) := by unfold Presented InputOk; decide +kernel

/-- V80. -/
theorem witness_CompressDegenerateInput :
    InputOk (loaded [0x61, 0x61, 0x61, 0x61, 0x61]) ∧ (loaded [0x61, 0x61, 0x61, 0x61, 0x61]).inLen ≠ 0 ∧
      (∀ i, i < (loaded [0x61, 0x61, 0x61, 0x61, 0x61]).inLen.toNat →
        inByte (loaded [0x61, 0x61, 0x61, 0x61, 0x61]) i = 0x61) ∧
      6 ≤ (withCap 6 (by decide) State.reset).cfg.outCap.val := by unfold InputOk; decide +kernel

/-- V99: the same input after other commands. -/
theorem witness_CompressIsDeterministic :
    busy.cfg = (loaded aaab).cfg ∧ busy.inLen = (loaded aaab).inLen ∧
      (∀ i, i < (loaded aaab).inLen.toNat → inByte busy i = inByte (loaded aaab) i) ∧
      isNext (exec .compress (loaded aaab)) = true ∧ isNext (exec .compress busy) = true := by decide +kernel

theorem witness_CompressEqualsThePrimitives :
    isNext (exec .compress busy) = true ∧ (nextOf (exec .compress busy)).err = .ok := by decide +kernel

theorem witness_CompressOutputSize :
    isNext (exec .compress busy) = true ∧ (nextOf (exec .compress busy)).err = .ok ∧ busy.inLen ≠ 0 ∧
      isNext (exec .compress State.reset) = true ∧ (nextOf (exec .compress State.reset)).err = .ok ∧
      State.reset.inLen = 0 := by decide +kernel

/-- A header of 4 that is met. -/
theorem witness_DecompressReadsTheHeader_count :
    4 ≤ (loaded stream86).inLen.toNat ∧ isNext (exec .decompress (loaded stream86)) = true ∧
      (nextOf (exec .decompress (loaded stream86))).err = .ok := by decide +kernel

/-- Three bytes, and a header of 0 in four. -/
theorem witness_DecompressReadsTheHeader :
    (loaded [0, 0, 0]).inLen.toNat < 4 ∧ InputOk (loaded [0, 0, 0, 0]) ∧ 4 ≤ (loaded [0, 0, 0, 0]).inLen.toNat ∧
      headerCount (loaded [0, 0, 0, 0]) = 0 := by unfold InputOk; decide +kernel

theorem witness_DecompressDecodesAStream :
    InputOk (loaded stream86) ∧ Tree.size tree13 ≤ 511 ∧ Tree.levels tree13 ≤ 256 ∧
      (∀ p ∈ [((0x61 : Byte), [true]), (0x61, [true]), (0x61, [true]), (0x62, [false])], p ∈ Tree.paths tree13) ∧
      [((0x61 : Byte), [true]), (0x61, [true]), (0x61, [true]), (0x62, [false])].length ≤
        (loaded stream86).cfg.outCap.val ∧
      BitsAt (loaded stream86) 0 (bitsOf (BitVec.ofNat 32 4) ++ serTree tree13 ++
        [((0x61 : Byte), [true]), (0x61, [true]), (0x61, [true]), (0x62, [false])].flatMap Prod.snd) := by
  unfold InputOk BitsAt; decide +kernel

theorem witness_DecompressEqualsThePrimitives :
    InputOk (loaded stream86) ∧ 4 ≤ (loaded stream86).inLen.toNat ∧
      (4 : Word32).toNat = headerCount (loaded stream86) ∧ (4 : Word32) ≠ 0 := by unfold InputOk; decide +kernel

/-- The hypotheses on the input and its header `n` that `DECOMPRESS` shares in every case. -/
def HeaderIs (s : State) (n : Word32) : Prop := InputOk s ∧ 4 ≤ s.inLen.toNat ∧ n.toNat = headerCount s ∧ n ≠ 0

/-- What `TC.DES` leaves behind the header. -/
def treeOf (bs : List Byte) : State := nextOf (exec .tcDes { loaded bs with rpos := 32 })

/-- V120, V119, V121 and V117, one for each place where `DECOMPRESS` can end. -/
theorem witness_DecompressReportsInOrder :
    (HeaderIs (loaded [0, 0, 0, 1, 0x80]) 1 ∧ (treeOf [0, 0, 0, 1, 0x80]).err ≠ .ok) ∧
    (HeaderIs (loaded [0, 0, 0, 1, 0]) 1 ∧ (treeOf [0, 0, 0, 1, 0]).err = .ok ∧
      (treeOf [0, 0, 0, 1, 0]).root = none) ∧
    (HeaderIs (loaded [0, 0, 4, 1, 0xD8, 0x40]) 1025 ∧ (treeOf [0, 0, 4, 1, 0xD8, 0x40]).err = .ok ∧
      (treeOf [0, 0, 4, 1, 0xD8, 0x40]).root ≠ none ∧
      (loaded [0, 0, 4, 1, 0xD8, 0x40]).cfg.outCap.val < (1025 : Word32).toNat) ∧
    HeaderIs (loaded [0, 0, 0, 11, 0xB6, 0x2D, 0x87, 0x80]) 11 ∧
      (treeOf [0, 0, 0, 11, 0xB6, 0x2D, 0x87, 0x80]).err = .ok ∧
      (treeOf [0, 0, 0, 11, 0xB6, 0x2D, 0x87, 0x80]).root ≠ none ∧
      isNext (exec (.dePayload 11) (treeOf [0, 0, 0, 11, 0xB6, 0x2D, 0x87, 0x80])) = true ∧
      (nextOf (exec (.dePayload 11) (treeOf [0, 0, 0, 11, 0xB6, 0x2D, 0x87, 0x80]))).err ≠ .ok := by
  unfold HeaderIs InputOk; decide +kernel

/-- The output of V86, presented to an instance with room for just the four bytes. -/
theorem witness_RoundTrip :
    exec .compress (loaded aaab) = .next (nextOf (exec .compress (loaded aaab))) ∧
      (nextOf (exec .compress (loaded aaab))).err = .ok ∧
      Presented (nextOf (exec .compress (loaded aaab))) (cap4 (loaded stream86)) ∧ InputOk (cap4 (loaded stream86)) ∧
      (loaded aaab).inLen.toNat ≤ (cap4 (loaded stream86)).cfg.outCap.val := by
  refine ⟨eq_next (by decide +kernel), by decide +kernel, ?_, ?_, by decide⟩
  · unfold Presented; decide +kernel
  · unfold InputOk; decide

/-- V106 and V107: three bytes of the stream, and seven. -/
theorem witness_TruncatedStreamIsRejected :
    (nextOf (exec .compress (loaded aaab))).err = .ok ∧
      PresentedCut (nextOf (exec .compress (loaded aaab))) (loaded (stream86.take 3)) ∧
      InputOk (loaded (stream86.take 3)) ∧
      PresentedCut (nextOf (exec .compress (loaded aaab))) (loaded (stream86.take 7)) ∧
      InputOk (loaded (stream86.take 7)) ∧ 4 ≤ (loaded (stream86.take 7)).inLen.toNat := by
  unfold PresentedCut InputOk; decide +kernel

theorem witness_DecompressDependsOnTheInputAlone :
    isNext (exec .decompress (loaded stream86)) = true ∧
      isNext (exec .decompress (withTree13 (withTable22 (loaded stream86)))) = true ∧
      (∀ i, i < (loaded stream86).inLen.toNat →
        inByte (withTree13 (withTable22 (loaded stream86))) i = inByte (loaded stream86) i) := by decide +kernel

theorem witness_CommandsReportOnlyTheirErrors :
    isNext (exec .decompress busy) = true ∧ (nextOf (exec .decompress busy)).err = .streamUnderrun := by decide +kernel

/-- A failure of each kind: a command that leaves all as it was, the tree, the writer, both, and a compression. -/
theorem witness_FailuresLeaveTheState :
    (nextOf (exec (.enSym 0x63) busy)).err ≠ .ok ∧ (nextOf (exec .tcDes { busy with rpos := 32 })).err ≠ .ok ∧
      (nextOf (exec (.dePayload 1025) busy)).err ≠ .ok ∧ (nextOf (exec .decompress busy)).err ≠ .ok ∧
      (nextOf (exec .compress (cap4 busy))).err ≠ .ok := by decide +kernel

theorem witness_CommandsAlwaysComplete : Inv busy := busy_inv

theorem witness_StepKeepsInv : Inv busy ∧ isNext (step busy) = true := ⟨busy_inv, by decide +kernel⟩

theorem witness_CommandsKeepTheWriterInvariant : WriterOk busy ∧ isNext (exec .tcSer busy) = true :=
  ⟨busy_inv.writer, by decide +kernel⟩

theorem witness_CommandsWriteOnlyTheirState : isNext (exec .enPayload busy) = true := by decide +kernel

theorem witness_CommandsStoreOnlyWhatTheyAppend :
    isNext (exec .enPayload busy) = true ∧ isNext (exec .compress busy) = true := by decide +kernel

theorem witness_OnlyTheAbstractTreeMatters :
    Denotes (withTree13 State.reset) tree13 ∧ Denotes (withTree66 State.reset) tree13 ∧
      isNext (exec .tcSer (withTree13 State.reset)) = true := ⟨⟨2, rfl, rfl⟩, ⟨0, rfl, rfl⟩, by decide +kernel⟩

end Sys2Proof.Tests
end

section
/-! SUPPORT. Which parts of the state an operation can change (10_state.md R26 to R40, R45). The state is cut into six
parts; `Touches ps s t` says that `t` is `s` but for `ERR` and the parts in `ps`. Each operation has one such rule, and
`exec_touches` collects them for the commands. -/

namespace Sys2Proof.Machine

/-! ## Computations that can end early -/

/-- A sequence of two computations succeeds when both do. -/
theorem bind_ok {ε α β : Type} {x : Except ε α} {f : α → Except ε β} {b : β} (h : x >>= f = .ok b) :
    ∃ a, x = .ok a ∧ f a = .ok b := by
  cases x with
  | error e => cases h
  | ok a => exact ⟨a, rfl, h⟩

/-- What holds of the successful end and of every failure of a command holds of its next state. -/
theorem settle_induction {P : State → Prop} {f : ErrCode → State} {r : Except Exn State} {t : State}
    (h : settle f r = .next t) (hok : ∀ u, r = .ok u → P (setErr .ok u)) (hfail : ∀ e, P (f e)) : P t := by
  rcases settle_next h with ⟨u, hu, rfl⟩ | ⟨e, -, rfl⟩
  · exact hok u hu
  · exact hfail e

/-! ## Parts of the state -/

/-- The parts of the state that commands write, besides `ERR`. -/
inductive Part where
  | result
  | freq
  | code
  | tree
  | rpos
  | writer
  deriving DecidableEq

/-- `t` is `s` but for `ERR` and the parts in `ps`. -/
structure Touches (ps : List Part) (s t : State) : Prop where
  input : SameInput s t
  own : SameOwn s t
  result : .result ∉ ps → t.result = s.result
  freq : .freq ∉ ps → SameFreq s t
  code : .code ∉ ps → t.code = s.code
  tree : .tree ∉ ps → SameTree s t
  rpos : .rpos ∉ ps → t.rpos = s.rpos
  writer : .writer ∉ ps → SameWriter s t

namespace Touches

variable {ps qs : List Part} {s t u : State}

theorem refl (ps : List Part) (s : State) : Touches ps s s := by
  constructor <;> simp [SameInput, SameOwn, SameFreq, SameTree, SameWriter]

theorem trans (h : Touches ps s t) (g : Touches ps t u) : Touches ps s u where
  input := ⟨g.input.1.trans h.input.1, g.input.2.trans h.input.2⟩
  own := by
    obtain ⟨h1, h2, h3, h4⟩ := h.own
    obtain ⟨g1, g2, g3, g4⟩ := g.own
    exact ⟨g1.trans h1, g2.trans h2, g3.trans h3, g4.trans h4⟩
  result n := (g.result n).trans (h.result n)
  freq n := ⟨(g.freq n).1.trans (h.freq n).1, (g.freq n).2.trans (h.freq n).2⟩
  code n := (g.code n).trans (h.code n)
  tree n := ⟨(g.tree n).1.trans (h.tree n).1, (g.tree n).2.trans (h.tree n).2⟩
  rpos n := (g.rpos n).trans (h.rpos n)
  writer n := by
    obtain ⟨h1, h2, h3, h4⟩ := h.writer n
    obtain ⟨g1, g2, g3, g4⟩ := g.writer n
    exact ⟨g1.trans h1, g2.trans h2, g3.trans h3, g4.trans h4⟩

/-- What touches few parts touches no more than many. -/
theorem mono (h : Touches ps s t) (hq : ps ⊆ qs) : Touches qs s t where
  input := h.input
  own := h.own
  result n := h.result fun m => n (hq m)
  freq n := h.freq fun m => n (hq m)
  code n := h.code fun m => n (hq m)
  tree n := h.tree fun m => n (hq m)
  rpos n := h.rpos fun m => n (hq m)
  writer n := h.writer fun m => n (hq m)

/-- `ERR` is no part, so any outcome may be set. -/
theorem setErr (h : Touches ps s t) (e : ErrCode) : Touches ps s (setErr e t) :=
  ⟨h.input, h.own, h.result, h.freq, h.code, h.tree, h.rpos, h.writer⟩

end Touches

/-- A command touches what its body and its failure touch. -/
theorem settle_touches {ps : List Part} {s t : State} {f : ErrCode → State} {r : Except Exn State}
    (h : settle f r = .next t) (hok : ∀ u, r = .ok u → Touches ps s u) (hfail : ∀ e, Touches ps s (f e)) :
    Touches ps s t :=
  settle_induction h (fun u hu => (hok u hu).setErr .ok) hfail

/-- A command whose failure leaves the state as it was touches what its body touches. -/
theorem settle_raiseErr_touches {ps : List Part} {s t : State} {r : Except Exn State}
    (h : settle (fun e => raiseErr e s) r = .next t) (hok : ∀ u, r = .ok u → Touches ps s u) : Touches ps s t :=
  settle_touches h hok fun e => (Touches.refl ps s).setErr e

/-! ## The named operations -/

theorem emptyWriter_touches (s : State) : Touches [.writer] s (emptyWriter s) := by
  constructor <;> simp [SameInput, SameOwn, SameFreq, SameTree]

theorem discardTree_touches (s : State) : Touches [.tree] s (discardTree s) := by
  constructor <;> simp [SameInput, SameOwn, SameFreq, SameWriter]

theorem storeByte_touches (v : Byte) (s : State) : Touches [.writer] s (storeByte v s) := by
  constructor <;> simp [SameInput, SameOwn, SameFreq, SameTree]

theorem deliver_touches {n : Nat} (v : BitVec n) (s : State) : Touches [.result] s (deliver v s) := by
  constructor <;> simp [SameInput, SameOwn, SameFreq, SameTree, SameWriter]

theorem advance_touches (n : Nat) (s : State) : Touches [.rpos] s (advance n s) := by
  constructor <;> simp [SameInput, SameOwn, SameFreq, SameTree, SameWriter]

theorem foldl_putBit1_touches (q : Bits) (s : State) : Touches [.writer] s (q.foldl putBit1 s) := by
  constructor <;> simp [SameInput, SameOwn, SameFreq, SameTree]

theorem putSeq_touches {q : Bits} {s t : State} (h : putSeq q s = .ok t) : Touches [.writer] s t := by
  rcases putSeq_cases q s with ⟨-, hq⟩ | ⟨-, hq⟩ <;> rw [hq] at h <;> cases h
  exact foldl_putBit1_touches q s

theorem finalBody_touches {s t : State} (h : finalBody s = .ok t) : Touches [.writer] s t := by
  rcases finalBody_cases s with ⟨-, hf⟩ | ⟨-, -, hf⟩ | ⟨-, -, hf⟩ <;> rw [hf] at h <;> cases h
  · exact .refl _ _
  · exact storeByte_touches _ _

theorem readBits_touches {n : Nat} {s t : State} {v : BitVec n} (h : readBits n s = .ok (v, t)) :
    Touches [.rpos] s t := by
  obtain ⟨rfl, -⟩ := readBits_ok h
  exact advance_touches n s

theorem descend_touches {tr : Tree} {s t : State} {b : Byte} (h : descend tr s = .ok (b, t)) :
    Touches [.rpos] s t := by
  obtain ⟨q, -, -, rfl⟩ := descend_ok h
  exact advance_touches _ s

theorem parsed_touches (s : State) (tr : Tree) : Touches [.tree, .rpos] s (parsed s tr) := by
  constructor <;> simp [SameInput, SameOwn, SameFreq, SameWriter, parsed, setNodes]

theorem parse_touches {levels : Nat} {s t : State} {r : Option NodeIx} (h : parse levels s = .ok (r, t)) :
    Touches [.tree, .rpos] s t := by
  rcases parse_ok h with ⟨-, rfl, -⟩ | ⟨tr, -, rfl, -⟩
  · exact (advance_touches 1 s).mono (by decide)
  · exact parsed_touches s tr

/-! ## The bodies of the commands -/

theorem countBody_touches {s t : State} (h : countBody s = .ok t) : Touches [.freq] s t := by
  unfold countBody at h
  split at h <;> cases h
  rw [foldl_countByte_frame]
  constructor <;> simp [SameInput, SameOwn, SameTree, SameWriter]

theorem buildBody_touches {s t : State} (h : buildBody s = .ok t) : Touches [.tree] s t := by
  unfold buildBody at h
  split at h <;> cases h
  constructor <;> simp [SameInput, SameOwn, SameFreq, SameWriter]

theorem genBody_touches {s t : State} (h : genBody s = .ok t) : Touches [.code] s t := by
  have key (c : Vector (Option Bits) 256) : Touches [.code] s { s with code := c } := by
    constructor <;> simp [SameInput, SameOwn, SameFreq, SameTree, SameWriter]
  unfold genBody at h
  split at h
  · cases h
    exact key _
  · obtain ⟨tr, -, h⟩ := bind_ok h
    cases h
    exact key _

theorem serBody_touches {s t : State} (h : serBody s = .ok t) : Touches [.writer] s t := by
  obtain ⟨q, -, h⟩ := bind_ok h
  exact putSeq_touches h

theorem desBody_touches {s t : State} (h : desBody s = .ok t) : Touches [.tree, .rpos] s t := by
  obtain ⟨⟨r, u⟩, hu, h⟩ := bind_ok h
  cases h
  refine (parse_touches hu).trans ?_
  constructor <;> simp [SameInput, SameOwn, SameFreq, SameWriter]

theorem encodeSymbol_touches {v : Byte} {s t : State} (h : encodeSymbol v s = .ok t) : Touches [.writer] s t := by
  unfold encodeSymbol at h
  split at h
  · cases h
  · exact putSeq_touches h

theorem encodeSymbols_touches {bs : List Byte} {s t : State} (h : encodeSymbols bs s = .ok t) :
    Touches [.writer] s t := by
  induction bs generalizing s with
  | nil =>
    cases h
    exact .refl _ _
  | cons b bs ih =>
    obtain ⟨u, hu, h⟩ := bind_ok h
    exact (encodeSymbol_touches hu).trans (ih h)

theorem payloadBody_touches {s t : State} (h : payloadBody s = .ok t) : Touches [.writer] s t := by
  unfold payloadBody at h
  split at h
  · cases h
  · exact encodeSymbols_touches h

theorem appendCodes_touches {bs : List Byte} {s t : State} (h : appendCodes bs s = .ok t) : Touches [.writer] s t := by
  induction bs generalizing s with
  | nil =>
    cases h
    exact .refl _ _
  | cons b bs ih =>
    obtain ⟨u, hu, h⟩ := bind_ok h
    exact (putSeq_touches hu).trans (ih h)

theorem deSymBody_touches {s t : State} (h : deSymBody s = .ok t) : Touches [.rpos, .result] s t := by
  unfold deSymBody at h
  split at h
  · cases h
  · obtain ⟨tr, -, h⟩ := bind_ok h
    obtain ⟨⟨b, u⟩, hu, h⟩ := bind_ok h
    cases h
    exact ((descend_touches hu).mono (by decide)).trans ((deliver_touches b u).mono (by decide))

theorem decodeSymbols_touches {tr : Tree} {n : Nat} {s t : State} (h : decodeSymbols tr n s = .ok t) :
    Touches [.rpos, .writer] s t := by
  induction n generalizing s with
  | zero =>
    cases h
    exact .refl _ _
  | succ n ih =>
    obtain ⟨⟨b, u⟩, hu, h⟩ := bind_ok h
    obtain ⟨v, hv, h⟩ := bind_ok h
    exact (((descend_touches hu).mono (by decide)).trans ((putSeq_touches hv).mono (by decide))).trans (ih h)

theorem decodeCount_touches {n : Word32} {s t : State} (h : decodeCount n s = .ok t) :
    Touches [.rpos, .writer] s t := by
  unfold decodeCount at h
  split at h
  · cases h
    exact .refl _ _
  · split at h
    · cases h
    · obtain ⟨tr, -, h⟩ := bind_ok h
      exact decodeSymbols_touches h

theorem dePayloadBody_touches {n : Word32} {s t : State} (h : dePayloadBody n s = .ok t) :
    Touches [.rpos, .writer] s t := by
  unfold dePayloadBody at h
  split at h
  · cases h
  · split at h
    · cases h
    · exact ((emptyWriter_touches s).mono (by decide)).trans (decodeCount_touches h)

theorem analyseBody_touches {s t : State} (h : analyseBody s = .ok t) : Touches [.freq, .tree, .code] s t := by
  obtain ⟨c, hc, h⟩ := bind_ok h
  obtain ⟨b, hb, h⟩ := bind_ok h
  exact (((countBody_touches hc).mono (by decide)).trans ((buildBody_touches hb).mono (by decide))).trans
    ((genBody_touches h).mono (by decide))

theorem emitBody_touches {s t : State} (h : emitBody s = .ok t) : Touches [.writer, .tree] s t := by
  have tail {b : State} (h : (do let s ← finalBody b; pure (discardTree s)) = .ok t) :
      Touches [.writer, .tree] b t := by
    obtain ⟨c, hc, h⟩ := bind_ok h
    cases h
    exact ((finalBody_touches hc).mono (by decide)).trans ((discardTree_touches c).mono (by decide))
  obtain ⟨a, ha, h⟩ := bind_ok h
  refine ((putSeq_touches ha).mono (by decide)).trans ?_
  dsimp only at h
  split at h
  · exact tail h
  · obtain ⟨d, hd, h⟩ := bind_ok h
    obtain ⟨b, hb, h⟩ := bind_ok h
    exact (((serBody_touches hd).trans (appendCodes_touches hb)).mono (by decide)).trans (tail h)

theorem expandBody_touches {n : Word32} {s t : State} (h : expandBody n s = .ok t) :
    Touches [.rpos, .writer, .tree] s t := by
  obtain ⟨⟨r, u⟩, hu, h⟩ := bind_ok h
  dsimp only at h
  split at h
  · cases h
  · split at h
    · cases h
    · obtain ⟨tr, -, h⟩ := bind_ok h
      obtain ⟨v, hv, h⟩ := bind_ok h
      cases h
      have hroot (i : NodeIx) : Touches [.tree] u { u with root := some i } := by
        constructor <;> simp [SameInput, SameOwn, SameFreq, SameWriter]
      exact ((((parse_touches hu).mono (by decide)).trans ((hroot _).mono (by decide))).trans
        ((decodeSymbols_touches hv).mono (by decide))).trans ((discardTree_touches v).mono (by decide))

theorem decompressBody_touches {s t : State} (h : decompressBody s = .ok t) : Touches [.rpos, .writer, .tree] s t := by
  unfold decompressBody at h
  split at h
  · cases h
  · obtain ⟨⟨n, u⟩, hu, h⟩ := bind_ok h
    have hseek : Touches [.rpos] s { s with rpos := 0 } := by
      constructor <;> simp [SameInput, SameOwn, SameFreq, SameTree, SameWriter]
    have hsu := (hseek.trans (readBits_touches hu)).mono (qs := [.rpos, .writer, .tree]) (by decide)
    dsimp only at h
    split at h
    · cases h
      exact hsu
    · exact hsu.trans (expandBody_touches h)

/-! ## The commands -/

/-- The column 'Written by the engine in' of the register map (10_state.md R45), by command. `RESET`, which writes every
part, has no row of its own in it. -/
def partsOf : Instr → List Part
  | .reset => [.result, .freq, .code, .tree, .rpos, .writer]
  | .fqCount => [.freq]
  | .tbBuild => [.tree]
  | .cgGen => [.code]
  | .bwInit => [.writer]
  | .bwPutbit _ => [.writer]
  | .bwPutbyte _ => [.writer]
  | .bwPutu32 _ => [.writer]
  | .bwFinal => [.writer]
  | .brSeek _ => [.rpos]
  | .brGetbit => [.rpos, .result]
  | .brGetbyte => [.rpos, .result]
  | .brGetu32 => [.rpos, .result]
  | .tcSer => [.writer]
  | .tcDes => [.tree, .rpos]
  | .enSym _ => [.writer]
  | .enPayload => [.writer]
  | .deSym => [.rpos, .result]
  | .dePayload _ => [.rpos, .writer]
  | .compress => [.freq, .tree, .code, .writer]
  | .decompress => [.rpos, .writer, .tree]

theorem appendOperand_touches {n : Nat} {v : BitVec n} {s t : State} (h : appendOperand v s = .next t) :
    Touches [.writer] s t :=
  settle_raiseErr_touches h fun _ => putSeq_touches

theorem readResult_touches {n : Nat} {s t : State} (h : readResult n s = .next t) : Touches [.rpos, .result] s t := by
  refine settle_raiseErr_touches h fun w hw => ?_
  obtain ⟨⟨v, u⟩, hu, hw⟩ := bind_ok hw
  cases hw
  exact ((readBits_touches hu).mono (by decide)).trans ((deliver_touches v u).mono (by decide))

theorem execTcDes_touches {s t : State} (h : execTcDes s = .next t) : Touches [.tree, .rpos] s t := by
  have hd := (discardTree_touches s).mono (qs := [.tree, .rpos]) (by decide)
  exact settle_touches h (fun u hu => hd.trans (desBody_touches hu)) fun e => hd.setErr e

theorem execDePayload_touches {n : Word32} {s t : State} (h : execDePayload n s = .next t) :
    Touches [.rpos, .writer] s t :=
  settle_touches h (fun _ => dePayloadBody_touches) fun e => ((emptyWriter_touches s).mono (by decide)).setErr e

theorem compressFail_touches (s : State) (e : ErrCode) : Touches [.writer, .tree] s (compressFail s e) :=
  (((emptyWriter_touches s).mono (by decide)).trans ((discardTree_touches _).mono (by decide))).setErr e

theorem execCompress_touches {s t : State} (h : execCompress s = .next t) :
    Touches [.freq, .tree, .code, .writer] s t := by
  unfold execCompress at h
  split at h
  · next a ha =>
    refine ((analyseBody_touches ha).mono (by decide)).trans (settle_touches h (fun u hu => ?_) fun e => ?_)
    · exact ((emptyWriter_touches a).mono (by decide)).trans ((emitBody_touches hu).mono (by decide))
    · exact (compressFail_touches a e).mono (by decide)
  · exact settle_touches h (fun u hu => by cases hu) fun e => (compressFail_touches s e).mono (by decide)

theorem execDecompress_touches {s t : State} (h : execDecompress s = .next t) :
    Touches [.rpos, .writer, .tree] s t := by
  have hd : Touches [.rpos, .writer, .tree] s (emptyWriter (discardTree s)) :=
    ((discardTree_touches s).mono (by decide)).trans ((emptyWriter_touches _).mono (by decide))
  exact settle_touches h (fun u hu => hd.trans (decompressBody_touches hu)) fun e => hd.setErr e

/-- Every command but `RESET` touches at most the parts of its row. -/
theorem exec_touches {i : Instr} {s t : State} (hi : i ≠ .reset) (h : exec i s = .next t) :
    Touches (partsOf i) s t := by
  cases i with
  | reset => exact absurd rfl hi
  | fqCount => exact settle_raiseErr_touches h fun _ => countBody_touches
  | tbBuild => exact settle_raiseErr_touches h fun _ => buildBody_touches
  | cgGen => exact settle_raiseErr_touches h fun _ => genBody_touches
  | bwInit =>
    cases h
    exact (emptyWriter_touches s).setErr .ok
  | bwPutbit b => exact appendOperand_touches h
  | bwPutbyte v => exact appendOperand_touches h
  | bwPutu32 n => exact appendOperand_touches h
  | bwFinal => exact settle_raiseErr_touches h fun _ => finalBody_touches
  | brSeek n =>
    cases h
    constructor <;> simp [partsOf, SameInput, SameOwn, SameFreq, SameTree, SameWriter]
  | brGetbit => exact readResult_touches h
  | brGetbyte => exact readResult_touches h
  | brGetu32 => exact readResult_touches h
  | tcSer => exact settle_raiseErr_touches h fun _ => serBody_touches
  | tcDes => exact execTcDes_touches h
  | enSym v => exact settle_raiseErr_touches h fun _ => encodeSymbol_touches
  | enPayload => exact settle_raiseErr_touches h fun _ => payloadBody_touches
  | deSym => exact settle_raiseErr_touches h fun _ => deSymBody_touches
  | dePayload n => exact execDePayload_touches h
  | compress => exact execCompress_touches h
  | decompress => exact execDecompress_touches h

/-- Settles O58: each clause asks that the command be none of those whose row has the part. -/
theorem commandsWriteOnlyTheirState : Obligations.CommandsWriteOnlyTheirState := by
  intro i s t h hi
  have ht := exec_touches hi h
  refine ⟨ht.input, ht.own, ?_, ?_, ?_, ?_, ?_, ?_⟩
  · intro h1 h2 h3 h4
    exact ht.result (by cases i <;> simp_all [partsOf])
  · intro h1 h2
    exact ht.freq (by cases i <;> simp_all [partsOf])
  · intro h1 h2
    exact ht.code (by cases i <;> simp_all [partsOf])
  · intro h1 h2 h3 h4
    exact ht.tree (by cases i <;> simp_all [partsOf])
  · intro h1 h2 h3 h4 h5 h6 h7 h8
    exact ht.rpos (by cases i <;> simp_all [partsOf])
  · intro h1 h2 h3 h4 h5 h6 h7 h8 h9 h10 h11
    exact ht.writer (by cases i <;> simp_all [partsOf])

end Sys2Proof.Machine
end

section
/-! SUPPORT. The invariants of the state are kept by every command, every action of the host and so by every step
(10_state.md R27 to R41). A command keeps the invariant of a part it does not touch; for each part there remain the few
commands that write it. -/

namespace Sys2Proof.Machine

/-! ## The output: writer and `OBUF` together -/

/-- The invariants of the writer and of `OBUF` (10_state.md R28, R30, R35). -/
structure OutputOk (s : State) : Prop where
  writer : WriterOk s
  wf : Memory.wf s.obuf
  bound : ∀ c ∈ s.obuf, c.1 < s.cfg.outCap.val
  below : ∀ i, i < s.outLen.toNat → (s.obuf.read i).isSome = true

theorem Inv.output {s : State} (h : Inv s) : OutputOk s := by
  obtain ⟨-, ho, -, hb, hv⟩ := h.buffers
  exact ⟨h.writer, ho, hb, hv⟩

theorem OutputOk.of_touches {ps : List Part} {s t : State} (h : OutputOk s) (ht : Touches ps s t)
    (hp : .writer ∉ ps) : OutputOk t := by
  obtain ⟨h1, h2, h3, h4⟩ := ht.writer hp
  obtain ⟨⟨hpos, hacc⟩, hwf, hbound, hbelow⟩ := h
  unfold writePos writeCap at hpos
  refine ⟨⟨?_, ?_⟩, ?_, ?_, ?_⟩
  · rwa [writePos, writeCap, h2, h3, ht.own.1]
  · rwa [h3, h4]
  · rwa [h1]
  · rwa [h1, ht.own.1]
  · rwa [h1, h2]

theorem OutputOk.setErr {s : State} (h : OutputOk s) (e : ErrCode) : OutputOk (setErr e s) :=
  ⟨h.writer, h.wf, h.bound, h.below⟩

/-- An empty writer is in form, whatever the old one was; the bytes of `OBUF` stay. -/
theorem OutputOk.emptyWriter {s : State} (h : OutputOk s) : OutputOk (emptyWriter s) :=
  ⟨⟨Nat.zero_le _, fun k _ => by simp⟩, h.wf, h.bound, fun i hi => absurd hi (by simp)⟩

theorem OutputOk.storeByte {s : State} (h : OutputOk s) (v : Byte) (room : s.outLen.toNat < s.cfg.outCap.val) :
    OutputOk (storeByte v s) := by
  have hcap := s.cfg.outCap.property
  have hlen := storeByte_outLen_toNat (s := s) v (by omega)
  refine ⟨⟨?_, fun k _ => by simp⟩, ?_, ?_, ?_⟩
  · rw [writePos, hlen, writeCap, storeByte_cfg, storeByte_wcnt]
    simp only [BitVec.ofNat_eq_ofNat, BitVec.toNat_ofNat, Nat.zero_mod]
    omega
  · exact Memory.wf_write h.wf _ _
  · intro c hc
    rcases Memory.mem_write hc with rfl | hc
    · exact room
    · exact h.bound c hc
  · intro i hi
    rw [hlen] at hi
    rw [storeByte_obuf, Memory.read_write]
    split
    · rfl
    · exact h.below i (by omega)

theorem OutputOk.putBit1 {s : State} (h : OutputOk s) (b : Bool) (room : writePos s + 1 ≤ writeCap s) :
    OutputOk (putBit1 s b) := by
  rcases putBit1_cases s b with ⟨-, e⟩ | ⟨-, e⟩
  · rw [e]
    exact h.storeByte _ (outLen_lt_of_room room Nat.one_pos).1
  · obtain ⟨-, -, hw, -⟩ := putBit1_spec b h.writer room
    rw [e] at hw ⊢
    exact ⟨hw, h.wf, h.bound, h.below⟩

theorem OutputOk.foldl_putBit1 {q : Bits} {s : State} (h : OutputOk s) (room : writePos s + q.length ≤ writeCap s) :
    OutputOk (q.foldl Machine.putBit1 s) := by
  induction q generalizing s with
  | nil => exact h
  | cons b q ih =>
    rw [List.length_cons] at room
    obtain ⟨-, hpos, -⟩ := putBit1_spec b h.writer (by omega)
    exact ih (h.putBit1 b (by omega)) (by rw [hpos, writeCap_putBit1]; omega)

theorem putSeq_outputOk {q : Bits} {s t : State} (hs : OutputOk s) (h : putSeq q s = .ok t) : OutputOk t := by
  rcases putSeq_cases q s with ⟨room, hq⟩ | ⟨-, hq⟩ <;> rw [hq] at h <;> cases h
  exact hs.foldl_putBit1 room

theorem finalBody_outputOk {s t : State} (hs : OutputOk s) (h : finalBody s = .ok t) : OutputOk t := by
  rcases finalBody_cases s with ⟨-, hf⟩ | ⟨-, room, hf⟩ | ⟨-, -, hf⟩ <;> rw [hf] at h <;> cases h
  · exact hs
  · exact hs.storeByte _ room

theorem serBody_outputOk {s t : State} (hs : OutputOk s) (h : serBody s = .ok t) : OutputOk t := by
  obtain ⟨q, -, h⟩ := bind_ok h
  exact putSeq_outputOk hs h

theorem encodeSymbol_outputOk {v : Byte} {s t : State} (hs : OutputOk s) (h : encodeSymbol v s = .ok t) :
    OutputOk t := by
  unfold encodeSymbol at h
  split at h
  · cases h
  · exact putSeq_outputOk hs h

theorem encodeSymbols_outputOk {bs : List Byte} {s t : State} (hs : OutputOk s) (h : encodeSymbols bs s = .ok t) :
    OutputOk t := by
  induction bs generalizing s with
  | nil =>
    cases h
    exact hs
  | cons b bs ih =>
    obtain ⟨u, hu, h⟩ := bind_ok h
    exact ih (encodeSymbol_outputOk hs hu) h

theorem payloadBody_outputOk {s t : State} (hs : OutputOk s) (h : payloadBody s = .ok t) : OutputOk t := by
  unfold payloadBody at h
  split at h
  · cases h
  · exact encodeSymbols_outputOk hs h

theorem appendCodes_outputOk {bs : List Byte} {s t : State} (hs : OutputOk s) (h : appendCodes bs s = .ok t) :
    OutputOk t := by
  induction bs generalizing s with
  | nil =>
    cases h
    exact hs
  | cons b bs ih =>
    obtain ⟨u, hu, h⟩ := bind_ok h
    exact ih (putSeq_outputOk hs hu) h

theorem emitBody_outputOk {s t : State} (hs : OutputOk s) (h : emitBody s = .ok t) : OutputOk t := by
  have tail {b : State} (hb : OutputOk b) (h : (do let s ← finalBody b; pure (discardTree s)) = .ok t) :
      OutputOk t := by
    obtain ⟨c, hc, h⟩ := bind_ok h
    cases h
    exact (finalBody_outputOk hb hc).of_touches (discardTree_touches c) (by decide)
  obtain ⟨a, ha, h⟩ := bind_ok h
  have hoa := putSeq_outputOk hs ha
  dsimp only at h
  split at h
  · exact tail hoa h
  · obtain ⟨d, hd, h⟩ := bind_ok h
    obtain ⟨b, hb, h⟩ := bind_ok h
    exact tail (appendCodes_outputOk (serBody_outputOk hoa hd) hb) h

theorem decodeSymbols_outputOk {tr : Tree} {n : Nat} {s t : State} (hs : OutputOk s)
    (h : decodeSymbols tr n s = .ok t) : OutputOk t := by
  induction n generalizing s with
  | zero =>
    cases h
    exact hs
  | succ n ih =>
    obtain ⟨⟨b, u⟩, hu, h⟩ := bind_ok h
    obtain ⟨v, hv, h⟩ := bind_ok h
    exact ih (putSeq_outputOk (hs.of_touches (descend_touches hu) (by decide)) hv) h

theorem dePayloadBody_outputOk {n : Word32} {s t : State} (hs : OutputOk s) (h : dePayloadBody n s = .ok t) :
    OutputOk t := by
  unfold dePayloadBody decodeCount at h
  split at h
  · cases h
  · split at h
    · cases h
    · split at h
      · cases h
        exact hs.emptyWriter
      · split at h
        · cases h
        · obtain ⟨tr, -, h⟩ := bind_ok h
          exact decodeSymbols_outputOk hs.emptyWriter h

theorem expandBody_outputOk {n : Word32} {s t : State} (hs : OutputOk s) (h : expandBody n s = .ok t) :
    OutputOk t := by
  obtain ⟨⟨r, u⟩, hu, h⟩ := bind_ok h
  have ho := hs.of_touches (parse_touches hu) (by decide)
  dsimp only at h
  split at h
  · cases h
  · split at h
    · cases h
    · obtain ⟨tr, -, h⟩ := bind_ok h
      obtain ⟨v, hv, h⟩ := bind_ok h
      cases h
      have hroot (i : NodeIx) : OutputOk { u with root := some i } := ⟨ho.writer, ho.wf, ho.bound, ho.below⟩
      exact (decodeSymbols_outputOk (hroot _) hv).of_touches (discardTree_touches v) (by decide)

theorem decompressBody_outputOk {s t : State} (hs : OutputOk s) (h : decompressBody s = .ok t) : OutputOk t := by
  unfold decompressBody at h
  split at h
  · cases h
  · obtain ⟨⟨n, u⟩, hu, h⟩ := bind_ok h
    have hseek : OutputOk { s with rpos := 0 } := ⟨hs.writer, hs.wf, hs.bound, hs.below⟩
    have ho := hseek.of_touches (readBits_touches hu) (by decide)
    dsimp only at h
    split at h
    · cases h
      exact ho
    · exact expandBody_outputOk ho h

/-- A command that keeps the writer on success and leaves the state on failure. -/
theorem settle_raiseErr_outputOk {s t : State} {r : Except Exn State} (hs : OutputOk s)
    (h : settle (fun e => raiseErr e s) r = .next t) (hok : ∀ u, r = .ok u → OutputOk u) : OutputOk t :=
  settle_induction h (fun u hu => (hok u hu).setErr .ok) fun e => hs.setErr e

theorem execCompress_outputOk {s t : State} (hs : OutputOk s) (h : execCompress s = .next t) : OutputOk t := by
  have hfail {a : State} (ha : OutputOk a) (e : ErrCode) : OutputOk (compressFail a e) :=
    (ha.emptyWriter.of_touches (discardTree_touches _) (by decide)).setErr e
  unfold execCompress at h
  split at h
  · next a ha =>
    have hoa := hs.of_touches (analyseBody_touches ha) (by decide)
    exact settle_induction h (fun u hu => (emitBody_outputOk hoa.emptyWriter hu).setErr .ok) (hfail hoa)
  · exact settle_induction h (fun u hu => by cases hu) (hfail hs)

theorem exec_outputOk {i : Instr} {s t : State} (hi : i ≠ .reset) (hs : OutputOk s) (h : exec i s = .next t) :
    OutputOk t := by
  have htouch := exec_touches hi h
  cases i with
  | reset => exact absurd rfl hi
  | fqCount | tbBuild | cgGen | brSeek n | brGetbit | brGetbyte | brGetu32 | tcDes | deSym =>
    exact hs.of_touches htouch (by simp [partsOf])
  | bwInit =>
    cases h
    exact hs.emptyWriter.setErr .ok
  | bwPutbit _ | bwPutbyte _ | bwPutu32 _ => exact settle_raiseErr_outputOk hs h fun _ => putSeq_outputOk hs
  | bwFinal => exact settle_raiseErr_outputOk hs h fun _ => finalBody_outputOk hs
  | tcSer => exact settle_raiseErr_outputOk hs h fun _ => serBody_outputOk hs
  | enSym v => exact settle_raiseErr_outputOk hs h fun _ => encodeSymbol_outputOk hs
  | enPayload => exact settle_raiseErr_outputOk hs h fun _ => payloadBody_outputOk hs
  | dePayload n =>
    exact settle_induction h (fun u hu => (dePayloadBody_outputOk hs hu).setErr .ok) fun e => hs.emptyWriter.setErr e
  | compress => exact execCompress_outputOk hs h
  | decompress =>
    have hd := (hs.of_touches (discardTree_touches s) (by decide)).emptyWriter
    exact settle_induction h (fun u hu => (decompressBody_outputOk hd hu).setErr .ok) fun e => hd.setErr e

/-! ## The frequency table -/

theorem FreqOk.of_touches {ps : List Part} {s t : State} (h : FreqOk s) (ht : Touches ps s t) (hp : .freq ∉ ps) :
    FreqOk t := by
  obtain ⟨h1, h2⟩ := ht.freq hp
  unfold FreqOk countOf at h ⊢
  rwa [h1, h2, ht.own.1]

theorem FreqOk.setErr {s : State} (h : FreqOk s) (e : ErrCode) : FreqOk (setErr e s) := h

theorem countBody_freqOk {s t : State} (hi : InputOk s) (h : countBody s = .ok t) : FreqOk t := by
  obtain ⟨u, hu, -, htab⟩ := countBody_spec hi
  have hown := (countBody_touches h).own
  rw [hu] at h
  cases h
  exact htab.freqOk (by rw [inputBytes_length, hown.1]; exact hi)

theorem analyseBody_freqOk {s t : State} (hi : InputOk s) (h : analyseBody s = .ok t) : FreqOk t := by
  obtain ⟨c, hc, h⟩ := bind_ok h
  obtain ⟨b, hb, h⟩ := bind_ok h
  exact ((countBody_freqOk hi hc).of_touches (buildBody_touches hb) (by decide)).of_touches (genBody_touches h)
    (by decide)

/-- What `COMPRESS` leaves of the state its first steps gave: all but the writer and the tree, which is discarded. -/
theorem execCompress_next {s t : State} (hi : InputOk s) (h : execCompress s = .next t) :
    ∃ a, analyseBody s = .ok a ∧ Touches [.writer, .tree] a t ∧ t.root = none ∧ t.nodes = [] := by
  obtain ⟨-, -, a, -, -, -, ha, -⟩ := analyseBody_spec hi
  simp only [execCompress, ha] at h
  refine ⟨a, ha, ?_⟩
  refine settle_induction (P := fun t => Touches _ a t ∧ t.root = none ∧ t.nodes = []) h (fun u hu => ?_) fun e =>
    ⟨compressFail_touches a e, rfl, rfl⟩
  refine ⟨(((emptyWriter_touches a).mono (by decide)).trans (emitBody_touches hu)).setErr .ok, ?_⟩
  have tail {b : State} (h : (do let s ← finalBody b; pure (discardTree s)) = .ok u) :
      u.root = none ∧ u.nodes = [] := by
    obtain ⟨c, -, h⟩ := bind_ok h
    cases h
    exact ⟨rfl, rfl⟩
  obtain ⟨b, -, hu⟩ := bind_ok hu
  dsimp only at hu
  split at hu
  · exact tail hu
  · obtain ⟨c, -, hu⟩ := bind_ok hu
    obtain ⟨d, -, hu⟩ := bind_ok hu
    exact tail hu

theorem exec_freqOk {i : Instr} {s t : State} (hi : i ≠ .reset) (hs : Inv s) (h : exec i s = .next t) : FreqOk t := by
  by_cases hp : Part.freq ∈ partsOf i
  · cases i with
    | reset => exact absurd rfl hi
    | fqCount =>
      exact settle_induction h (fun u hu => (countBody_freqOk hs.input hu).setErr .ok) fun e => hs.freq
    | compress =>
      obtain ⟨a, ha, hat, -, -⟩ := execCompress_next hs.input h
      exact (analyseBody_freqOk hs.input ha).of_touches hat (by decide)
    | _ => simp [partsOf] at hp
  · exact hs.freq.of_touches (exec_touches hi h) hp

/-! ## The arena -/

theorem ArenaOk.congr {s t : State} (h : SameTree s t) : ArenaOk t ↔ ArenaOk s := by
  unfold ArenaOk
  rw [h.1, h.2]

theorem ArenaOk.of_touches {ps : List Part} {s t : State} (h : ArenaOk s) (ht : Touches ps s t) (hp : .tree ∉ ps) :
    ArenaOk t :=
  (ArenaOk.congr (ht.tree hp)).2 h

theorem ArenaOk.setErr {s : State} (h : ArenaOk s) (e : ErrCode) : ArenaOk (setErr e s) := h

theorem buildBody_arenaOk {s t : State} (hf : FreqOk s) (h : buildBody s = .ok t) : ArenaOk t := by
  obtain ⟨u, hu, -, ha, -⟩ := buildBody_arena hf
  rw [hu] at h
  cases h
  exact ha

/-- The arena of a parsed tree is legal (44_tree_codec.md R172, R175). -/
theorem desBody_arenaOk {s t : State} (h : desBody (discardTree s) = .ok t) : ArenaOk t := by
  obtain ⟨⟨r, u⟩, hu, h⟩ := bind_ok h
  cases h
  rcases parse_ok hu with ⟨rfl, rfl, -⟩ | ⟨tr, rfl, rfl, -, hlevels, hsize, -⟩
  · exact arenaOk_none rfl rfl
  · have hnodes : (parsed (discardTree s) tr).nodes = arenaOf 0 tr := List.nil_append _
    simp only [discardTree_nodes, List.length_nil, Nat.zero_add] at hsize
    have hspan := spans_arenaOf (t := tr) (pre := []) (post := []) (by simpa using hsize)
    simp only [List.nil_append, List.append_nil, List.length_nil, ← hnodes] at hspan
    refine hspan.arenaOk rfl (nodup_of_perm_range hsize ?_) ?_ hlevels ?_
    · rw [List.range_eq_range']
    · simp [hnodes]
    · simpa [hnodes] using hsize

theorem expandBody_noTree {n : Word32} {s t : State} (h : expandBody n s = .ok t) : t.root = none ∧ t.nodes = [] := by
  obtain ⟨⟨r, u⟩, -, h⟩ := bind_ok h
  dsimp only at h
  split at h
  · cases h
  · split at h
    · cases h
    · obtain ⟨tr, -, h⟩ := bind_ok h
      obtain ⟨v, -, h⟩ := bind_ok h
      cases h
      exact ⟨rfl, rfl⟩

theorem decompressBody_noTree {s t : State} (hr : s.root = none) (hn : s.nodes = []) (h : decompressBody s = .ok t) :
    t.root = none ∧ t.nodes = [] := by
  unfold decompressBody at h
  split at h
  · cases h
  · obtain ⟨⟨n, u⟩, hu, h⟩ := bind_ok h
    dsimp only at h
    split at h
    · cases h
      obtain ⟨h1, h2⟩ := (readBits_touches hu).tree (by decide)
      exact ⟨h2.trans hr, h1.trans hn⟩
    · exact expandBody_noTree h

theorem exec_arenaOk {i : Instr} {s t : State} (hi : i ≠ .reset) (hs : Inv s) (h : exec i s = .next t) :
    ArenaOk t := by
  by_cases hp : Part.tree ∈ partsOf i
  · cases i with
    | reset => exact absurd rfl hi
    | tbBuild => exact settle_induction h (fun u hu => (buildBody_arenaOk hs.freq hu).setErr .ok) fun e => hs.arena
    | tcDes => exact settle_induction h (fun u hu => (desBody_arenaOk hu).setErr .ok) fun e => arenaOk_none rfl rfl
    | compress =>
      obtain ⟨a, -, -, hr, hn⟩ := execCompress_next hs.input h
      exact arenaOk_none hr hn
    | decompress =>
      refine settle_induction h (fun u hu => ?_) fun e => arenaOk_none rfl rfl
      obtain ⟨hr, hn⟩ := decompressBody_noTree rfl rfl hu
      exact arenaOk_none hr hn
    | _ => simp [partsOf] at hp
  · exact hs.arena.of_touches (exec_touches hi h) hp

/-! ## The code table -/

theorem CodeOk.of_touches {ps : List Part} {s t : State} (h : CodeOk s) (ht : Touches ps s t) (hp : .code ∉ ps) :
    CodeOk t := by
  unfold CodeOk codeOf at h ⊢
  rwa [ht.code hp]

theorem CodeOk.setErr {s : State} (h : CodeOk s) (e : ErrCode) : CodeOk (setErr e s) := h

theorem analyseBody_codeOk {s t : State} (hi : InputOk s) (h : analyseBody s = .ok t) : CodeOk t := by
  obtain ⟨c, hc, h⟩ := bind_ok h
  obtain ⟨b, hb, h⟩ := bind_ok h
  exact genBody_codeOk (buildBody_arenaOk (countBody_freqOk hi hc) hb) h

theorem exec_codeOk {i : Instr} {s t : State} (hi : i ≠ .reset) (hs : Inv s) (h : exec i s = .next t) : CodeOk t := by
  by_cases hp : Part.code ∈ partsOf i
  · cases i with
    | reset => exact absurd rfl hi
    | cgGen => exact settle_induction h (fun u hu => (genBody_codeOk hs.arena hu).setErr .ok) fun e => hs.code
    | compress =>
      obtain ⟨a, ha, hat, -, -⟩ := execCompress_next hs.input h
      exact (analyseBody_codeOk hs.input ha).of_touches hat (by decide)
    | _ => simp [partsOf] at hp
  · exact hs.code.of_touches (exec_touches hi h) hp

/-! ## Reset, commands, host actions, steps -/

theorem inv_resetWith (c : Config) : Inv (State.resetWith c) where
  input := Nat.zero_le _
  writer := ⟨Nat.zero_le _, fun k _ => by simp [State.resetWith]⟩
  buffers := ⟨Memory.wf_nil, Memory.wf_nil, by simp [State.resetWith], by simp [State.resetWith],
    fun i hi => absurd hi (by simp [State.resetWith])⟩
  freq := by
    simp only [FreqOk, countOf, State.resetWith, tableGet_zeroCounts]
    simp
  arena := arenaOk_none rfl rfl
  code := fun b q h => by simp [codeOf, State.resetWith] at h

/-- Settles O11: the base case of `stepKeepsInv`. -/
theorem resetStateMeetsInv : Obligations.ResetStateMeetsInv := ⟨inv_resetWith _, inv_resetWith⟩

/-- `ERR` and the model's own fields but the capacities occur in no invariant. -/
theorem Inv.withOwn {s : State} (h : Inv s) (e : ErrCode) (q : List HostAction) (v : Option (BitVec 64)) (n : Nat) :
    Inv { s with err := e, hostQueue := q, lastRead := v, resets := n } :=
  ⟨h.input, h.writer, h.buffers, h.freq, h.arena, h.code⟩

theorem inv_resetState (s : State) : Inv (resetState s) := (inv_resetWith s.cfg).withOwn _ _ _ _

/-- Every command keeps the invariants. -/
theorem exec_inv {i : Instr} {s t : State} (hs : Inv s) (h : exec i s = .next t) : Inv t := by
  by_cases hi : i = .reset
  · subst hi
    cases h
    exact (inv_resetState s).withOwn _ _ _ _
  · have htouch := exec_touches hi h
    obtain ⟨hibuf, hlen⟩ := htouch.input
    have hcfg := htouch.own.1
    have hout := exec_outputOk hi hs.output h
    obtain ⟨hwf, -, hbound, -⟩ := hs.buffers
    refine ⟨?_, hout.writer, ⟨?_, hout.wf, ?_, hout.bound, hout.below⟩, exec_freqOk hi hs h, exec_arenaOk hi hs h,
      exec_codeOk hi hs h⟩
    · rw [InputOk, hlen, hcfg]
      exact hs.input
    · rwa [hibuf]
    · rwa [hibuf, hcfg]

theorem execWord_inv {w : CmdWord} {s t : State} (hs : Inv s) (h : execWord w s = .next t) : Inv t := by
  unfold execWord at h
  split at h
  · exact exec_inv hs h
  · cases h
    exact hs.withOwn _ _ _ _

theorem writeInLen_inv {n : BitVec 64} {s t : State} (hs : Inv s) (h : writeInLen n s = .next t) : Inv t := by
  unfold writeInLen at h
  split at h
  · next hn =>
    cases h
    have hle : (n.setWidth 32).toNat ≤ s.cfg.inCap.val := by
      rw [BitVec.toNat_setWidth]
      exact (Nat.mod_le _ _).trans hn
    exact ⟨hle, hs.writer, hs.buffers, hs.freq, hs.arena, hs.code⟩
  · cases h

theorem writeRegister_inv {k : Nat} {v : BitVec 64} {s t : State} (hs : Inv s) (h : writeRegister k v s = .next t) :
    Inv t := by
  unfold writeRegister at h
  split at h
  · cases h
  · exact execWord_inv hs h
  · exact writeInLen_inv hs h
  · cases h
    exact hs

theorem Inv.writeIbuf {s : State} (hs : Inv s) {i : Nat} (hi : i < s.cfg.inCap.val) (b : Byte) :
    Inv { s with ibuf := s.ibuf.write i b } := by
  obtain ⟨hwf, ho, hbound, hob, hv⟩ := hs.buffers
  refine ⟨hs.input, hs.writer, ⟨Memory.wf_write hwf i b, ho, ?_, hob, hv⟩, hs.freq, hs.arena, hs.code⟩
  intro c hc
  rcases Memory.mem_write hc with rfl | hc
  · exact hi
  · exact hbound c hc

/-- A host read changes `lastRead` alone. -/
theorem Inv.hostRead {s : State} (hs : Inv s) (v : BitVec 64) : Inv (hostRead v s) := hs.withOwn _ _ _ _

/-- Every action of the host keeps the invariants. -/
theorem hostAct_inv {a : HostAction} {s t : State} (hs : Inv s) (h : hostAct a s = .next t) : Inv t := by
  cases a with
  | writeReg k v => exact writeRegister_inv hs h
  | writeIbuf i b =>
    simp only [hostAct] at h
    split at h
    · next hi =>
      cases h
      exact hs.writeIbuf hi b
    · cases h
  | readReg k =>
    simp only [hostAct] at h
    split at h <;> cases h
    exact hs.hostRead _
  | readObuf i =>
    simp only [hostAct] at h
    split at h <;> cases h
    exact hs.hostRead _
  | readIbuf i =>
    simp only [hostAct] at h
    split at h
    · split at h <;> cases h
      exact hs.hostRead _
    · cases h
  | readCodeInfo b =>
    cases h
    exact hs.hostRead _
  | readCodeWord b k =>
    cases h
    exact hs.hostRead _
  | resetEvent =>
    cases h
    exact inv_resetState s

/-- Settles O56: an idle step changes nothing, and any other is an action of the host. -/
theorem stepKeepsInv : Obligations.StepKeepsInv := by
  intro s t hs h
  unfold step at h
  split at h
  · cases h
    exact hs
  · exact hostAct_inv (hs.withOwn _ _ _ _) h

end Sys2Proof.Machine
end

section
/-! SUPPORT. No command's results depend on the arena but through the tree it denotes (10_state.md R39). A command whose
row in `partsOf` has no tree commutes with an exchange of the arena for another one of the same tree; a command that
writes the tree gives the same state from both. -/

namespace Sys2Proof.Machine

/-- The state with another arena and root index. -/
def withArena (ns : List Node) (r : Option NodeIx) (s : State) : State := { s with nodes := ns, root := r }

section

variable (ns : List Node) (r : Option NodeIx)

/-! ## Computations under a change of their result -/

/-- A sequence of two computations under a change of the results of both. -/
theorem bind_map {ε α α' β β' : Type} {x : Except ε α} {g : α → α'} {k : β → β'} {f : α → Except ε β}
    {f' : α' → Except ε β'} (hf : ∀ a, f' (g a) = (f a).map k) : x.map g >>= f' = (x >>= f).map k := by
  cases x with
  | error e => rfl
  | ok a => exact hf a

/-- The end of a command whose body and failure commute with the exchange. -/
theorem settle_withArena {f f' : ErrCode → State} {x : Except Exn State} {t : State} (h : settle f x = .next t)
    (hf : ∀ e, f' e = withArena ns r (f e)) : settle f' (x.map (withArena ns r)) = .next (withArena ns r t) := by
  rcases settle_next h with ⟨u, rfl, rfl⟩ | ⟨e, rfl, rfl⟩
  · rfl
  · exact congrArg _ (hf e)

theorem settle_raiseErr_withArena {s t : State} {x x' : Except Exn State}
    (h : settle (fun e => raiseErr e s) x = .next t) (hx : x' = x.map (withArena ns r)) :
    settle (fun e => raiseErr e (withArena ns r s)) x' = .next (withArena ns r t) := by
  rw [hx]
  exact settle_withArena ns r h fun _ => rfl

/-! ## Operations that commute with the exchange -/

theorem readBits_withArena (n : Nat) (s : State) :
    readBits n (withArena ns r s) = (readBits n s).map (Prod.map id (withArena ns r)) := by
  rw [readBits, readBits, apply_ite (Except.map _), apply_ite (Except.map _)]
  rfl

theorem putBit1_withArena (s : State) (b : Bool) :
    putBit1 (withArena ns r s) b = withArena ns r (putBit1 s b) := by
  rw [putBit1, putBit1, apply_ite (withArena ns r)]
  rfl

theorem foldl_putBit1_withArena (q : Bits) (s : State) :
    q.foldl putBit1 (withArena ns r s) = withArena ns r (q.foldl putBit1 s) := by
  induction q generalizing s with
  | nil => rfl
  | cons b q ih => rw [List.foldl_cons, putBit1_withArena, ih, List.foldl_cons]

theorem putSeq_withArena (q : Bits) (s : State) :
    putSeq q (withArena ns r s) = (putSeq q s).map (withArena ns r) := by
  rw [putSeq, putSeq, apply_ite (Except.map _)]
  exact if_congr Iff.rfl rfl (congrArg Except.ok (foldl_putBit1_withArena ns r q s))

theorem finalBody_withArena (s : State) :
    finalBody (withArena ns r s) = (finalBody s).map (withArena ns r) := by
  rw [finalBody, finalBody, apply_ite (Except.map _), apply_ite (Except.map _)]
  rfl

theorem foldl_countByte_withArena (bs : List Byte) (s : State) :
    bs.foldl countByte (withArena ns r s) = withArena ns r (bs.foldl countByte s) := by
  induction bs generalizing s with
  | nil => rfl
  | cons b bs ih => exact ih (countByte s b)

theorem countBody_withArena (s : State) :
    countBody (withArena ns r s) = (countBody s).map (withArena ns r) := by
  rw [countBody, countBody, apply_ite (Except.map _)]
  exact if_congr Iff.rfl rfl (congrArg Except.ok
    (foldl_countByte_withArena ns r (inputBytes s) { s with freqCount := zeroCounts, freqOrder := [] }))

theorem encodeSymbol_withArena (v : Byte) (s : State) :
    encodeSymbol v (withArena ns r s) = (encodeSymbol v s).map (withArena ns r) := by
  have hcode : codeOf (withArena ns r s) v = codeOf s v := rfl
  unfold encodeSymbol
  rw [hcode]
  cases codeOf s v with
  | none => rfl
  | some q => exact putSeq_withArena ns r q s

theorem encodeSymbols_withArena (bs : List Byte) (s : State) :
    encodeSymbols bs (withArena ns r s) = (encodeSymbols bs s).map (withArena ns r) := by
  induction bs generalizing s with
  | nil => rfl
  | cons b bs ih =>
    rw [encodeSymbols, encodeSymbol_withArena]
    exact bind_map ih

theorem payloadBody_withArena (s : State) :
    payloadBody (withArena ns r s) = (payloadBody s).map (withArena ns r) := by
  rw [payloadBody, payloadBody, apply_ite (Except.map _)]
  exact if_congr Iff.rfl rfl (encodeSymbols_withArena ns r (inputBytes s) s)

theorem descend_withArena (tr : Tree) (s : State) :
    descend tr (withArena ns r s) = (descend tr s).map (Prod.map id (withArena ns r)) := by
  induction tr generalizing s with
  | leaf b => rfl
  | node left right ihl ihr =>
    rw [descend, readBits_withArena]
    refine bind_map fun ⟨b, u⟩ => ?_
    exact (if_congr Iff.rfl (ihl u) (ihr u)).trans (apply_ite _ (b = 0) _ _).symm

theorem decodeSymbols_withArena (tr : Tree) (n : Nat) (s : State) :
    decodeSymbols tr n (withArena ns r s) = (decodeSymbols tr n s).map (withArena ns r) := by
  induction n generalizing s with
  | zero => rfl
  | succ n ih =>
    rw [decodeSymbols, descend_withArena]
    refine bind_map fun ⟨b, u⟩ => ?_
    change (putBits b (withArena ns r u) >>= decodeSymbols tr n) = _
    rw [putBits, putSeq_withArena]
    exact bind_map ih

theorem readResult_withArena {n : Nat} {s t : State} (h : readResult n s = .next t) :
    readResult n (withArena ns r s) = .next (withArena ns r t) := by
  refine settle_raiseErr_withArena ns r h ?_
  rw [readBits_withArena]
  exact bind_map fun ⟨v, u⟩ => rfl

/-! ## Operations that overwrite the arena -/

theorem buildBody_withArena (s : State) : buildBody (withArena ns r s) = buildBody s := rfl

theorem buildBody_ne_raise {s : State} {e : ErrCode} : buildBody s ≠ .error (.raise e) := by
  unfold buildBody
  split <;> simp

theorem analyseBody_withArena (s : State) : analyseBody (withArena ns r s) = analyseBody s := by
  unfold analyseBody
  rw [countBody_withArena]
  cases countBody s with
  | error e => rfl
  | ok u => rfl

/-- A command that writes the tree gives the same state, whatever arena it starts from. -/
theorem exec_withArena_of_writes {i : Instr} {s t : State} (hi : .tree ∈ partsOf i) (h : exec i s = .next t) :
    exec i (withArena ns r s) = .next t := by
  cases i with
  | reset | tcDes | decompress => exact h
  | tbBuild =>
    rcases settle_next h with ⟨u, hu, rfl⟩ | ⟨e, he, -⟩
    · change settle _ (buildBody (withArena ns r s)) = _
      rw [buildBody_withArena, hu]
      rfl
    · exact absurd he buildBody_ne_raise
  | compress =>
    rw [← h]
    simp only [exec, execCompress, analyseBody_withArena]
    cases analyseBody s with
    | ok a => rfl
    | error e => rfl
  | _ => simp [partsOf] at hi

end

/-! ## Commands that read the tree -/

theorem genBody_of_denotes {s : State} {tr : Tree} (h : Denotes s tr) :
    genBody s = .ok { s with code := walk tr [] emptyTable } := by
  obtain ⟨i, hr, ht⟩ := h.treeIn
  simp only [genBody, hr, ht]
  rfl

theorem serBody_of_denotes {s : State} {tr : Tree} (h : Denotes s tr) : serBody s = putSeq (serTree tr) s := by
  obtain ⟨i, hr, ht⟩ := h.treeIn
  simp only [serBody, serBits, hr, ht]
  rfl

theorem deSymBody_of_denotes {s : State} {tr : Tree} (h : Denotes s tr) :
    deSymBody s = (do
      let (b, s) ← descend tr s
      pure (deliver b s)) := by
  obtain ⟨i, hr, ht⟩ := h.treeIn
  simp only [deSymBody, hr, ht]
  rfl

theorem decodeCount_of_denotes {n : Word32} {s : State} {tr : Tree} (h : Denotes s tr) :
    decodeCount n s = decodeSymbols tr n.toNat s := by
  obtain ⟨i, hr, ht⟩ := h.treeIn
  by_cases hn : n = 0
  · subst hn
    rfl
  · simp only [decodeCount, if_neg hn, hr, ht]
    rfl

theorem dePayloadBody_of_denotes {n : Word32} {s : State} {tr : Tree} (h : Denotes s tr) :
    dePayloadBody n s =
      if s.cfg.outCap.val < n.toNat then .error (.raise .capacityExceeded)
      else decodeSymbols tr n.toNat (emptyWriter s) := by
  have he : Denotes (emptyWriter s) tr := h
  obtain ⟨i, hr, -⟩ := h
  rw [dePayloadBody, if_neg (by simp [hr]), decodeCount_of_denotes he]

/-- A command that does not write the tree commutes with an exchange of the arena for one of the same tree. -/
theorem exec_withArena_of_keeps {ns : List Node} {r : Option NodeIx} {i : Instr} {s t : State} {tr : Tree}
    (hi : .tree ∉ partsOf i) (hs : Denotes s tr) (hs' : Denotes (withArena ns r s) tr) (h : exec i s = .next t) :
    exec i (withArena ns r s) = .next (withArena ns r t) := by
  cases i with
  | reset | tbBuild | tcDes | compress | decompress => simp [partsOf] at hi
  | fqCount => exact settle_raiseErr_withArena ns r h (countBody_withArena ns r s)
  | cgGen =>
    refine settle_raiseErr_withArena ns r h ?_
    rw [genBody_of_denotes hs, genBody_of_denotes hs']
    rfl
  | bwInit | brSeek n =>
    cases h
    rfl
  | bwPutbit _ | bwPutbyte _ | bwPutu32 _ => exact settle_raiseErr_withArena ns r h (putSeq_withArena ns r _ s)
  | bwFinal => exact settle_raiseErr_withArena ns r h (finalBody_withArena ns r s)
  | brGetbit | brGetbyte | brGetu32 => exact readResult_withArena ns r h
  | tcSer =>
    refine settle_raiseErr_withArena ns r h ?_
    rw [serBody_of_denotes hs, serBody_of_denotes hs']
    exact putSeq_withArena ns r _ s
  | enSym v => exact settle_raiseErr_withArena ns r h (encodeSymbol_withArena ns r v s)
  | enPayload => exact settle_raiseErr_withArena ns r h (payloadBody_withArena ns r s)
  | deSym =>
    refine settle_raiseErr_withArena ns r h ?_
    rw [deSymBody_of_denotes hs, deSymBody_of_denotes hs', descend_withArena]
    exact bind_map fun ⟨b, u⟩ => rfl
  | dePayload n =>
    have hbody : dePayloadBody n (withArena ns r s) = (dePayloadBody n s).map (withArena ns r) := by
      rw [dePayloadBody_of_denotes hs, dePayloadBody_of_denotes hs', apply_ite (Except.map _)]
      exact if_congr Iff.rfl rfl (decodeSymbols_withArena ns r tr n.toNat (emptyWriter s))
    change settle _ (dePayloadBody n (withArena ns r s)) = _
    rw [hbody]
    exact settle_withArena ns r h fun _ => rfl

/-- Settles O60: a command that writes the tree gives equal states, any other one leaves both arenas where they are. -/
theorem onlyTheAbstractTreeMatters : Obligations.OnlyTheAbstractTreeMatters := by
  intro i s s' t tr hs hs' hsame h
  have he : s' = withArena s'.nodes s'.root s := hsame
  by_cases hi : Part.tree ∈ partsOf i
  · refine ⟨t, ?_, rfl, .inl rfl⟩
    rw [he]
    exact exec_withArena_of_writes _ _ hi h
  · have hne : i ≠ .reset := by
      rintro rfl
      exact hi (by decide)
    obtain ⟨hn, hr⟩ := (exec_touches hne h).tree hi
    refine ⟨withArena s'.nodes s'.root t, ?_, rfl, .inr ⟨hn, hr, rfl, rfl⟩⟩
    rw [he] at hs'
    conv_lhs => rw [he]
    exact exec_withArena_of_keeps hi hs hs' h

end Sys2Proof.Machine
end

section
/-! SUPPORT. The host's actions, the register map and the code table as the host reads them (10_state.md R24, R40, R45,
R46). -/

namespace Sys2Proof.Machine

/-! ## Steps -/

theorem step_of_cons {s : State} {a : HostAction} {rest : List HostAction} (h : s.hostQueue = a :: rest) :
    step s = hostAct a { s with hostQueue := rest } := by
  rw [step, h]

theorem hostAct_cmd_of_ok {w : CmdWord} {i : Instr} (h : decode w = .ok i) (s : State) :
    hostAct (.writeReg 0 w) s = exec i s := by
  change execWord w s = _
  rw [execWord, h]

theorem hostAct_cmd_of_error {w : CmdWord} {e : DecodeError} (h : decode w = .error e) (s : State) :
    hostAct (.writeReg 0 w) s = .next { s with err := .illegalCommand } := by
  change execWord w s = _
  rw [execWord, h]
  rfl

/-- A table word that decodes is a command word that does. -/
theorem decode_of_decodeTableWord {nbits w : Nat} {i : Instr} (h : decodeTableWord nbits w = some i) :
    decode (BitVec.ofNat 64 (w % 2 ^ nbits)) = .ok i := by
  unfold decodeTableWord at h
  cases hd : decode (BitVec.ofNat 64 (w % 2 ^ nbits)) with
  | error e =>
    rw [hd] at h
    cases h
  | ok j =>
    rw [hd] at h
    cases h
    rfl

/-- Settles O5: a step is the host's next action, and a write of a command's word to `CMD` executes it. -/
theorem stepRunsDecodedCommand : Obligations.StepRunsDecodedCommand := by
  refine ⟨fun s w rest i hq hd => ?_, fun s a rest => step_of_cons, fun s hq => ?_, fun s nbits w i hd => ?_⟩
  · rw [step_of_cons hq, hostAct_cmd_of_ok hd]
  · rw [step, hq]
  · rw [step_of_cons (s := s.withFetchWord nbits w) rfl, hostAct_cmd_of_ok (decode_of_decodeTableWord hd)]
    rfl

/-! ## Registers -/

/-- The numbers of the register map name registers (10_state.md R45). -/
theorem exists_regOf {k : Nat} (h : k < 11) : ∃ r, regOf k = some r :=
  ⟨_, List.getElem?_eq_getElem (l := [Reg.cmd, .status, .result, .inLen, .outLen, .rpos, .wcnt, .wacc, .nsym, .nnodes,
    .root]) h⟩

/-- Numbers of 0xB and above name none. -/
theorem regOf_eq_none {k : Nat} (h : 11 ≤ k) : regOf k = none :=
  List.getElem?_eq_none h

theorem hostAct_readReg {k : Nat} {r : Reg} (h : regOf k = some r) (s : State) :
    hostAct (.readReg k) s = .next (hostRead (regRead s r) s) := by
  simp only [hostAct, h]

/-- A write to a register other than `CMD` and `IN_LEN` is ignored (10_state.md R46). -/
theorem hostAct_writeReg_of_readOnly {k : Nat} (h0 : k ≠ 0) (h3 : k ≠ 3) (h : k < 11) (v : BitVec 64) (s : State) :
    hostAct (.writeReg k v) s = .next s := by
  interval_cases k
  · exact absurd rfl h0
  · rfl
  · rfl
  · exact absurd rfl h3
  all_goals rfl

/-- Settles O6, clause by clause. -/
theorem hostActionsDoWhatTheTableSays : Obligations.HostActionsDoWhatTheTableSays := by
  intro s
  have hcap := s.cfg.inCap.property
  refine ⟨fun w i h => hostAct_cmd_of_ok h s, fun w e h => hostAct_cmd_of_error h s, rfl, fun k hk => ?_,
    fun b => ⟨_, rfl⟩, fun b k => ⟨_, rfl⟩, fun i b hi => ?_, fun i b hi => ?_, fun n hn => ?_, fun n hn => ?_,
    fun k v h0 h3 hk => hostAct_writeReg_of_readOnly h0 h3 hk v s, fun k v hk => ?_, fun i b hi hb => ?_,
    fun i hi => ?_, fun i b hi hb => ?_, fun i hi hb => ?_, fun i hi => ?_⟩
  · obtain ⟨r, hr⟩ := exists_regOf hk
    exact ⟨_, hostAct_readReg hr s⟩
  · exact ⟨{ s with ibuf := s.ibuf.write i b }, if_pos hi, rfl, fun j => Memory.read_write _ _ _ _⟩
  · exact if_neg (Nat.not_lt.2 hi)
  · refine ⟨{ s with inLen := n.setWidth 32 }, if_pos hn, rfl, ?_⟩
    rw [BitVec.toNat_setWidth, Nat.mod_eq_of_lt]
    omega
  · exact if_neg (Nat.not_le.2 hn)
  · simp only [hostAct, writeRegister, regOf_eq_none hk, and_self]
  · simp only [hostAct, readObufByte, if_pos hi, hb]
    rfl
  · simp only [hostAct, readObufByte, if_neg (Nat.not_lt.2 hi)]
  · simp only [hostAct, if_pos hi, hb]
    rfl
  · simp only [hostAct, if_pos hi, hb]
  · exact if_neg (Nat.not_lt.2 hi)

/-- Zero-extension to the width of a host read keeps the value. -/
theorem toNat_setWidth_64 {n : Nat} (h : n ≤ 64) (v : BitVec n) : (v.setWidth 64).toNat = v.toNat := by
  rw [BitVec.toNat_setWidth, Nat.mod_eq_of_lt]
  exact v.isLt.trans_le (Nat.pow_le_pow_right (by decide) h)

theorem errBits_inj {e f : ErrCode} : errBits e = errBits f ↔ e = f := by
  cases e <;> cases f <;> decide

theorem errBits_lt (e : ErrCode) : (errBits e).toNat < 7 := by
  cases e <;> decide

theorem regRead_status_toNat (s : State) : (regRead s .status).toNat = (errBits s.err).toNat := by
  rw [regRead, toNat_setWidth_64 (by decide), statusWord, BitVec.toNat_setWidth, Nat.mod_eq_of_lt]
  exact (errBits_lt _).trans (by decide)

/-- `STATUS` tells the outcomes apart (10_state.md R25). -/
theorem regRead_status_eq (s : State) (e : ErrCode) :
    regRead s .status = (errBits e).setWidth 64 ↔ s.err = e := by
  rw [← BitVec.toNat_inj, regRead_status_toNat, toNat_setWidth_64 (by decide), BitVec.toNat_inj, errBits_inj]

/-- What the host reads from the register of a number, 0 where there is none. -/
def regValue (s : State) (k : Nat) : BitVec 64 := ((regOf k).map (regRead s)).getD 0

/-- A count below 512 fits the nine bits of `NSYM` and `NNODES`. -/
theorem toNat_count {n : Nat} (h : n ≤ 511) : ((BitVec.ofNat 9 n).setWidth 64).toNat = n := by
  rw [toNat_setWidth_64 (by decide), toNat_ofNat_nine h]

theorem rootWord_of_some {s : State} {r : NodeIx} (h : s.root = some r) : (rootWord s).toNat = r.toNat := by
  simp only [rootWord, h]
  rw [BitVec.toNat_setWidth, Nat.mod_eq_of_lt]
  exact r.isLt.trans (by decide)

/-- Settles O7: `regValue` has each row of the map. -/
theorem hostReadsRegisters : Obligations.HostReadsRegisters := by
  intro s hfreq hnodes
  refine ⟨regValue s, fun k hk => ?_, rfl, ?_, regRead_status_eq s .ok, regRead_status_eq s .malformedHeader,
    regRead_status_eq s .malformedTree, regRead_status_eq s .streamUnderrun, regRead_status_eq s .unmappedSymbol,
    regRead_status_eq s .capacityExceeded, regRead_status_eq s .illegalCommand,
    toNat_setWidth_64 (by decide) s.result, toNat_setWidth_64 (by decide) s.inLen,
    toNat_setWidth_64 (by decide) s.outLen, toNat_setWidth_64 (by decide) s.rpos,
    toNat_setWidth_64 (by decide) s.wcnt, toNat_setWidth_64 (by decide) s.wacc, toNat_count (by omega),
    toNat_count hnodes, fun hr => ?_, fun r hr => ?_⟩
  · obtain ⟨r, hr⟩ := exists_regOf hk
    rw [hostAct_readReg hr, regValue, hr]
    rfl
  · exact (regRead_status_toNat s).trans_lt (errBits_lt s.err)
  · change (rootWord s).setWidth 64 = _
    simp only [rootWord, hr]
    rfl
  · exact (toNat_setWidth_64 (by decide) (rootWord s)).trans (rootWord_of_some hr)

/-! ## The code table -/

theorem codeInfo_of_none {s : State} {b : Byte} (h : codeOf s b = none) : codeInfo s b = 0 := by
  rw [codeInfo, h]

/-- `V` in bit 31 and `LEN` in bits [7:0] (10_state.md R40). -/
theorem codeInfo_of_some {s : State} {b : Byte} {q : Bits} (h : codeOf s b = some q) (hq : q.length ≤ 255) :
    (codeInfo s b).toNat = 2 ^ 31 + q.length := by
  have hlen : ((BitVec.ofNat 8 q.length).setWidth 32).toNat = q.length := by
    rw [BitVec.toNat_setWidth, BitVec.toNat_ofNat, Nat.mod_eq_of_lt (a := q.length) (by omega),
      Nat.mod_eq_of_lt (by omega)]
  rw [codeInfo, h, BitVec.toNat_or, hlen]
  exact (Nat.two_pow_add_eq_or_of_lt (show q.length < 2 ^ 31 by omega) 1).symm

theorem codeBits_of_some {s : State} {b : Byte} {q : Bits} (h : codeOf s b = some q) : codeBits s b = q := by
  rw [codeBits, h]
  rfl

/-- Bit `31 - j` of word `k` is the code's bit `32 k + j`, zero beyond the code (10_state.md R40). -/
theorem getLsbD_codeWord (s : State) (b : Byte) (k : BitVec 3) {j : Nat} (hj : j < 32) :
    (codeWord s b k).getLsbD (31 - j) = (codeBits s b).getD (32 * k.toNat + j) false := by
  rw [codeWord, getLsbD_ofNat_numOf _ (by simp) _ (by omega)]
  simp only [List.getElem_map, List.getElem_range]
  congr 2
  omega

theorem codeWord_of_none {s : State} {b : Byte} (h : codeOf s b = none) (k : BitVec 3) : codeWord s b k = 0 := by
  refine BitVec.eq_of_getLsbD_eq fun i hi => ?_
  have hbit := getLsbD_codeWord s b k (j := 31 - i) (by omega)
  rw [show 31 - (31 - i) = i by omega, codeBits, h] at hbit
  simpa using hbit

/-- Settles O8: an entry without a code reads 0, one with a code reads its length and its bits. -/
theorem hostReadsCodeTable : Obligations.HostReadsCodeTable := by
  refine ⟨fun s b h => ⟨?_, fun k => ?_⟩, fun s b q h hq => ⟨⟨_, rfl, ?_⟩, fun k => ⟨_, rfl, ?_, fun j hj => ?_⟩⟩⟩
  · simp only [hostAct, codeInfo_of_none h]
    rfl
  · simp only [hostAct, codeWord_of_none h]
    rfl
  · rw [toNat_setWidth_64 (by decide), codeInfo_of_some h hq]
  · rw [toNat_setWidth_64 (by decide)]
    exact (codeWord s b k).isLt
  · rw [BitVec.getLsbD_setWidth, getLsbD_codeWord s b k hj, codeBits_of_some h, decide_eq_true (by omega),
      Bool.true_and]

end Sys2Proof.Machine
end

section
/-! SUPPORT. What each command does directly after reset (10_state.md R44, 70_reset_and_hazards.md R271). -/

namespace Sys2Proof.Machine

/-- Settles O9: each value by evaluation, the tables by their entries. -/
theorem resetStateHoldsSpecValues : Obligations.ResetStateHoldsSpecValues := by
  rintro c s rfl
  exact ⟨rfl, rfl, rfl, rfl, rfl, rfl, rfl, rfl, rfl, rfl, tableGet_zeroCounts, tableGet_emptyTable, rfl⟩

/-! ## The writer's commands on an empty writer -/

/-- With no partial byte the accumulator is empty (10_state.md R30). -/
theorem WriterOk.wacc_eq_zero {s : State} (h : WriterOk s) (h0 : s.wcnt = 0) : s.wacc = 0 := by
  refine BitVec.eq_of_getLsbD_eq fun k hk => ?_
  rw [h.2 k (by rw [h0]; simpa using hk)]
  simp

/-- Whole bytes appended after reset: the length, no partial byte, and each byte from its bits. -/
theorem foldl_putBit1_resetWith {c : Config} {q : Bits} {k : Nat} (hq : q.length = 8 * k) (hk : k ≤ c.outCap.val) :
    ∃ o, q.foldl putBit1 (State.resetWith c) = { State.resetWith c with outLen := BitVec.ofNat 32 k, obuf := o } ∧
      ∀ i (v : Byte) (p r : Bits), i < k → q = p ++ (bitsOf v ++ r) → p.length = 8 * i → o.read i = some v := by
  have hw := (inv_resetWith c).writer
  have room : writePos (State.resetWith c) + q.length ≤ writeCap (State.resetWith c) := by
    rw [show writePos (State.resetWith c) = 0 from rfl, show writeCap (State.resetWith c) = 8 * c.outCap.val from rfl]
    omega
  obtain ⟨hbits, hpos, hw', -⟩ := foldl_putBit1_spec q hw room
  have hsome (i : Nat) := foldl_putBit1_some q hw room (Nat.zero_le i)
  obtain ⟨o, n, a, m, he⟩ := foldl_putBit1_frame q (State.resetWith c)
  rw [he] at hbits hpos hw' hsome
  have hm : m.toNat < 8 := m.isLt
  have hpos : 8 * n.toNat + m.toNat = 8 * k := by
    rw [← hq, ← Nat.zero_add q.length]
    exact hpos
  obtain rfl : m = 0 := BitVec.eq_of_toNat_eq (show m.toNat = 0 by omega)
  obtain rfl : n = BitVec.ofNat 32 k := by
    rw [show k = n.toNat by omega, BitVec.ofNat_toNat, BitVec.setWidth_eq]
  obtain rfl : a = 0 := hw'.wacc_eq_zero rfl
  refine ⟨o, he, fun i v p r hi hv hp => ?_⟩
  have hlt : i < (BitVec.ofNat 32 k).toNat := by omega
  exact read_of_writtenBits
    (s := { State.resetWith c with obuf := o, outLen := BitVec.ofNat 32 k, wacc := 0, wcnt := 0 }) hlt (hsome i hlt)
    (hbits.trans hv) hp

/-- The bits of a 32-bit value, cut at its byte `i`. -/
theorem bitsOf_word_eq (n : Word32) {i : Nat} (hi : i < 4) :
    bitsOf n = (bitsOf n).take (8 * i) ++ (bitsOf (n.extractLsb' (24 - 8 * i) 8) ++ (bitsOf n).drop (8 * i + 8)) := by
  have hbyte : bitsOf (n.extractLsb' (24 - 8 * i) 8) = ((bitsOf n).drop (8 * i)).take 8 := by
    apply List.ext_getElem
    · simp
      omega
    · intro j h1 h2
      rw [bitsOf_length] at h1
      rw [List.getElem_take, List.getElem_drop, bitsOf_getElem, bitsOf_getElem, BitVec.getLsbD_extractLsb',
        decide_eq_true (by omega), Bool.true_and]
      congr 1
      omega
  rw [hbyte, ← List.drop_drop, List.take_append_drop, List.take_append_drop]

section

variable (c : Config)

/-- Every buffer has room for four bytes (00_scope.md R6). -/
theorem room_resetWith {n : Nat} (hn : n ≤ 32) : writePos (State.resetWith c) + n ≤ writeCap (State.resetWith c) := by
  have hc := c.outCap.property
  rw [show writePos (State.resetWith c) = 0 from rfl, show writeCap (State.resetWith c) = 8 * c.outCap.val from rfl]
  omega

theorem appendOperand_resetWith {n : Nat} (v : BitVec n) (hn : n ≤ 32) :
    appendOperand v (State.resetWith c) = .next (setErr .ok ((bitsOf v).foldl putBit1 (State.resetWith c))) :=
  appendOperand_of_room (room_resetWith c hn)

theorem putBit1_resetWith (b : Bool) :
    putBit1 (State.resetWith c) b = { State.resetWith c with wacc := if b then 0x80 else 0, wcnt := 1 } := by
  have hacc : ∀ b : Bool, (0 : Byte) ||| ((BitVec.ofBool b).setWidth 8 <<< 7) = if b then 0x80 else 0 := by decide
  rw [← hacc, putBit1, if_neg (show (State.resetWith c).wcnt ≠ 7 from (by decide : (0 : BitVec 3) ≠ 7))]
  rfl

theorem execBwPutbit_resetWith (b : BitVec 1) :
    exec (.bwPutbit b) (State.resetWith c) =
      .next { State.resetWith c with wacc := if b = 1 then 0x80 else 0, wcnt := 1 } := by
  have hbits : bitsOf b = [b == 1] := by
    revert b
    decide
  refine (appendOperand_resetWith c b (by decide)).trans ?_
  rw [hbits, List.foldl_cons, List.foldl_nil, putBit1_resetWith]
  simp only [beq_iff_eq]
  rfl

theorem execBwPutbyte_resetWith (v : Byte) :
    ∃ t, exec (.bwPutbyte v) (State.resetWith c) = .next t ∧
      t = { State.resetWith c with outLen := 1, obuf := t.obuf } ∧ t.obuf.read 0 = some v := by
  have hc := c.outCap.property
  obtain ⟨o, he, hread⟩ := foldl_putBit1_resetWith (c := c) (q := bitsOf v) (k := 1) (by simp) (by omega)
  refine ⟨{ State.resetWith c with outLen := 1, obuf := o }, ?_, rfl,
    hread 0 v [] [] Nat.one_pos (by simp) rfl⟩
  refine (appendOperand_resetWith c v (by decide)).trans ?_
  rw [he]
  rfl

/-- Four bytes, the most significant first. -/
theorem foldl_putBit1_word_resetWith (n : Word32) :
    ∃ o, (bitsOf n).foldl putBit1 (State.resetWith c) = { State.resetWith c with outLen := 4, obuf := o } ∧
      ∀ i, i < 4 → o.read i = some (n.extractLsb' (24 - 8 * i) 8) := by
  obtain ⟨o, he, hread⟩ := foldl_putBit1_resetWith (c := c) (q := bitsOf n) (k := 4) (by simp) c.outCap.property.1
  exact ⟨o, he, fun i hi => hread i _ _ _ hi (bitsOf_word_eq n hi) (by simp; omega)⟩

theorem execBwPutu32_resetWith (n : Word32) :
    ∃ t, exec (.bwPutu32 n) (State.resetWith c) = .next t ∧
      t = { State.resetWith c with outLen := 4, obuf := t.obuf } ∧
      t.obuf.read 0 = some (n.extractLsb' 24 8) ∧ t.obuf.read 1 = some (n.extractLsb' 16 8) ∧
      t.obuf.read 2 = some (n.extractLsb' 8 8) ∧ t.obuf.read 3 = some (n.extractLsb' 0 8) := by
  obtain ⟨o, he, hread⟩ := foldl_putBit1_word_resetWith c n
  refine ⟨{ State.resetWith c with outLen := 4, obuf := o }, ?_, rfl, hread 0 (by decide), hread 1 (by decide),
    hread 2 (by decide), hread 3 (by decide)⟩
  refine (appendOperand_resetWith c n (by decide)).trans ?_
  rw [he]
  rfl

theorem execTcSer_resetWith : exec .tcSer (State.resetWith c) = .next { State.resetWith c with wcnt := 1 } := by
  change settle _ (putSeq [false] (State.resetWith c)) = _
  rw [putSeq_of_room (room_resetWith c (by decide)), List.foldl_cons, List.foldl_nil, putBit1_resetWith]
  rfl

/-! ## The other commands -/

theorem countBody_resetWith : countBody (State.resetWith c) = .ok (State.resetWith c) :=
  if_neg (Nat.not_lt_zero _)

theorem execFqCount_resetWith : exec .fqCount (State.resetWith c) = .next (State.resetWith c) := by
  rw [exec, execFqCount, countBody_resetWith]
  rfl

theorem payloadBody_resetWith : payloadBody (State.resetWith c) = .ok (State.resetWith c) :=
  if_neg (Nat.not_lt_zero _)

theorem execEnPayload_resetWith : exec .enPayload (State.resetWith c) = .next (State.resetWith c) := by
  rw [exec, execEnPayload, payloadBody_resetWith]
  rfl

theorem analyseBody_resetWith : analyseBody (State.resetWith c) = .ok (State.resetWith c) := by
  rw [analyseBody, countBody_resetWith]
  rfl

/-- The stream of the empty input is its length, with no tree and no code (46_compress.md R202). -/
theorem emitBody_resetWith {o : Memory}
    (h : (bitsOf (0 : Word32)).foldl putBit1 (State.resetWith c) = { State.resetWith c with outLen := 4, obuf := o }) :
    emitBody (State.resetWith c) = .ok { State.resetWith c with outLen := 4, obuf := o } := by
  have hput : putBits (State.resetWith c).inLen (State.resetWith c) =
      .ok { State.resetWith c with outLen := 4, obuf := o } := by
    rw [← h]
    exact putSeq_of_room (room_resetWith c (by simp))
  rw [emitBody, hput]
  rfl

theorem execCompress_resetWith :
    ∃ t, exec .compress (State.resetWith c) = .next t ∧ t.err = .ok ∧ t.outLen = 4 ∧
      ∀ i, i < 4 → t.obuf.read i = some 0 := by
  obtain ⟨o, he, hread⟩ := foldl_putBit1_word_resetWith c 0
  refine ⟨{ State.resetWith c with outLen := 4, obuf := o }, ?_, rfl, rfl, fun i hi => ?_⟩
  · have hempty : emptyWriter (State.resetWith c) = State.resetWith c := rfl
    simp only [exec, execCompress, analyseBody_resetWith, hempty, emitBody_resetWith c he]
    rfl
  · exact (hread i hi).trans (congrArg some BitVec.extractLsb'_zero)

theorem execEnSym_resetWith (v : Byte) :
    exec (.enSym v) (State.resetWith c) = .next { State.resetWith c with err := .unmappedSymbol } := by
  have hcode : codeOf (State.resetWith c) v = none := tableGet_emptyTable v
  simp only [exec, execEnSym, encodeSymbol, hcode]
  rfl

theorem execDePayload_resetWith (n : Word32) :
    exec (.dePayload n) (State.resetWith c) =
      .next { State.resetWith c with err := if n = 0 then .ok else .malformedHeader } := by
  by_cases hn : n = 0
  · subst hn
    rfl
  · change settle _ (dePayloadBody n (State.resetWith c)) = _
    rw [dePayloadBody, if_pos ⟨hn, rfl⟩, if_neg hn]
    rfl

theorem readResult_resetWith {n : Nat} (hn : 0 < n) :
    readResult n (State.resetWith c) = .next { State.resetWith c with err := .streamUnderrun } :=
  readResult_of_underrun (by simpa [State.resetWith] using hn)

theorem execTcDes_resetWith :
    exec .tcDes (State.resetWith c) = .next { State.resetWith c with err := .streamUnderrun } := by
  refine execTcDes_of_error ?_
  rw [Config.maxDepth, parse, readBits_of_underrun (by simp [State.resetWith])]
  rfl

end

/-- Settles O12: one lemma for each command that does something, evaluation for the others. -/
theorem commandsAfterReset : Obligations.CommandsAfterReset := by
  rintro c s rfl
  exact ⟨⟨_, rfl, rfl⟩, execFqCount_resetWith c, rfl, rfl, rfl, execBwPutbit_resetWith c,
    execBwPutbyte_resetWith c, execBwPutu32_resetWith c, rfl, fun n => rfl, execEnSym_resetWith c,
    execEnPayload_resetWith c, execDePayload_resetWith c, execCompress_resetWith c, rfl, rfl,
    readResult_resetWith c (n := 1) (by decide), readResult_resetWith c (n := 8) (by decide),
    readResult_resetWith c (n := 32) (by decide),
    execTcDes_resetWith c, execTcSer_resetWith c⟩

end Sys2Proof.Machine
end

section
/-! SUPPORT. The decoder against the opcode table and the encoder (30_encoding.md R90 to R97). `OpRow.Reads` says of a
row and the commands it stands for how their words are read and what their fields are; `opTable_reads` says it of every
row of the table. -/

namespace Sys2Proof

/-! ## A word and its fields -/

/-- The fields of R90 make up the word. -/
theorem toNat_eq_fields (w : CmdWord) :
    w.toNat = (opField w).toNat * 2 ^ 56 + (rsvField w).toNat * 2 ^ 32 + (argField w).toNat := by
  have := w.isLt
  simp only [opField, rsvField, argField, BitVec.extractLsb'_toNat, Nat.shiftRight_eq_div_pow]
  omega

theorem eq_of_fields {w w' : CmdWord} (hop : opField w = opField w') (hrsv : rsvField w = rsvField w')
    (harg : argField w = argField w') : w = w' :=
  BitVec.eq_of_toNat_eq (by rw [toNat_eq_fields w, toNat_eq_fields w', hop, hrsv, harg])

theorem encode_eq_of_fields {w : CmdWord} {i : Instr} (hop : opcodeOf i = opField w) (hrsv : rsvField w = 0)
    (harg : operandOf i = argField w) : encode i = w :=
  eq_of_fields ((opField_encode i).trans hop) ((rsvField_encode i).trans hrsv.symm) ((argField_encode i).trans harg)

/-! ## The rows of the table -/

/-- The mask of a format leaves out the operand's bits (30_encoding.md R91). -/
theorem formatMask_eq_allOnes_shiftLeft (f : Format) : formatMask f = BitVec.allOnes 64 <<< formatWidth f := by
  cases f <;> rfl

theorem toNat_and_formatMask (w : CmdWord) (f : Format) :
    (w &&& formatMask f).toNat = w.toNat / 2 ^ formatWidth f * 2 ^ formatWidth f := by
  have hle := Nat.div_mul_le_self w.toNat (2 ^ formatWidth f)
  rw [formatMask_eq_allOnes_shiftLeft, ← BitVec.shiftLeft_ushiftRight, BitVec.toNat_shiftLeft,
    BitVec.toNat_ushiftRight, Nat.shiftRight_eq_div_pow, Nat.shiftLeft_eq, Nat.mod_eq_of_lt (hle.trans_lt w.isLt)]

theorem toNat_rowMatch (r : OpRow) : (rowMatch r).toNat = r.op.toNat * 2 ^ 56 := by
  have := r.op.isLt
  rw [rowMatch, BitVec.toNat_shiftLeft, BitVec.toNat_setWidth, Nat.shiftLeft_eq]
  omega

/-- Mask and match, as conditions on the three fields (30_encoding.md R91, R94). -/
theorem rowEncodes_iff {r : OpRow} {w : CmdWord} :
    rowEncodes r w = true ↔ opField w = r.op ∧ rsvField w = 0 ∧ (argField w).toNat < 2 ^ formatWidth r.format := by
  have hw := toNat_eq_fields w
  have hrsv := (rsvField w).isLt
  have harg := (argField w).isLt
  have hzero : (0 : BitVec 24).toNat = 0 := rfl
  simp only [rowEncodes, beq_iff_eq, ← BitVec.toNat_inj, toNat_and_formatMask, toNat_rowMatch, hzero]
  cases r.format <;> simp only [formatWidth] <;> omega

/-- No opcode stands in two rows (30_encoding.md R93). -/
theorem opTable_eq_of_op_eq {r r' : OpRow} (hr : r ∈ opTable) (hr' : r' ∈ opTable) (h : r.op = r'.op) : r = r' :=
  List.inj_on_of_nodup_map (f := OpRow.op) (by decide) hr hr' h

theorem formatOf_eq_some_iff {op : BitVec 8} {f : Format} :
    formatOf op = some f ↔ ∃ r ∈ opTable, r.op = op ∧ r.format = f := by
  rw [formatOf, Option.map_eq_some_iff]
  constructor
  · rintro ⟨r, hr, rfl⟩
    exact ⟨r, List.mem_of_find?_eq_some hr, by simpa using List.find?_some hr, rfl⟩
  · rintro ⟨r, hr, rfl, rfl⟩
    obtain ⟨r', hf⟩ : ∃ r', opTable.find? (fun q => q.op == r.op) = some r' :=
      Option.isSome_iff_exists.1 (List.find?_isSome.2 ⟨r, hr, beq_self_eq_true _⟩)
    have hop : r'.op = r.op := by simpa using List.find?_some hf
    rw [opTable_eq_of_op_eq (List.mem_of_find?_eq_some hf) hr hop] at hf
    exact ⟨r, hf, rfl⟩

/-- The three checks of R94 pass exactly on the words that match a row. -/
theorem wellFormed_iff {w : CmdWord} : wellFormed w = true ↔ ∃ r ∈ opTable, rowEncodes r w = true := by
  simp only [rowEncodes_iff, wellFormed, opAssigned, reservedZero, operandFits, Bool.and_eq_true, beq_iff_eq]
  constructor
  · rintro ⟨⟨hop, hrsv⟩, harg⟩
    obtain ⟨f, hf⟩ := Option.isSome_iff_exists.1 hop
    obtain ⟨r, hr, hro, rfl⟩ := formatOf_eq_some_iff.1 hf
    rw [hf] at harg
    exact ⟨r, hr, hro.symm, hrsv, of_decide_eq_true harg⟩
  · rintro ⟨r, hr, hop, hrsv, harg⟩
    rw [formatOf_eq_some_iff.2 ⟨r, hr, hop.symm, rfl⟩]
    exact ⟨⟨rfl, hrsv⟩, decide_eq_true harg⟩

/-! ## Operands -/

theorem takeOperand_of_lt {k : Nat} {arg : Word32} (h : arg.toNat < 2 ^ k) (mk : BitVec k → Instr) :
    takeOperand k arg mk = .ok (mk (arg.setWidth k)) :=
  if_pos h

theorem takeOperand_eq_ok {k : Nat} {arg : Word32} {mk : BitVec k → Instr} {i : Instr}
    (h : takeOperand k arg mk = .ok i) : arg.toNat < 2 ^ k ∧ mk (arg.setWidth k) = i := by
  unfold takeOperand at h
  split at h
  · next hlt => exact ⟨hlt, Except.ok.inj h⟩
  · cases h

/-- An operand is read back from the `arg` it stands in (30_encoding.md R92). -/
theorem takeOperand_setWidth {k : Nat} (hk : k ≤ 32) (v : BitVec k) (mk : BitVec k → Instr) :
    takeOperand k (v.setWidth 32) mk = .ok (mk v) := by
  rw [takeOperand_of_lt (by rw [BitVec.toNat_setWidth_of_le hk]; exact v.isLt), BitVec.setWidth_setWidth_of_le v hk,
    BitVec.setWidth_eq]

/-- An `arg` that fits in the operand is the operand. -/
theorem setWidth_setWidth_of_lt {k : Nat} {arg : Word32} (h : arg.toNat < 2 ^ k) :
    (arg.setWidth k).setWidth 32 = arg := by
  apply BitVec.eq_of_toNat_eq
  rw [BitVec.toNat_setWidth, BitVec.toNat_setWidth, Nat.mod_eq_of_lt h, Nat.mod_eq_of_lt arg.isLt]

/-! ## The decoder on the fields -/

theorem decodeFields_opcodeOf_operandOf (i : Instr) : decodeFields (opcodeOf i) (operandOf i) = .ok i := by
  cases i with
  | bwPutbit b => exact takeOperand_setWidth (by decide) b .bwPutbit
  | bwPutbyte v => exact takeOperand_setWidth (by decide) v .bwPutbyte
  | enSym v => exact takeOperand_setWidth (by decide) v .enSym
  | bwPutu32 n | brSeek n | dePayload n => exact takeOperand_setWidth (Nat.le_refl 32) n _
  | _ => rfl

/-- A word with the row's opcode is read as one of the row's commands `mk v`, which have that opcode and the operand
`v`. For a row of the table all three hold by evaluation. -/
structure OpRow.Reads (r : OpRow) (mk : BitVec (formatWidth r.format) → Instr) : Prop where
  decodeFields_eq : ∀ arg, decodeFields r.op arg = takeOperand (formatWidth r.format) arg mk := by intro _; rfl
  opcodeOf_eq : ∀ v, opcodeOf (mk v) = r.op := by intro _; rfl
  operandOf_eq : ∀ v, operandOf (mk v) = v.setWidth 32 := by intro _; rfl

/-- Rows of format `N`. -/
theorem OpRow.Reads.ofNone {op : BitVec 8} {name : String} (i : Instr)
    (hd : ∀ arg, decodeFields op arg = takeNone arg i := by intro _; rfl) (hop : opcodeOf i = op := by rfl)
    (harg : operandOf i = 0 := by rfl) : OpRow.Reads ⟨op, name, .n⟩ (fun _ => i) :=
  ⟨hd, fun _ => hop, fun v => by rw [harg, BitVec.eq_nil v]; rfl⟩

theorem opTable_reads : ∀ r ∈ opTable, ∃ mk, r.Reads mk := by
  simp only [opTable, List.cons_append, List.nil_append, List.forall_mem_cons]
  exact ⟨⟨_, .ofNone .reset⟩, ⟨_, .ofNone .fqCount⟩, ⟨_, .ofNone .tbBuild⟩, ⟨_, .ofNone .cgGen⟩, ⟨_, .ofNone .bwInit⟩,
    ⟨.bwPutbit, {}⟩, ⟨.bwPutbyte, {}⟩, ⟨.bwPutu32, {}⟩, ⟨_, .ofNone .bwFinal⟩, ⟨.brSeek, {}⟩, ⟨_, .ofNone .brGetbit⟩,
    ⟨_, .ofNone .brGetbyte⟩, ⟨_, .ofNone .brGetu32⟩, ⟨_, .ofNone .tcSer⟩, ⟨_, .ofNone .tcDes⟩, ⟨.enSym, {}⟩,
    ⟨_, .ofNone .enPayload⟩, ⟨_, .ofNone .deSym⟩, ⟨.dePayload, {}⟩, ⟨_, .ofNone .compress⟩, ⟨_, .ofNone .decompress⟩,
    List.forall_mem_nil _⟩

theorem decodeFields_of_unassigned {op : BitVec 8} (h : ∀ r ∈ opTable, r.op ≠ op) (arg : Word32) :
    decodeFields op arg = .error .opUnassigned := by
  simp only [opTable, List.cons_append, List.nil_append, List.forall_mem_cons, ne_eq, eq_comm (b := op)] at h
  simp only [decodeFields, h, if_false]

/-- What the decoder reads from `op` and `arg` is a command of the row of `op`, with these fields. -/
theorem decodeFields_eq_ok {op : BitVec 8} {arg : Word32} {i : Instr} (h : decodeFields op arg = .ok i) :
    ∃ r ∈ opTable, r.op = op ∧ arg.toNat < 2 ^ formatWidth r.format ∧ opcodeOf i = op ∧ operandOf i = arg := by
  by_cases hop : ∃ r ∈ opTable, r.op = op
  · obtain ⟨r, hr, rfl⟩ := hop
    obtain ⟨mk, hmk⟩ := opTable_reads r hr
    rw [hmk.decodeFields_eq] at h
    obtain ⟨hlt, rfl⟩ := takeOperand_eq_ok h
    exact ⟨r, hr, rfl, hlt, hmk.opcodeOf_eq _, (hmk.operandOf_eq _).trans (setWidth_setWidth_of_lt hlt)⟩
  · push Not at hop
    rw [decodeFields_of_unassigned hop] at h
    cases h

/-! ## The decoder -/

theorem decode_of_rsvField_eq_zero {w : CmdWord} (h : rsvField w = 0) :
    decode w = decodeFields (opField w) (argField w) :=
  if_pos (beq_iff_eq.2 h)

theorem decode_eq_ok {w : CmdWord} {i : Instr} (h : decode w = .ok i) :
    rsvField w = 0 ∧ decodeFields (opField w) (argField w) = .ok i := by
  unfold decode at h
  split at h
  · next hrsv => exact ⟨beq_iff_eq.1 hrsv, h⟩
  · cases h

theorem decode_encode (i : Instr) : decode (encode i) = .ok i := by
  rw [decode_of_rsvField_eq_zero (rsvField_encode i), opField_encode, argField_encode, decodeFields_opcodeOf_operandOf]

/-- A command is encoded by the word it was decoded from and no other (30_encoding.md R95). -/
theorem encode_of_decode {w : CmdWord} {i : Instr} (h : decode w = .ok i) : encode i = w := by
  obtain ⟨hrsv, hd⟩ := decode_eq_ok h
  obtain ⟨-, -, -, -, hop, harg⟩ := decodeFields_eq_ok hd
  exact encode_eq_of_fields hop hrsv harg

theorem exists_row_of_decode {w : CmdWord} {i : Instr} (h : decode w = .ok i) :
    ∃ r ∈ opTable, rowEncodes r w = true ∧ r.op = opcodeOf i := by
  obtain ⟨hrsv, hd⟩ := decode_eq_ok h
  obtain ⟨r, hr, hop, hlt, hi, -⟩ := decodeFields_eq_ok hd
  exact ⟨r, hr, rowEncodes_iff.2 ⟨hop.symm, hrsv, hlt⟩, hop.trans hi.symm⟩

theorem exists_decode_of_row {r : OpRow} {w : CmdWord} (hr : r ∈ opTable) (h : rowEncodes r w = true) :
    ∃ i, decode w = .ok i := by
  obtain ⟨hop, hrsv, hlt⟩ := rowEncodes_iff.1 h
  obtain ⟨mk, hmk⟩ := opTable_reads r hr
  exact ⟨_, by rw [decode_of_rsvField_eq_zero hrsv, hop, hmk.decodeFields_eq, takeOperand_of_lt hlt]⟩

theorem exists_decode_iff {w : CmdWord} : (∃ i, decode w = .ok i) ↔ ∃ r ∈ opTable, rowEncodes r w = true := by
  constructor
  · rintro ⟨i, hi⟩
    obtain ⟨r, hr, hw, -⟩ := exists_row_of_decode hi
    exact ⟨r, hr, hw⟩
  · rintro ⟨r, hr, hw⟩
    exact exists_decode_of_row hr hw

theorem exists_decode_error_iff {w : CmdWord} : (∃ e, decode w = .error e) ↔ ¬∃ i, decode w = .ok i := by
  cases decode w <;> simp

/-! ## The obligations -/

/-- Settles O1: opcode and operand are the fields of the command's word, and the decoder reads the command from them. -/
theorem decodeOfEncodeIsIdentity : Obligations.DecodeOfEncodeIsIdentity :=
  decode_encode

/-- Settles O2: two rows that match one word share its opcode, so they are one row. -/
theorem wordsMatchTheTable : Obligations.WordsMatchTheTable := by
  refine ⟨fun w => exists_decode_iff, fun w r hr r' hr' h h' => ?_,
    fun w i h => ⟨encode_of_decode h, exists_row_of_decode h⟩⟩
  obtain ⟨hop, -, -⟩ := rowEncodes_iff.1 h
  obtain ⟨hop', -, -⟩ := rowEncodes_iff.1 h'
  exact opTable_eq_of_op_eq hr hr' (hop.symm.trans hop')

/-- Settles O4: what is no command matches no row, which is that a check of R94 fails. -/
theorem illegalWordsOnlySetErr : Obligations.IllegalWordsOnlySetErr := by
  refine ⟨fun w => ?_, fun w => ?_, by decide +kernel, rfl, rfl, fun s w ⟨e, h⟩ => Machine.hostAct_cmd_of_error h s⟩
  · simp [exists_decode_error_iff, exists_decode_iff]
  · rw [exists_decode_error_iff, exists_decode_iff, ← wellFormed_iff]
    simp only [wellFormed, Bool.not_eq_true, Bool.and_eq_false_iff, or_assoc]

/-- Settles O3: each of the words is its command's encoding. -/
theorem specWordsDecode : Obligations.SpecWordsDecode :=
  ⟨decode_encode .reset, decode_encode .fqCount, decode_encode .tbBuild, decode_encode .cgGen,
    decode_encode (.bwPutbit 1), decode_encode (.bwPutbyte 0x61), decode_encode (.bwPutu32 4),
    decode_encode (.brSeek 32), decode_encode .tcDes, decode_encode (.dePayload 4), decode_encode .compress,
    decode_encode .decompress⟩

end Sys2Proof
end

section
/-! SUPPORT. `FQ.COUNT` as a command: the table of `countBody_spec` with the error code of a success
(40_freq_counter.md R110 to R112). -/

namespace Sys2Proof.Machine

/-- The table is empty exactly when no byte was counted (40_freq_counter.md R111). -/
theorem Tabulates.freqOrder_eq_nil_iff {u : State} {bs : List Byte} (h : Tabulates u bs) :
    u.freqOrder = [] ↔ bs = [] := by
  simp only [List.eq_nil_iff_forall_not_mem, h.mem]

theorem Tabulates.setErr {u : State} {bs : List Byte} (h : Tabulates u bs) (e : ErrCode) :
    Tabulates (setErr e u) bs :=
  ⟨h.count, h.nodup, h.mem, h.order⟩

theorem inputBytes_eq_nil_iff {s : State} : inputBytes s = [] ↔ s.inLen = 0 := by
  rw [← List.length_eq_zero_iff, inputBytes_length, ← BitVec.toNat_inj]
  rfl

/-- `FQ.COUNT` succeeds on every legal input length and writes the table of the input alone (40_freq_counter.md R110,
R112). -/
theorem execFqCount_spec {s : State} (hi : InputOk s) :
    ∃ t, exec .fqCount s = .next t ∧
      t = { s with err := .ok, freqCount := t.freqCount, freqOrder := t.freqOrder } ∧ Tabulates t (inputBytes s) := by
  obtain ⟨u, hu, hframe, htab⟩ := countBody_spec hi
  refine ⟨Machine.setErr .ok u, ?_, ?_, htab.setErr .ok⟩
  · rw [exec, execFqCount, hu, settle_ok]
  · exact congrArg (Machine.setErr .ok) hframe

/-- Settles O21: the command leaves a table of the input, and each clause is a property of such a table. -/
theorem fqCountTabulatesTheInput : Obligations.FqCountTabulatesTheInput := by
  intro s hi
  obtain ⟨t, ht, hframe, htab⟩ := execFqCount_spec hi
  have hlen : (inputBytes s).length ≤ t.cfg.inCap.val := by
    rw [inputBytes_length, hframe]
    exact hi
  exact ⟨t, ht, hframe, htab.count, htab.nodup, htab.mem, htab.order, htab.sum.trans (inputBytes_length s),
    htab.freqOrder_eq_nil_iff.trans inputBytes_eq_nil_iff, htab.freqOk hlen⟩

end Sys2Proof.Machine
end

section
/-! SUPPORT. The sort of the merge queue (41_tree_builder.md R124): it is stable. -/

namespace Sys2Proof.Machine

theorem insertStable_ascending {x : QEntry} {q : List QEntry}
    (h : q.Pairwise (fun x y => x.weight.toNat ≤ y.weight.toNat)) :
    (insertStable x q).Pairwise (fun x y => x.weight.toNat ≤ y.weight.toNat) := by
  induction q with
  | nil => exact List.pairwise_singleton ..
  | cons y q ih =>
    have ⟨hy, hq⟩ := List.pairwise_cons.1 h
    unfold insertStable
    split
    · next hxy =>
      refine .cons ?_ h
      rintro z (_ | ⟨_, hz⟩)
      · exact hxy
      · exact hxy.trans (hy z hz)
    · next hxy =>
      refine .cons (fun z hz => ?_) (ih hq)
      rcases List.mem_cons.1 ((insertStable_perm x q).mem_iff.1 hz) with rfl | hz
      · exact Nat.le_of_not_le hxy
      · exact hy z hz

theorem stableSort_ascending (q : List QEntry) :
    (stableSort q).Pairwise (fun x y => x.weight.toNat ≤ y.weight.toNat) := by
  induction q with
  | nil => exact .nil
  | cons x q ih => exact insertStable_ascending ih

/-- An insertion passes only entries of other weights. -/
theorem insertStable_filter_weight (x : QEntry) (q : List QEntry) (w : Word32) :
    (insertStable x q).filter (fun e => e.weight = w) = (x :: q).filter (fun e => e.weight = w) := by
  induction q with
  | nil => rfl
  | cons y q ih =>
    unfold insertStable
    split
    · rfl
    · next hxy =>
      rw [List.filter_cons, ih]
      by_cases hy : y.weight = w
      · have hx : x.weight ≠ w := by
          rintro rfl
          exact hxy (Nat.le_of_eq (congrArg BitVec.toNat hy.symm))
        simp [hx, hy]
      · simp [List.filter_cons, hy]

theorem stableSort_filter_weight (q : List QEntry) (w : Word32) :
    (stableSort q).filter (fun e => e.weight = w) = q.filter (fun e => e.weight = w) := by
  induction q with
  | nil => rfl
  | cons x q ih => simp only [stableSort, insertStable_filter_weight, List.filter_cons, ih]

/-- Settles O22: an insertion keeps the ascending order and passes no entry of its own weight. -/
theorem stableSortIsStable : Obligations.StableSortIsStable :=
  fun q => ⟨stableSort_perm q, stableSort_ascending q, stableSort_filter_weight q⟩

end Sys2Proof.Machine
end

section
/-! SUPPORT. `TB.BUILD` as a command: the arena of `buildBody_spec` with the error code of a success
(41_tree_builder.md R120 to R126). -/

namespace Sys2Proof.Machine

variable {order : List Byte} {cnt : Byte → Word32} {nodes : List Node}

/-! ## What the merge steps say of the arena -/

theorem Before.exists_weight_le {x y : Nat} (h : Before nodes x y) :
    ∃ a b, nodes[x]? = some a ∧ nodes[y]? = some b ∧ a.weight.toNat ≤ b.weight.toNat := by
  obtain ⟨a, b, ha, hb, hlt | ⟨heq, -⟩⟩ := h
  · exact ⟨a, b, ha, hb, hlt.le⟩
  · exact ⟨a, b, ha, hb, (congrArg BitVec.toNat heq).le⟩

/-- Each internal entry's children are earlier entries, the lighter one on the left, and it weighs their exact sum
(41_tree_builder.md R122). -/
theorem Merging.exists_children {q : List QEntry} (h : Merging order cnt nodes q) {m : Nat}
    (hm : order.length ≤ m) (hlt : m < nodes.length) :
    ∃ w l r a b, nodes[m]? = some (.internal w l r) ∧ l.toNat < m ∧ r.toNat < m ∧
      nodes[l.toNat]? = some a ∧ nodes[r.toNat]? = some b ∧
      w.toNat = a.weight.toNat + b.weight.toNat ∧ a.weight.toNat ≤ b.weight.toNat := by
  have hnode := List.getElem?_eq_getElem hlt
  obtain ⟨w, l, r, hn⟩ := h.inner m _ hnode hm
  rw [hn] at hnode
  obtain ⟨⟨hl, -⟩, ⟨hr, -⟩, hbefore, -, a, b, ha, hb, hw⟩ := h.merged m w l r hnode
  obtain ⟨a', b', ha', hb', hle⟩ := hbefore.exists_weight_le
  obtain rfl := Option.some.inj (ha.symm.trans ha')
  obtain rfl := Option.some.inj (hb.symm.trans hb')
  exact ⟨w, l, r, a, b, hnode, hl, hr, ha, hb, hw, hle⟩

/-- The last entry is no child, as every child is an earlier entry than its parent. -/
theorem Merging.inQueue_last {q : List QEntry} (h : Merging order cnt nodes q) (hne : nodes ≠ []) :
    InQueue nodes nodes.length (nodes.length - 1) := by
  have hpos := List.length_pos_iff.2 hne
  refine ⟨by omega, fun n w l r hn hnode => ?_⟩
  obtain ⟨⟨hl, -⟩, ⟨hr, -⟩, -⟩ := h.merged n w l r hnode
  omega

/-- When one queue entry is left, it is the last node (41_tree_builder.md R126). -/
theorem Merging.toNat_ix_of_singleton {e : QEntry} (h : Merging order cnt nodes [e]) (hne : nodes ≠ []) :
    e.ix.toNat = nodes.length - 1 := by
  obtain ⟨x, hx, hix⟩ := (h.queue _).1 (h.inQueue_last hne)
  rwa [List.mem_singleton.1 hx] at hix

/-- The last node weighs the sum of all counts. -/
theorem Merging.getLast?_weight {e : QEntry} (h : Merging order cnt nodes [e]) (hne : nodes ≠ []) :
    ∃ n, nodes.getLast? = some n ∧ n.weight.toNat = (order.map (fun b => (cnt b).toNat)).sum := by
  obtain ⟨n, hn, hw⟩ := h.ent e (List.mem_singleton_self e)
  refine ⟨n, ?_, ?_⟩
  · rwa [List.getLast?_eq_getElem?, ← h.toNat_ix_of_singleton hne]
  · rw [hw, ← h.sum]
    simp

/-! ## The command -/

theorem execTbBuild_of_ok {s u : State} (h : buildBody s = .ok u) : exec .tbBuild s = .next (setErr .ok u) := by
  rw [exec, execTbBuild, h, settle_ok]

/-- What `TB.BUILD` leaves for a nonempty table: an arena of merges on the table's leaves whose last queue entry is the
root (41_tree_builder.md R120). -/
theorem execTbBuild_merging {s t : State} (h : FreqOk s) (hne : s.freqOrder ≠ []) (ht : exec .tbBuild s = .next t) :
    ∃ e, t.root = some e.ix ∧ Merging s.freqOrder (countOf s) t.nodes [e] ∧
      t.nodes.length = 2 * s.freqOrder.length - 1 := by
  obtain ⟨u, -, -, e, hu, hframe, hm, hlen, -⟩ := buildBody_spec h hne
  rw [execTbBuild_of_ok hu] at ht
  cases ht
  exact ⟨e, by rw [hframe]; rfl, hm, Nat.eq_sub_of_add_eq hlen⟩

/-- Settles O23: the invariant of the merge loop, when one queue entry is left, says what each node is; that entry is
the last node. -/
theorem tbBuildMakesTheTree : Obligations.TbBuildMakesTheTree := by
  intro s h
  obtain ⟨u, hu, hframe, harena, hnil, -⟩ := buildBody_arena h
  have ht := execTbBuild_of_ok hu
  refine ⟨setErr .ok u, ht, congrArg (setErr .ok) hframe, harena.setErr .ok, hnil, fun hne => ?_⟩
  obtain ⟨e, hroot, hm, hlen⟩ := execTbBuild_merging h hne ht
  have hpos := List.length_pos_iff.2 hne
  have hnodes : (setErr .ok u).nodes ≠ [] := List.length_pos_iff.1 (by omega)
  refine ⟨hlen, ?_, hm.leaf, fun m hle hlt => hm.exists_children hle (hlen ▸ hlt), hm.getLast?_weight hnodes⟩
  rw [hroot, ← BitVec.setWidth_eq e.ix, ← BitVec.ofNat_toNat, hm.toNat_ix_of_singleton hnodes, hlen, Nat.sub_sub]

/-- Settles O24: every internal node of the arena was made by a merge, and an empty table makes none. -/
theorem tbBuildMergesTheLightest : Obligations.TbBuildMergesTheLightest := by
  intro s t h ht m w l r hnode
  by_cases hne : s.freqOrder = []
  · rw [execTbBuild_of_ok (buildBody_nil hne)] at ht
    cases ht
    cases hnode
  · obtain ⟨e, -, hm, -⟩ := execTbBuild_merging h hne ht
    obtain ⟨hl, hr, hbefore, hfirst, -⟩ := hm.merged m w l r hnode
    exact ⟨hl, hr, hbefore, hfirst⟩

end Sys2Proof.Machine
end

section
/-! SUPPORT. `CG.GEN` as a command (42_code_generator.md R135 to R138), and that `DE.PAYLOAD` undoes its codes
(45_encoder_decoder_datapath.md R188 to R191). -/

namespace Sys2Proof.Machine

/-! ## The generator -/

/-- What `CG.GEN` leaves on a legal arena: a new code table, read off the tree, and nothing else but the error code
(42_code_generator.md R135 to R137). -/
theorem execCgGen_spec {s : State} (h : ArenaOk s) :
    ∃ t, exec .cgGen s = .next t ∧ t = { s with err := .ok, code := t.code } ∧ CodeOk t ∧
      (s.root = none → ∀ b, codeOf t b = none) ∧ ∀ tr, Denotes s tr → ∀ b, codeOf t b = lastPath tr b := by
  obtain ⟨u, hu, hframe, hnone, hpaths⟩ := genBody_spec h
  refine ⟨setErr .ok u, ?_, congrArg (setErr .ok) hframe, (genBody_codeOk h hu).setErr .ok, hnone, hpaths⟩
  rw [exec, execCgGen, hu, settle_ok]

/-- Settles O25: the last leaf's path is what `lastPath` names. -/
theorem cgGenRecordsThePaths : Obligations.CgGenRecordsThePaths :=
  fun _ h => execCgGen_spec h

theorem lastPath_isSome {t : Tree} {b : Byte} : (lastPath t b).isSome = true ↔ b ∈ Tree.symbols t := by
  rw [Option.isSome_iff_ne_none, ne_eq, lastPath_eq_none, not_not]

/-- Only a tree that is one leaf has the empty path. -/
theorem Tree.path_ne_nil {t : Tree} {b : Byte} {q : Bits} (h : (b, q) ∈ Tree.paths t) (ht : 2 ≤ Tree.leaves t) :
    q ≠ [] := by
  cases t with
  | leaf c => exact absurd ht (by simp [Tree.leaves])
  | node l r =>
    rintro rfl
    simp [Tree.paths] at h

/-- Settles O26: each code is a path of the tree, and of two paths none begins with the other. That a symbol stands on
one leaf alone is not needed, as the table holds one path for each symbol. -/
theorem codeTableIsPrefixFree : Obligations.CodeTableIsPrefixFree := by
  intro s t tr h htr _ ht
  obtain ⟨t', ht', -, hlen, -, hcode⟩ := execCgGen_spec h
  obtain rfl := Host.Outcome.next.inj (ht.symm.trans ht')
  have hpath {b : Byte} {q : Bits} (hq : codeOf t b = some q) : (b, q) ∈ Tree.paths tr :=
    lastPath_mem (hcode tr htr b ▸ hq)
  refine ⟨fun b => ?_, fun b q hq => ⟨hpath hq, hlen b q hq, Tree.path_ne_nil (hpath hq)⟩,
    fun a b p q hab hp hq hpre => ?_⟩
  · rw [hcode tr htr, lastPath_isSome]
  · exact hab (congrArg Prod.fst (paths_prefix (hpath hp) (hpath hq) hpre))

/-! ## Bytes on an empty writer -/

theorem writerOk_emptyWriter (s : State) : WriterOk (emptyWriter s) :=
  ⟨Nat.zero_le _, fun k _ => by simp⟩

theorem symbolBits_append (ps qs : List (Byte × Bits)) : symbolBits (ps ++ qs) = symbolBits ps ++ symbolBits qs :=
  List.flatMap_append

/-- The bits of one decoded symbol, between the whole bytes before it and those behind it. -/
theorem symbolBits_split {ps : List (Byte × Bits)} {i : Nat} {p : Byte × Bits} (h : ps[i]? = some p) :
    symbolBits ps = symbolBits (ps.take i) ++ (bitsOf p.1 ++ symbolBits (ps.drop (i + 1))) := by
  obtain ⟨hi, rfl⟩ := List.getElem?_eq_some_iff.1 h
  conv_lhs => rw [← List.take_append_drop i ps, List.drop_eq_getElem_cons hi, symbolBits_append]
  rfl

/-- Symbols appended to an empty writer stand as bytes from index 0 on, with no partial byte behind them
(43_bit_writer_reader.md R160). -/
theorem foldl_putBit1_symbolBits {s t : State} {ps : List (Byte × Bits)} (hw : WriterOk s) (h0 : writePos s = 0)
    (room : ps.length ≤ s.cfg.outCap.val) (ht : (symbolBits ps).foldl putBit1 s = t) :
    t.outLen.toNat = ps.length ∧ t.wcnt = 0 ∧ t.wacc = 0 ∧ (∀ i p, ps[i]? = some p → t.obuf.read i = some p.1) ∧
      ObufSameOutside s t 0 ps.length := by
  have hroom : writePos s + (symbolBits ps).length ≤ writeCap s := by
    rw [h0, symbolBits_length, writeCap]
    omega
  obtain ⟨hbits, hpos, hw', -, hout⟩ := foldl_putBit1_spec (symbolBits ps) hw hroom
  have hsome (i : Nat) (hi : s.outLen.toNat ≤ i) := foldl_putBit1_some (symbolBits ps) hw hroom hi
  have hnil : writtenBits s = [] := List.length_eq_zero_iff.1 ((writtenBits_length s).trans h0)
  have hstart : s.outLen.toNat = 0 := by
    unfold writePos at h0
    omega
  rw [ht] at hbits hpos hw' hout hsome
  have hlt := t.wcnt.isLt
  rw [h0, symbolBits_length, writePos] at hpos
  have hlen : t.outLen.toNat = ps.length := by omega
  have hcnt : t.wcnt = 0 := BitVec.eq_of_toNat_eq (show t.wcnt.toNat = 0 by omega)
  refine ⟨hlen, hcnt, hw'.wacc_eq_zero hcnt, fun i p hp => ?_, by rwa [hstart, hlen] at hout⟩
  obtain ⟨hi, -⟩ := List.getElem?_eq_some_iff.1 hp
  refine read_of_writtenBits (hlen ▸ hi) (hsome i (by omega) (by omega))
    (hbits.trans (by rw [hnil, List.nil_append, symbolBits_split hp])) ?_
  rw [symbolBits_length, List.length_take, Nat.min_eq_left (by omega)]

/-! ## The decoder -/

theorem dePayloadBody_of_room {n : Word32} {s : State} {tr : Tree} (ht : Denotes s tr)
    (room : n.toNat ≤ s.cfg.outCap.val) : dePayloadBody n s = decodeSymbols tr n.toNat (emptyWriter s) := by
  obtain ⟨r, hr, hin⟩ := ht.treeIn
  have hin' : treeIn (emptyWriter s) r = .ok tr := hin
  rw [dePayloadBody, if_neg (by simp [hr]), if_neg (by omega), decodeCount]
  split
  · next h0 =>
    rw [h0]
    rfl
  · simp [hr, hin', bind, Except.bind]

/-- `DE.PAYLOAD` along leaves' paths: it consumes the paths and appends the symbols to a fresh writer
(45_encoder_decoder_datapath.md R188, R189). -/
theorem execDePayload_paths {s : State} {tr : Tree} {ps : List (Byte × Bits)} (hi : InputOk s) (ht : Denotes s tr)
    (hp : ∀ p ∈ ps, p ∈ Tree.paths tr) (room : ps.length ≤ s.cfg.outCap.val)
    (h : ps.flatMap Prod.snd = [] ∨ BitsAt s s.rpos.toNat (ps.flatMap Prod.snd)) :
    exec (.dePayload (BitVec.ofNat 32 ps.length)) s =
      .next (setErr .ok (advance (ps.flatMap Prod.snd).length ((symbolBits ps).foldl putBit1 (emptyWriter s)))) := by
  have hn : (BitVec.ofNat 32 ps.length).toNat = ps.length := by
    have := s.cfg.outCap.property
    rw [BitVec.toNat_ofNat, Nat.mod_eq_of_lt]
    omega
  have hdec := decodeSymbols_paths (t := tr) (ps := ps) (s := emptyWriter s) (r := []) hi (writerOk_emptyWriter s) hp
    (show 0 + 8 * ps.length ≤ 8 * s.cfg.outCap.val by omega) (by rwa [List.append_nil])
  rw [exec, execDePayload, dePayloadBody_of_room ht (by rwa [hn]), hn, hdec, settle_ok, foldl_putBit1_advance]

/-- Consuming bits that stand in the input moves `RPOS` by their number, with no wrap. -/
theorem advance_rpos_of_bitsAt {s : State} {q : Bits} (hi : InputOk s) (h : q = [] ∨ BitsAt s s.rpos.toNat q) :
    (advance q.length s).rpos.toNat = s.rpos.toNat + q.length := by
  rcases h with rfl | ⟨hq, -⟩
  · rw [List.length_nil, advance_zero, Nat.add_zero]
  · exact advance_rpos_toNat (hq.trans (Nat.mul_le_mul_left 8 hi))

/-- Each symbol of a list with its code. -/
def codedSymbols (s : State) (bs : List Byte) : List (Byte × Bits) := bs.map (fun b => (b, codeBits s b))

theorem codedSymbols_length (s : State) (bs : List Byte) : (codedSymbols s bs).length = bs.length :=
  List.length_map ..

theorem codedSymbols_flatMap (s : State) (bs : List Byte) : (codedSymbols s bs).flatMap Prod.snd = codesOf s bs :=
  List.flatMap_map ..

theorem codedSymbols_getElem? {s : State} {bs : List Byte} {i : Nat} {b : Byte} (h : bs[i]? = some b) :
    (codedSymbols s bs)[i]? = some (b, codeBits s b) := by
  rw [codedSymbols, List.getElem?_map, h, Option.map_some]

/-- A table that `CG.GEN` made from a tree gives each of the tree's symbols the path of a leaf. -/
theorem codedSymbols_mem_paths {s : State} {tr : Tree} {bs : List Byte} (hcode : ∀ b, codeOf s b = lastPath tr b)
    (hbs : ∀ b ∈ bs, b ∈ Tree.symbols tr) : ∀ p ∈ codedSymbols s bs, p ∈ Tree.paths tr := by
  intro p hp
  obtain ⟨b, hb, rfl⟩ := List.mem_map.1 hp
  obtain ⟨q, hq⟩ := Option.isSome_iff_exists.1 (lastPath_isSome.2 (hbs b hb))
  rw [codeBits_of_some ((hcode b).trans hq)]
  exact lastPath_mem hq

/-- Settles O39: the codes are paths of the tree, and `DE.PAYLOAD` decodes a list of paths to its symbols. -/
theorem dePayloadInvertsTheCodes : Obligations.DePayloadInvertsTheCodes := by
  intro p s tr bs harena hi hgen htr _ hbs hroom hin
  obtain ⟨s', hs', hframe, -, -, hcode⟩ := execCgGen_spec harena
  obtain rfl := Host.Outcome.next.inj (hgen.symm.trans hs')
  have his : InputOk s := by rwa [hframe]
  have htrp : Denotes p tr := by rwa [hframe] at htr
  rw [← codedSymbols_length s bs] at hroom ⊢
  rw [← codedSymbols_flatMap] at hin ⊢
  have hexec := execDePayload_paths his htr (codedSymbols_mem_paths (hcode tr htrp) hbs) hroom hin
  obtain ⟨hlen, -, -, hread, -⟩ := foldl_putBit1_symbolBits (writerOk_emptyWriter s) rfl hroom rfl
  refine ⟨_, hexec, rfl, hlen, fun i b hb => hread i _ (codedSymbols_getElem? hb), ?_⟩
  rw [setErr_rpos, advance_rpos, foldl_putBit1_rpos, emptyWriter_rpos, ← advance_rpos]
  exact advance_rpos_of_bitsAt his hin

end Sys2Proof.Machine
end

section
/-! SUPPORT. The commands of the bit writer and the bit reader (43_bit_writer_reader.md R145 to R159): what each appends
or delivers, when it refuses, and that what was written and finalized is what is read. -/

namespace Sys2Proof.Machine

/-- Settles O13, by evaluation of the two commands. -/
theorem bwInitAndBrSeekComplete : Obligations.BwInitAndBrSeekComplete :=
  fun _ => ⟨rfl, fun _ => rfl⟩

/-! ## Appending -/

theorem bitsOf_bit (b : BitVec 1) : bitsOf b = [b == 1] := by
  revert b
  decide

theorem bitsOf_ofBool (b : Bool) : bitsOf (BitVec.ofBool b) = [b] := by
  cases b <;> rfl

/-- An appending command with room for its operand appends the operand's bits and does nothing else
(43_bit_writer_reader.md R147). -/
theorem appendOperand_appended {n : Nat} (v : BitVec n) {s : State} (hw : WriterOk s)
    (room : writePos s + n ≤ writeCap s) :
    ∃ t, appendOperand v s = .next t ∧ Appended s t (bitsOf v) ∧ WriterOk t := by
  obtain ⟨happ, hwt⟩ := putSeq_appended hw (putSeq_of_room (q := bitsOf v) (by rwa [bitsOf_length]))
  exact ⟨_, appendOperand_of_room room, happ, hwt⟩

/-- Settles O14: the three commands are one operation at three widths. -/
theorem putCommandsAppendTheirBits : Obligations.PutCommandsAppendTheirBits := by
  refine fun s hw => ⟨fun b room => ?_, fun v => appendOperand_appended v hw, fun n => appendOperand_appended n hw⟩
  rw [← bitsOf_bit]
  exact appendOperand_appended b hw room

/-- Settles O15: the bound of the statement is the capacity test of the one operation. -/
theorem putCommandsRefuseWhatDoesNotFit : Obligations.PutCommandsRefuseWhatDoesNotFit :=
  fun _ => ⟨fun _ => appendOperand_of_no_room, fun _ => appendOperand_of_no_room, fun _ => appendOperand_of_no_room⟩

/-! ## Finalizing -/

/-- With no partial byte `BW.FINAL` does nothing (43_bit_writer_reader.md R151). -/
theorem execBwFinal_of_wcnt_eq_zero {s : State} (h : s.wcnt = 0) : exec .bwFinal s = .next (setErr .ok s) := by
  rw [exec, execBwFinal, finalBody, if_pos h, settle_ok]

/-- With a partial byte `BW.FINAL` stores it (43_bit_writer_reader.md R151). -/
theorem execBwFinal_of_wcnt_ne_zero {s : State} (hw : WriterOk s) (h : s.wcnt ≠ 0) :
    exec .bwFinal s = .next (setErr .ok (storeByte s.wacc s)) := by
  rw [exec, execBwFinal, finalBody, if_neg h, if_pos (outLen_lt_of_partial hw h), settle_ok]

theorem setErr_of_err_eq {s : State} {e : ErrCode} (h : s.err = e) : setErr e s = s := by
  rw [← h]
  rfl

/-- `BW.FINAL` appends the zero bits that complete the partial byte and leaves no partial byte
(43_bit_writer_reader.md R151). -/
theorem execBwFinal_appended {s : State} (hw : WriterOk s) :
    ∃ t, exec .bwFinal s = .next t ∧ Appended s t (padding s.wcnt.toNat) ∧ t.wcnt = 0 ∧ t.wacc = 0 ∧ WriterOk t := by
  obtain ⟨u, hu, hbits, hcnt, hacc, hwu, -, -, hout, -, hframe⟩ := finalBody_spec hw
  refine ⟨setErr .ok u, ?_, ⟨rfl, hbits, ?_, hout, ?_⟩, hcnt, hacc, hwu⟩
  · rw [exec, execBwFinal, hu, settle_ok]
  · have hlen := congrArg List.length hbits
    rwa [List.length_append, writtenBits_length, writtenBits_length] at hlen
  · rw [hframe]
    simp [SameInput, SameTree, SameFreq, SameOwn]

/-- Settles O16: what is appended is said once, and the two cases of `WCNT` say which byte is stored. -/
theorem bwFinalPadsThePartialByte : Obligations.BwFinalPadsThePartialByte := by
  intro s hw
  obtain ⟨t, ht, happ, hcnt, hacc, hwt⟩ := execBwFinal_appended hw
  have ⟨hok, _⟩ := happ
  refine ⟨t, ht, happ, hcnt, hacc, hwt, ?_, fun h0 => ?_, fun h0 => ?_⟩
  · rw [execBwFinal_of_wcnt_eq_zero hcnt, setErr_of_err_eq hok]
  · rw [execBwFinal_of_wcnt_eq_zero h0] at ht
    exact (Host.Outcome.next.inj ht).symm
  · rw [execBwFinal_of_wcnt_ne_zero hw h0] at ht
    cases ht
    have hlt := outLen_lt_of_partial hw h0
    have hcap := s.cfg.outCap.property
    exact ⟨Memory.read_write_same _ _ _, storeByte_outLen_toNat s.wacc (by omega)⟩

/-! ## Reading -/

/-- A reading command with enough bits left delivers them (43_bit_writer_reader.md R153). -/
theorem readResult_delivered {n : Nat} {s : State} (hi : InputOk s)
    (h : s.rpos.toNat + n ≤ 8 * s.inLen.toNat) : ∃ t, readResult n s = .next t ∧ Delivered s t n := by
  refine ⟨_, readResult_ok (readBits_of_room hi h), rfl, ?_, fun k hk => ?_, rfl⟩
  · exact advance_rpos_toNat (h.trans (Nat.mul_le_mul_left 8 hi))
  · rw [setErr_result, deliver_result, BitVec.getLsbD_setWidth, decide_eq_true hk, Bool.true_and]
    by_cases hkn : k < n
    · rw [getLsbD_ofNat_numOf _ (inBits_length ..) k hkn, inBits_getElem, decide_eq_true hkn, Bool.true_and]
    · rw [BitVec.getLsbD_of_ge _ _ (Nat.not_lt.1 hkn), decide_eq_false hkn, Bool.false_and]

/-- Settles O17: the three commands are one operation at three widths. -/
theorem readCommandsDeliverTheNextBits : Obligations.ReadCommandsDeliverTheNextBits :=
  fun _ hi => ⟨readResult_delivered hi, readResult_delivered hi, readResult_delivered hi⟩

/-- Settles O18: the bound of the statement is the test of the one operation. -/
theorem readCommandsUnderrun : Obligations.ReadCommandsUnderrun :=
  fun _ => ⟨readResult_of_underrun, readResult_of_underrun, readResult_of_underrun⟩

/-! ## Reading what was written -/

theorem advance_rpos_eq_add (n : Nat) (s : State) : (advance n s).rpos = s.rpos + BitVec.ofNat 32 n := by
  rw [advance_rpos, BitVec.ofNat_add, BitVec.ofNat_toNat, BitVec.setWidth_eq]

/-- A reading command delivers a value whose bits stand at `RPOS`. -/
theorem readResult_of_bitsAt {n : Nat} {u : State} {v : BitVec n} {r : Bits} (hi : InputOk u)
    (h : BitsAt u u.rpos.toNat (bitsOf v ++ r)) :
    readResult n u =
      .next { u with rpos := u.rpos + BitVec.ofNat 32 n, result := v.setWidth 32, err := .ok } := by
  rw [readResult_ok (readBits_value hi h), ← advance_rpos_eq_add]
  rfl

/-- The bits behind some of the input's bits. -/
theorem BitsAt.of_append {u : State} {p : Nat} {q r : Bits} (h : BitsAt u p (q ++ r)) : BitsAt u (p + q.length) r := by
  obtain ⟨hroom, hbits⟩ := h
  rw [List.length_append] at hroom hbits
  rw [inBits_append] at hbits
  exact ⟨by omega, List.append_inj_right hbits (inBits_length ..)⟩

/-- A value that stands in a finalized output is read from it at the value's own bit offset. -/
theorem readResult_of_presented {n : Nat} {f u : State} {v : BitVec n} {q r : Bits} (hi : InputOk u)
    (h : Presented f u) (hf : f.wcnt = 0) (hbits : writtenBits f = q ++ (bitsOf v ++ r))
    (hpos : u.rpos.toNat = q.length) :
    readResult n u =
      .next { u with rpos := u.rpos + BitVec.ofNat 32 n, result := v.setWidth 32, err := .ok } := by
  have hat := (h.bitsAt hf hbits).of_append
  rw [Nat.zero_add, ← hpos] at hat
  exact readResult_of_bitsAt hi hat

/-- A value appended and finalized is read back at the bit offset it was written at. -/
theorem appendOperand_readBack {n : Nat} (v : BitVec n) {s u : State} (hw : WriterOk s) (hi : InputOk u)
    (hpos : u.rpos.toNat = writePos s) (room : writePos s + n ≤ writeCap s) :
    ∃ t f, appendOperand v s = .next t ∧ exec .bwFinal t = .next f ∧
      (Presented f u → readResult n u =
        .next { u with rpos := u.rpos + BitVec.ofNat 32 n, result := v.setWidth 32, err := .ok }) := by
  obtain ⟨t, ht, ⟨-, hbits, -⟩, hwt⟩ := appendOperand_appended v hw room
  obtain ⟨f, hf, ⟨-, hpad, -⟩, hcnt, -⟩ := execBwFinal_appended hwt
  rw [hbits, List.append_assoc] at hpad
  exact ⟨t, f, ht, hf, fun h => readResult_of_presented hi h hcnt hpad (by rw [hpos, writtenBits_length])⟩

/-- Settles O20: both clauses are one fact at two widths. -/
theorem writtenValuesAreReadBack : Obligations.WrittenValuesAreReadBack := by
  refine fun s u hw hi hpos => ⟨fun v => appendOperand_readBack v hw hi hpos, fun n room => ?_⟩
  have h := appendOperand_readBack n hw hi hpos room
  rwa [BitVec.setWidth_eq] at h

/-! ## Runs that succeed -/

theorem runOk_cons {i : Instr} {s t : State} (h : exec i s = .next t) (hok : t.err = .ok) (is : List Instr) :
    runOk (i :: is) s = runOk is t := by
  rw [runOk, h]
  exact if_pos hok

theorem exists_next_of_runOk_cons {i : Instr} {is : List Instr} {s t : State} (h : runOk (i :: is) s = some t) :
    ∃ u, exec i s = .next u ∧ u.err = .ok ∧ runOk is u = some t := by
  rw [runOk] at h
  split at h
  · next u hu =>
    split at h
    · next hok => exact ⟨u, hu, hok, h⟩
    · cases h
  · cases h
  · cases h

theorem runOk_append {is : List Instr} {s t : State} (h : runOk is s = some t) (js : List Instr) :
    runOk (is ++ js) s = runOk js t := by
  induction is generalizing s with
  | nil => rw [Option.some.inj h, List.nil_append]
  | cons i is ih =>
    obtain ⟨u, hu, hok, h⟩ := exists_next_of_runOk_cons h
    rw [List.cons_append, runOk_cons hu hok, ih h]

/-- The commands that write a bit sequence bit by bit (30_encoding.md R98). -/
theorem runOk_bwPutbits {q : Bits} {s : State} (hw : WriterOk s) (room : writePos s + q.length ≤ writeCap s) :
    ∃ t, runOk (q.map (fun b => .bwPutbit (BitVec.ofBool b))) s = some t ∧ writtenBits t = writtenBits s ++ q ∧
      WriterOk t := by
  induction q generalizing s with
  | nil => exact ⟨s, rfl, (List.append_nil _).symm, hw⟩
  | cons b q ih =>
    rw [List.length_cons] at room
    obtain ⟨t, ht, ⟨hok, hbits, hpos, -, -, -, -, -, -, -, hcfg, -⟩, hwt⟩ :=
      appendOperand_appended (BitVec.ofBool b) hw (by omega)
    have hexec : exec (.bwPutbit (BitVec.ofBool b)) s = .next t := ht
    rw [bitsOf_ofBool] at hbits hpos
    have hcap : writeCap t = writeCap s := by rw [writeCap, hcfg, writeCap]
    obtain ⟨u, hu, hbits', hwu⟩ := ih hwt (by rw [hpos, hcap, List.length_singleton]; omega)
    refine ⟨u, (runOk_cons hexec hok _).trans hu, ?_, hwu⟩
    rw [hbits', hbits, List.append_assoc, List.singleton_append]

theorem padding_congr {m n : Nat} (h : m % 8 = n % 8) : padding m = padding n := by
  rw [padding, padding, h]

/-- Bits written one by one on an empty writer and finalized are the whole output, but for the padding. -/
theorem runOk_writeBits {s : State} {q : Bits} (room : q.length ≤ 8 * s.cfg.outCap.val) :
    ∃ t, runOk ([.bwInit] ++ q.map (fun b => .bwPutbit (BitVec.ofBool b)) ++ [.bwFinal]) s = some t ∧
      t.wcnt = 0 ∧ writtenBits t = q ++ padding q.length := by
  obtain ⟨w, hw, hbits, hwok⟩ := runOk_bwPutbits (s := setErr .ok (emptyWriter s)) (q := q) (writerOk_emptyWriter s)
    (by simpa [writePos, writeCap] using room)
  obtain ⟨t, ht, ⟨hok, hpad, -⟩, hcnt, -⟩ := execBwFinal_appended hwok
  have hinit : exec .bwInit s = .next (setErr .ok (emptyWriter s)) := rfl
  have hempty : writtenBits (setErr .ok (emptyWriter s)) = [] := rfl
  rw [hempty, List.nil_append] at hbits
  have hpos : 8 * w.outLen.toNat + w.wcnt.toNat = q.length := by
    rw [← hbits, writtenBits_length, writePos]
  refine ⟨t, ?_, hcnt, ?_⟩
  · rw [List.singleton_append, runOk_append ((runOk_cons hinit rfl _).trans hw), runOk_cons ht hok, runOk]
  · rw [hpad, hbits, padding_congr (show w.wcnt.toNat % 8 = q.length % 8 by omega)]

/-- Settles O19: the output is the bits and their padding, so each of them is read at its own position, and behind them
no bit is left. -/
theorem writtenBitsAreReadBack : Obligations.WrittenBitsAreReadBack := by
  intro s q room
  obtain ⟨t, ht, hcnt, hbits⟩ := runOk_writeBits room
  have hlen : (q ++ padding q.length).length = 8 * t.outLen.toNat := by
    rw [← hbits, writtenBits_length, writePos, hcnt]
    rfl
  refine ⟨t, ht, ?_, fun u hi hp => ⟨fun k b hk hpos => ?_, fun hpos => ?_⟩⟩
  · simp only [List.length_append, padding, List.length_replicate] at hlen
    omega
  · obtain ⟨hlt, rfl⟩ := List.getElem?_eq_some_iff.1 hk
    refine readResult_of_presented (n := 1) hi hp hcnt ?_ (q := (q ++ padding q.length).take k)
      (r := (q ++ padding q.length).drop (k + 1)) ?_
    · rw [hbits, bitsOf_ofBool, List.singleton_append, ← List.drop_eq_getElem_cons hlt, List.take_append_drop]
    · rw [hpos, List.length_take, Nat.min_eq_left hlt.le]
  · refine readResult_of_underrun ?_
    rw [hpos, hlen, hp.1]
    omega

end Sys2Proof.Machine
end

section
/-! SUPPORT. Which errors a command can report (60_exceptions.md R248). `RaisesOnly es x` says of a computation that it
raises no error but those in `es`; each operation has one such rule, and a command reports what its body raises. -/

namespace Sys2Proof.Machine

/-- A computation raises no error but those in `es`. Whether it succeeds or stops is left open. -/
def RaisesOnly {α : Type} (es : List ErrCode) (x : Except Exn α) : Prop :=
  ∀ e, x = .error (.raise e) → e ∈ es

section

variable {α β : Type} {es : List ErrCode}

theorem raisesOnly_ok (a : α) : RaisesOnly es (.ok a) :=
  fun _ h => nomatch h

theorem raisesOnly_stop (f : Fault) : RaisesOnly es (.error (.stop f) : Except Exn α) :=
  fun _ h => nomatch h

theorem raisesOnly_raise {e : ErrCode} (h : e ∈ es) : RaisesOnly es (.error (.raise e) : Except Exn α) := by
  rintro _ ⟨⟩
  exact h

theorem RaisesOnly.mono {fs : List ErrCode} {x : Except Exn α} (h : RaisesOnly es x) (hsub : es ⊆ fs) :
    RaisesOnly fs x :=
  fun e he => hsub (h e he)

theorem RaisesOnly.bind {x : Except Exn α} {f : α → Except Exn β} (h : RaisesOnly es x)
    (hf : ∀ a, RaisesOnly es (f a)) : RaisesOnly es (x >>= f) := by
  cases x with
  | ok a => exact hf a
  | error y =>
    rintro e ⟨⟩
    exact h e rfl

theorem RaisesOnly.ite {c : Prop} [Decidable c] {x y : Except Exn α} (hx : RaisesOnly es x) (hy : RaisesOnly es y) :
    RaisesOnly es (if c then x else y) := by
  split
  · exact hx
  · exact hy

end

/-! ## The named operations -/

theorem putSeq_raisesOnly (q : Bits) (s : State) : RaisesOnly [.capacityExceeded] (putSeq q s) :=
  .ite (raisesOnly_raise (by decide)) (raisesOnly_ok _)

theorem finalBody_raisesOnly (s : State) : RaisesOnly [] (finalBody s) :=
  .ite (raisesOnly_ok _) (.ite (raisesOnly_ok _) (raisesOnly_stop _))

theorem readBits_raisesOnly (n : Nat) (s : State) : RaisesOnly [.streamUnderrun] (readBits n s) :=
  .ite (raisesOnly_raise (by decide)) (.ite (raisesOnly_stop _) (raisesOnly_ok _))

theorem treeIn_raisesOnly (s : State) (i : NodeIx) : RaisesOnly [] (treeIn s i) := by
  unfold treeIn
  split
  · exact raisesOnly_ok _
  · exact raisesOnly_stop _

theorem allocNode_raisesOnly (n : Node) (s : State) : RaisesOnly [.malformedTree] (allocNode n s) :=
  .ite (raisesOnly_ok _) (raisesOnly_raise (by decide))

theorem descend_raisesOnly (t : Tree) (s : State) : RaisesOnly [.streamUnderrun] (descend t s) := by
  induction t generalizing s with
  | leaf b => exact raisesOnly_ok _
  | node l r ihl ihr => exact (readBits_raisesOnly 1 s).bind fun ⟨b, u⟩ => .ite (ihl u) (ihr u)

theorem parse_raisesOnly (levels : Nat) (s : State) :
    RaisesOnly [.malformedTree, .streamUnderrun] (parse levels s) := by
  have hread (n : Nat) (u : State) :=
    (readBits_raisesOnly n u).mono (fs := [.malformedTree, .streamUnderrun]) (by decide)
  have halloc (n : Node) (u : State) :=
    (allocNode_raisesOnly n u).mono (fs := [.malformedTree, .streamUnderrun]) (by decide)
  induction levels generalizing s with
  | zero => exact raisesOnly_raise (by decide)
  | succ levels ih =>
    refine (hread 1 s).bind fun ⟨e, s⟩ => .ite (raisesOnly_ok _) ?_
    refine (hread 1 s).bind fun ⟨k, s⟩ => .ite ?_ ?_
    · exact (hread 8 s).bind fun ⟨b, s⟩ => (halloc _ s).bind fun ⟨i, s⟩ => raisesOnly_ok _
    · refine (halloc _ s).bind fun ⟨i, s⟩ => ?_
      exact (ih s).bind fun
        | (none, _) => raisesOnly_raise (by decide)
        | (some l, s) => (ih s).bind fun
          | (none, _) => raisesOnly_raise (by decide)
          | (some r, s) => raisesOnly_ok _

/-! ## The bodies of the commands -/

theorem countBody_raisesOnly (s : State) : RaisesOnly [] (countBody s) :=
  .ite (raisesOnly_stop _) (raisesOnly_ok _)

theorem buildBody_raisesOnly (s : State) : RaisesOnly [] (buildBody s) :=
  .ite (raisesOnly_stop _) (raisesOnly_ok _)

theorem genBody_raisesOnly (s : State) : RaisesOnly [] (genBody s) := by
  unfold genBody
  split
  · exact raisesOnly_ok _
  · exact (treeIn_raisesOnly _ _).bind fun _ => raisesOnly_ok _

theorem analyseBody_raisesOnly (s : State) : RaisesOnly [] (analyseBody s) :=
  (countBody_raisesOnly s).bind fun c => (buildBody_raisesOnly c).bind genBody_raisesOnly

theorem serBits_raisesOnly (s : State) : RaisesOnly [] (serBits s) := by
  unfold serBits
  split
  · exact raisesOnly_ok _
  · exact (treeIn_raisesOnly _ _).bind fun _ => raisesOnly_ok _

theorem serBody_raisesOnly (s : State) : RaisesOnly [.capacityExceeded] (serBody s) :=
  ((serBits_raisesOnly s).mono (by decide)).bind fun q => putSeq_raisesOnly q s

theorem desBody_raisesOnly (s : State) : RaisesOnly [.malformedTree, .streamUnderrun] (desBody s) :=
  (parse_raisesOnly _ s).bind fun _ => raisesOnly_ok _

theorem encodeSymbol_raisesOnly (v : Byte) (s : State) :
    RaisesOnly [.unmappedSymbol, .capacityExceeded] (encodeSymbol v s) := by
  unfold encodeSymbol
  split
  · exact raisesOnly_raise (by decide)
  · exact (putSeq_raisesOnly _ s).mono (by decide)

theorem encodeSymbols_raisesOnly (bs : List Byte) (s : State) :
    RaisesOnly [.unmappedSymbol, .capacityExceeded] (encodeSymbols bs s) := by
  induction bs generalizing s with
  | nil => exact raisesOnly_ok _
  | cons b bs ih => exact (encodeSymbol_raisesOnly b s).bind ih

theorem payloadBody_raisesOnly (s : State) : RaisesOnly [.unmappedSymbol, .capacityExceeded] (payloadBody s) :=
  .ite (raisesOnly_stop _) (encodeSymbols_raisesOnly _ s)

theorem appendCodes_raisesOnly (bs : List Byte) (s : State) : RaisesOnly [.capacityExceeded] (appendCodes bs s) := by
  induction bs generalizing s with
  | nil => exact raisesOnly_ok _
  | cons b bs ih => exact (putSeq_raisesOnly _ s).bind ih

theorem emitBody_raisesOnly (s : State) : RaisesOnly [.capacityExceeded] (emitBody s) := by
  have tail (u : State) : RaisesOnly [.capacityExceeded] (do let s ← finalBody u; pure (discardTree s)) :=
    ((finalBody_raisesOnly u).mono (by decide)).bind fun _ => raisesOnly_ok _
  refine (putSeq_raisesOnly _ s).bind fun u => ?_
  exact .ite (tail u) ((serBody_raisesOnly u).bind fun v => (appendCodes_raisesOnly _ v).bind tail)

theorem deSymBody_raisesOnly (s : State) : RaisesOnly [.malformedHeader, .streamUnderrun] (deSymBody s) := by
  unfold deSymBody
  split
  · exact raisesOnly_raise (by decide)
  · refine ((treeIn_raisesOnly s _).mono (by decide)).bind fun t => ?_
    exact ((descend_raisesOnly t s).mono (by decide)).bind fun _ => raisesOnly_ok _

theorem decodeSymbols_raisesOnly (t : Tree) (n : Nat) (s : State) :
    RaisesOnly [.streamUnderrun, .capacityExceeded] (decodeSymbols t n s) := by
  induction n generalizing s with
  | zero => exact raisesOnly_ok _
  | succ n ih =>
    refine ((descend_raisesOnly t s).mono (by decide)).bind fun ⟨b, u⟩ => ?_
    exact ((putSeq_raisesOnly (bitsOf b) u).mono (by decide)).bind ih

theorem decodeCount_raisesOnly (n : Word32) (s : State) :
    RaisesOnly [.malformedHeader, .streamUnderrun, .capacityExceeded] (decodeCount n s) := by
  refine .ite (raisesOnly_ok _) ?_
  split
  · exact raisesOnly_raise (by decide)
  · refine ((treeIn_raisesOnly s _).mono (by decide)).bind fun t => ?_
    exact (decodeSymbols_raisesOnly t _ s).mono (by decide)

theorem dePayloadBody_raisesOnly (n : Word32) (s : State) :
    RaisesOnly [.malformedHeader, .streamUnderrun, .capacityExceeded] (dePayloadBody n s) :=
  .ite (raisesOnly_raise (by decide)) (.ite (raisesOnly_raise (by decide)) (decodeCount_raisesOnly n _))

theorem expandBody_raisesOnly (n : Word32) (s : State) :
    RaisesOnly [.malformedHeader, .malformedTree, .streamUnderrun, .capacityExceeded] (expandBody n s) := by
  refine ((parse_raisesOnly _ s).mono (by decide)).bind fun
    | (none, _) => raisesOnly_raise (by decide)
    | (some i, u) => .ite (raisesOnly_raise (by decide)) ?_
  refine ((treeIn_raisesOnly u i).mono (by decide)).bind fun t => ?_
  exact ((decodeSymbols_raisesOnly t _ _).mono (by decide)).bind fun _ => raisesOnly_ok _

theorem decompressBody_raisesOnly (s : State) :
    RaisesOnly [.malformedHeader, .malformedTree, .streamUnderrun, .capacityExceeded] (decompressBody s) := by
  refine .ite (raisesOnly_raise (by decide)) ?_
  exact ((readBits_raisesOnly 32 _).mono (by decide)).bind fun ⟨n, u⟩ =>
    .ite (raisesOnly_ok _) (expandBody_raisesOnly n u)

/-! ## The commands -/

/-- A command reports success or what its body raises, when its failure reports the error raised. -/
theorem settle_reports {es : List ErrCode} {f : ErrCode → State} {x : Except Exn State} {t : State}
    (hx : RaisesOnly es x) (hf : ∀ e, (f e).err = e) (h : settle f x = .next t) : t.err = .ok ∨ t.err ∈ es := by
  rcases settle_next h with ⟨u, -, rfl⟩ | ⟨e, he, rfl⟩
  · exact .inl rfl
  · rw [hf]
    exact .inr (hx e he)

theorem settle_raiseErr_reports {es : List ErrCode} {s t : State} {x : Except Exn State}
    (h : settle (fun e => raiseErr e s) x = .next t) (hx : RaisesOnly es x) : t.err = .ok ∨ t.err ∈ es :=
  settle_reports hx (fun _ => rfl) h

theorem readResult_reports {n : Nat} {s t : State} (h : readResult n s = .next t) :
    t.err = .ok ∨ t.err ∈ [ErrCode.streamUnderrun] :=
  settle_raiseErr_reports h ((readBits_raisesOnly n s).bind fun _ => raisesOnly_ok _)

theorem execCompress_reports {s t : State} (h : execCompress s = .next t) :
    t.err = .ok ∨ t.err ∈ [ErrCode.capacityExceeded] := by
  have hs := analyseBody_raisesOnly s
  unfold execCompress at h
  split at h
  · exact settle_reports (emitBody_raisesOnly _) (fun _ => rfl) h
  · next e he =>
    rw [he] at hs
    exact settle_reports (hs.mono (by decide)) (fun _ => rfl) h

/-- Settles O53: each command's body raises only the errors of its row. -/
theorem commandsReportOnlyTheirErrors : Obligations.CommandsReportOnlyTheirErrors := by
  intro i s t h
  cases i with
  | reset | bwInit | brSeek n =>
    cases h
    exact .inl rfl
  | fqCount => exact settle_raiseErr_reports h (countBody_raisesOnly s)
  | tbBuild => exact settle_raiseErr_reports h (buildBody_raisesOnly s)
  | cgGen => exact settle_raiseErr_reports h (genBody_raisesOnly s)
  | bwPutbit _ | bwPutbyte _ | bwPutu32 _ => exact settle_raiseErr_reports h (putSeq_raisesOnly _ s)
  | bwFinal => exact settle_raiseErr_reports h (finalBody_raisesOnly s)
  | brGetbit | brGetbyte | brGetu32 => exact readResult_reports h
  | tcSer => exact settle_raiseErr_reports h (serBody_raisesOnly s)
  | tcDes => exact settle_reports (desBody_raisesOnly _) (fun _ => rfl) h
  | enSym v => exact settle_raiseErr_reports h (encodeSymbol_raisesOnly v s)
  | enPayload => exact settle_raiseErr_reports h (payloadBody_raisesOnly s)
  | deSym => exact settle_raiseErr_reports h (deSymBody_raisesOnly s)
  | dePayload n => exact settle_reports (dePayloadBody_raisesOnly n s) (fun _ => rfl) h
  | compress => exact execCompress_reports h
  | decompress => exact settle_reports (decompressBody_raisesOnly _) (fun _ => rfl) h

end Sys2Proof.Machine
end

section
/-! SUPPORT. What the commands do to the writer and to `OBUF`, whatever the rest of the state is
(43_bit_writer_reader.md R145 to R151). Every command is made of appends, of `finalBody` and of operations that leave the writer alone, after an
empty writer or after the one that was there; so a preorder on states that these three keep relates the writer before a
command to the writer behind it. -/

namespace Sys2Proof.Machine

/-- A preorder on states that appending, finalizing and all that leaves the writer alone go along with. -/
structure WriterRule (R : State → State → Prop) : Prop where
  trans : ∀ {s t u}, R s t → R t u → R s u
  of_same : ∀ {s t}, SameWriter s t → t.cfg = s.cfg → R s t
  putSeq : ∀ {q s t}, putSeq q s = .ok t → R s t
  finalBody : ∀ {s t}, finalBody s = .ok t → R s t

namespace WriterRule

variable {R : State → State → Prop} (hR : WriterRule R)

include hR

theorem refl (s : State) : R s s :=
  hR.of_same ⟨rfl, rfl, rfl, rfl⟩ rfl

theorem of_touches {ps : List Part} {s t : State} (h : Touches ps s t) (hp : .writer ∉ ps) : R s t :=
  hR.of_same (h.writer hp) h.own.1

theorem setErr {s t : State} (h : R s t) (e : ErrCode) : R s (setErr e t) :=
  hR.trans h (hR.of_same ⟨rfl, rfl, rfl, rfl⟩ rfl)

/-- Fresh writers on two states with one `OBUF`. -/
theorem emptyWriter {ps : List Part} {s t : State} (h : Touches ps s t) (hp : .writer ∉ ps) :
    R (emptyWriter s) (emptyWriter t) :=
  hR.of_same ⟨(h.writer hp).1, rfl, rfl, rfl⟩ h.own.1

/-! ## The bodies of the commands -/

theorem serBody {s t : State} (h : serBody s = .ok t) : R s t := by
  obtain ⟨q, -, h⟩ := bind_ok h
  exact hR.putSeq h

theorem encodeSymbol {v : Byte} {s t : State} (h : encodeSymbol v s = .ok t) : R s t := by
  unfold Machine.encodeSymbol at h
  split at h
  · cases h
  · exact hR.putSeq h

theorem encodeSymbols {bs : List Byte} {s t : State} (h : encodeSymbols bs s = .ok t) : R s t := by
  induction bs generalizing s with
  | nil =>
    cases h
    exact hR.refl _
  | cons b bs ih =>
    obtain ⟨u, hu, h⟩ := bind_ok h
    exact hR.trans (hR.encodeSymbol hu) (ih h)

theorem payloadBody {s t : State} (h : payloadBody s = .ok t) : R s t := by
  unfold Machine.payloadBody at h
  split at h
  · cases h
  · exact hR.encodeSymbols h

theorem appendCodes {bs : List Byte} {s t : State} (h : appendCodes bs s = .ok t) : R s t := by
  induction bs generalizing s with
  | nil =>
    cases h
    exact hR.refl _
  | cons b bs ih =>
    obtain ⟨u, hu, h⟩ := bind_ok h
    exact hR.trans (hR.putSeq hu) (ih h)

theorem emitBody {s t : State} (h : emitBody s = .ok t) : R s t := by
  have tail {b : State} (h : (do let s ← Machine.finalBody b; pure (discardTree s)) = .ok t) : R b t := by
    obtain ⟨c, hc, h⟩ := bind_ok h
    cases h
    exact hR.trans (hR.finalBody hc) (hR.of_touches (discardTree_touches c) (by decide))
  obtain ⟨a, ha, h⟩ := bind_ok h
  refine hR.trans (hR.putSeq ha) ?_
  dsimp only at h
  split at h
  · exact tail h
  · obtain ⟨d, hd, h⟩ := bind_ok h
    obtain ⟨b, hb, h⟩ := bind_ok h
    exact hR.trans (hR.serBody hd) (hR.trans (hR.appendCodes hb) (tail h))

theorem decodeSymbols {tr : Tree} {n : Nat} {s t : State} (h : decodeSymbols tr n s = .ok t) : R s t := by
  induction n generalizing s with
  | zero =>
    cases h
    exact hR.refl _
  | succ n ih =>
    obtain ⟨⟨b, u⟩, hu, h⟩ := bind_ok h
    obtain ⟨v, hv, h⟩ := bind_ok h
    exact hR.trans (hR.of_touches (descend_touches hu) (by decide)) (hR.trans (hR.putSeq hv) (ih h))

theorem decodeCount {n : Word32} {s t : State} (h : decodeCount n s = .ok t) : R s t := by
  unfold Machine.decodeCount at h
  split at h
  · cases h
    exact hR.refl _
  · split at h
    · cases h
    · obtain ⟨tr, -, h⟩ := bind_ok h
      exact hR.decodeSymbols h

theorem expandBody {n : Word32} {s t : State} (h : expandBody n s = .ok t) : R s t := by
  obtain ⟨⟨r, u⟩, hu, h⟩ := bind_ok h
  refine hR.trans (hR.of_touches (parse_touches hu) (by decide)) ?_
  dsimp only at h
  split at h
  · cases h
  · split at h
    · cases h
    · obtain ⟨tr, -, h⟩ := bind_ok h
      obtain ⟨v, hv, h⟩ := bind_ok h
      cases h
      have hroot (i : NodeIx) : R u { u with root := some i } := hR.of_same ⟨rfl, rfl, rfl, rfl⟩ rfl
      exact hR.trans (hR.trans (hroot _) (hR.decodeSymbols hv)) (hR.of_touches (discardTree_touches v) (by decide))

theorem decompressBody {s t : State} (h : decompressBody s = .ok t) : R s t := by
  unfold Machine.decompressBody at h
  split at h
  · cases h
  · obtain ⟨⟨n, u⟩, hu, h⟩ := bind_ok h
    have hsu : R s u := hR.trans (t := { s with rpos := 0 }) (hR.of_same ⟨rfl, rfl, rfl, rfl⟩ rfl)
      (hR.of_touches (readBits_touches hu) (by decide))
    dsimp only at h
    split at h
    · cases h
      exact hsu
    · exact hR.trans hsu (hR.expandBody h)

/-! ## The commands -/

/-- A command whose failure leaves the state as it was. -/
theorem settle_raiseErr {s t : State} {x : Except Exn State} (h : settle (fun e => raiseErr e s) x = .next t)
    (hx : ∀ u, x = .ok u → R s u) : R s t :=
  settle_induction h (fun u hu => hR.setErr (hx u hu) .ok) (hR.setErr (hR.refl s))

/-- `DE.PAYLOAD` starts from an empty writer, and a failure leaves one (45_encoder_decoder_datapath.md R189). -/
theorem execDePayload {n : Word32} {s t : State} (h : execDePayload n s = .next t) : R (Machine.emptyWriter s) t := by
  refine settle_induction h (fun u hu => hR.setErr ?_ .ok) (hR.setErr (hR.refl _))
  unfold dePayloadBody at hu
  split at hu
  · cases hu
  · split at hu
    · cases hu
    · exact hR.decodeCount hu

/-- `COMPRESS` starts from an empty writer, and a failure leaves one (46_compress.md R200). -/
theorem execCompress {s t : State} (h : execCompress s = .next t) : R (Machine.emptyWriter s) t := by
  have hfail {a : State} (ha : R (Machine.emptyWriter s) (Machine.emptyWriter a)) (e : ErrCode) :
      R (Machine.emptyWriter s) (compressFail a e) :=
    hR.setErr (hR.trans ha (hR.of_touches (discardTree_touches _) (by decide))) e
  unfold Machine.execCompress at h
  split at h
  · next a ha =>
    have hsa := hR.emptyWriter (analyseBody_touches ha) (by decide)
    exact settle_induction h (fun u hu => hR.setErr (hR.trans hsa (hR.emitBody hu)) .ok) (hfail hsa)
  · exact settle_induction h (fun u hu => nomatch hu) (hfail (hR.refl _))

/-- `DECOMPRESS` starts from an empty writer, and a failure leaves one (47_decompress.md R215). -/
theorem execDecompress {s t : State} (h : execDecompress s = .next t) : R (Machine.emptyWriter s) t := by
  have hd := hR.emptyWriter (discardTree_touches s) (by decide)
  exact settle_induction h (fun u hu => hR.setErr (hR.trans hd (hR.decompressBody hu)) .ok) (hR.setErr hd)

end WriterRule

/-- The commands that start the writer afresh (43_bit_writer_reader.md R146, 45_encoder_decoder_datapath.md R189,
46_compress.md R200, 47_decompress.md R215), besides `RESET`. -/
def StartsWriterAfresh (i : Instr) : Prop :=
  i = .bwInit ∨ (∃ n, i = .dePayload n) ∨ i = .compress ∨ i = .decompress

/-- A command that starts the writer afresh goes on from an empty writer. -/
theorem WriterRule.exec_of_fresh {R : State → State → Prop} (hR : WriterRule R) {i : Instr} {s t : State}
    (hi : StartsWriterAfresh i) (h : exec i s = .next t) : R (Machine.emptyWriter s) t := by
  rcases hi with rfl | ⟨n, rfl⟩ | rfl | rfl
  · cases h
    exact hR.setErr (hR.refl _) .ok
  · exact hR.execDePayload h
  · exact hR.execCompress h
  · exact hR.execDecompress h

/-- Any other command but `RESET` goes on from the writer that is there. -/
theorem WriterRule.exec_of_not_fresh {R : State → State → Prop} (hR : WriterRule R) {i : Instr} {s t : State}
    (hi : ¬StartsWriterAfresh i) (hr : i ≠ .reset) (h : exec i s = .next t) : R s t := by
  have htouch := exec_touches hr h
  cases i with
  | reset => exact absurd rfl hr
  | bwInit | dePayload n | compress | decompress => exact absurd (by simp [StartsWriterAfresh]) hi
  | fqCount | tbBuild | cgGen | brSeek n | brGetbit | brGetbyte | brGetu32 | tcDes | deSym =>
    exact hR.of_touches htouch (by simp [partsOf])
  | bwPutbit _ | bwPutbyte _ | bwPutu32 _ => exact hR.settle_raiseErr h fun _ => hR.putSeq
  | bwFinal => exact hR.settle_raiseErr h fun _ => hR.finalBody
  | tcSer => exact hR.settle_raiseErr h fun _ => hR.serBody
  | enSym v => exact hR.settle_raiseErr h fun _ => hR.encodeSymbol
  | enPayload => exact hR.settle_raiseErr h fun _ => hR.payloadBody

/-! ## The writer's invariant -/

theorem WriterOk.of_same {s t : State} (h : WriterOk s) (hsame : SameWriter s t) (hcfg : t.cfg = s.cfg) :
    WriterOk t := by
  obtain ⟨-, hlen, hcnt, hacc⟩ := hsame
  unfold WriterOk writePos writeCap at h ⊢
  rwa [hlen, hcnt, hacc, hcfg]

theorem finalBody_writerOk {s t : State} (hw : WriterOk s) (h : finalBody s = .ok t) : WriterOk t := by
  obtain ⟨u, hu, -, -, -, hwu, -⟩ := finalBody_spec hw
  obtain rfl := Except.ok.inj (hu.symm.trans h)
  exact hwu

theorem writerRule_writerOk : WriterRule (fun s t => WriterOk s → WriterOk t) where
  trans h g hw := g (h hw)
  of_same hsame hcfg hw := hw.of_same hsame hcfg
  putSeq h hw := (putSeq_appended hw h).2
  finalBody h hw := finalBody_writerOk hw h

/-- Settles O57: appending and finalizing keep the invariant, and an empty writer has it. -/
theorem commandsKeepTheWriterInvariant : Obligations.CommandsKeepTheWriterInvariant := by
  intro i s t hw h
  by_cases hr : i = .reset
  · subst hr
    cases h
    exact (inv_resetState s).writer
  by_cases hi : StartsWriterAfresh i
  · exact writerRule_writerOk.exec_of_fresh hi h (writerOk_emptyWriter s)
  · exact writerRule_writerOk.exec_of_not_fresh hi hr h hw

/-! ## Which bytes are stored -/

/-- `OUT_LEN` has not fallen, and no byte of `OBUF` has changed but those between the old and the new `OUT_LEN`. -/
structure StoresBetween (s t : State) : Prop where
  le : s.outLen.toNat ≤ t.outLen.toNat
  outside : ObufSameOutside s t s.outLen.toNat t.outLen.toNat

namespace StoresBetween

variable {s t u : State}

theorem of_same (hobuf : t.obuf = s.obuf) (hlen : t.outLen = s.outLen) : StoresBetween s t :=
  ⟨by rw [hlen], fun _ _ => by rw [hobuf]⟩

theorem trans (h : StoresBetween s t) (g : StoresBetween t u) : StoresBetween s u := by
  obtain ⟨hle, hout⟩ := h
  obtain ⟨gle, gout⟩ := g
  exact ⟨hle.trans gle, fun i hi => (gout i (by omega)).trans (hout i (by omega))⟩

/-- A completed byte is stored at the old `OUT_LEN`. -/
theorem storeByte (v : Byte) (room : s.outLen.toNat < s.cfg.outCap.val) : StoresBetween s (storeByte v s) := by
  have hcap := s.cfg.outCap.property
  have hlen := storeByte_outLen_toNat (s := s) v (by omega)
  refine ⟨by omega, fun i hi => Memory.read_write_other _ _ _ _ ?_⟩
  rw [hlen] at hi
  omega

end StoresBetween

/-- One bit with room for it takes one place, whatever stands in the accumulator. -/
theorem writePos_putBit1 {s : State} (b : Bool) (room : writePos s + 1 ≤ writeCap s) :
    writePos (putBit1 s b) = writePos s + 1 := by
  obtain ⟨-, hwrap⟩ := outLen_lt_of_room room Nat.one_pos
  rcases putBit1_cases s b with ⟨h7, h⟩ | ⟨h7, h⟩
  · rw [h, writePos, storeByte_outLen_toNat _ hwrap, storeByte_wcnt, writePos, h7]
    rfl
  · have hlt := s.wcnt.isLt
    have hne : s.wcnt.toNat ≠ 7 := fun e => h7 (BitVec.eq_of_toNat_eq e)
    rw [h, writePos, writePos, BitVec.toNat_add_of_lt (by simp; omega), Nat.add_assoc]
    rfl

theorem putBit1_storesBetween {s : State} (b : Bool) (room : writePos s + 1 ≤ writeCap s) :
    StoresBetween s (putBit1 s b) := by
  rcases putBit1_cases s b with ⟨-, h⟩ | ⟨-, h⟩
  · rw [h]
    exact .storeByte _ (outLen_lt_of_room room Nat.one_pos).1
  · rw [h]
    exact .of_same rfl rfl

theorem foldl_putBit1_storesBetween {q : Bits} {s : State} (room : writePos s + q.length ≤ writeCap s) :
    StoresBetween s (q.foldl putBit1 s) := by
  induction q generalizing s with
  | nil => exact .of_same rfl rfl
  | cons b q ih =>
    rw [List.length_cons] at room
    have hone : writePos s + 1 ≤ writeCap s := by omega
    refine (putBit1_storesBetween b hone).trans (ih ?_)
    rw [writePos_putBit1 b hone, writeCap_putBit1]
    omega

theorem writerRule_storesBetween : WriterRule StoresBetween where
  trans h g := h.trans g
  of_same hsame _ := .of_same hsame.1 hsame.2.1
  putSeq {q s t} h := by
    rcases putSeq_cases q s with ⟨room, hq⟩ | ⟨-, hq⟩ <;> rw [hq] at h <;> cases h
    exact foldl_putBit1_storesBetween room
  finalBody {s t} h := by
    rcases finalBody_cases s with ⟨-, hf⟩ | ⟨-, room, hf⟩ | ⟨-, -, hf⟩ <;> rw [hf] at h <;> cases h
    · exact .of_same rfl rfl
    · exact .storeByte _ room

/-- Settles O59: every command's stores lie between two values of `OUT_LEN`, the first being 0 for a fresh writer.
`BW.INIT` is the one fresh writer of the first clause, and it stores nothing. -/
theorem commandsStoreOnlyWhatTheyAppend : Obligations.CommandsStoreOnlyWhatTheyAppend := by
  refine fun i s t h hr => ⟨fun hp hc hd => ?_, fun hi => ?_⟩
  · by_cases hinit : i = .bwInit
    · subst hinit
      cases h
      exact fun _ _ => rfl
    · have hi : ¬StartsWriterAfresh i := by
        rintro (e | ⟨n, e⟩ | e | e)
        exacts [hinit e, hp n e, hc e, hd e]
      exact (writerRule_storesBetween.exec_of_not_fresh hi hr h).outside
  · exact (writerRule_storesBetween.exec_of_fresh (.inr hi) h).outside

end Sys2Proof.Machine
end

section
/-! SUPPORT. `TC.SER` and `TC.DES` as commands (44_tree_codec.md R165 to R174): the length of a serialized tree, what
`TC.SER` appends, the state `TC.DES` leaves, what it has consumed when it succeeds, and where it fails. -/

namespace Sys2Proof.Machine

/-! ## Serializing -/

/-- A leaf takes ten bits, and with each further leaf comes an internal node of two (44_tree_codec.md R165, R166). -/
theorem serTree_length (tr : Tree) : (serTree tr).length + 2 = 12 * Tree.leaves tr := by
  induction tr with
  | leaf b => simp [serTree, Tree.leaves]
  | node l r hl hr =>
    simp only [serTree, Tree.leaves, List.length_append, List.length_cons, List.length_nil]
    omega

/-- Settles O28: the number of nodes and the number of bits are each said by an induction over the tree. -/
theorem serializedTreeLength : Obligations.SerializedTreeLength := by
  intro tr
  have hlen := serTree_length tr
  exact ⟨(Tree.levels_pos tr).trans (Tree.levels_le_leaves tr), Tree.size_add_one tr, hlen, fun h => by omega⟩

theorem serBody_of_root_none {s : State} (h : s.root = none) : serBody s = putSeq [false] s := by
  simp only [serBody, serBits, h]
  rfl

/-- `TC.SER` with room for the bits that it serializes to (44_tree_codec.md R167). -/
theorem execTcSer_of_room {q : Bits} {s : State} (hq : serBody s = putSeq q s) (hw : WriterOk s)
    (room : writePos s + q.length ≤ writeCap s) : ∃ t, exec .tcSer s = .next t ∧ Appended s t q ∧ WriterOk t := by
  obtain ⟨happ, hwt⟩ := putSeq_appended hw (putSeq_of_room room)
  exact ⟨_, by rw [exec, execTcSer, hq, putSeq_of_room room, settle_ok], happ, hwt⟩

/-- `TC.SER` without room for them (44_tree_codec.md R167). -/
theorem execTcSer_of_no_room {q : Bits} {s : State} (hq : serBody s = putSeq q s)
    (h : writeCap s < writePos s + q.length) : exec .tcSer s = .next { s with err := .capacityExceeded } := by
  rw [exec, execTcSer, hq, putSeq_of_no_room h, settle_raise]
  rfl

/-- Settles O27: with a tree or without one the body is one `PutSeq`. -/
theorem tcSerAppendsTheTree : Obligations.TcSerAppendsTheTree := fun _ hw =>
  ⟨fun h => execTcSer_of_room (serBody_of_root_none h) hw,
    fun h => execTcSer_of_no_room (serBody_of_root_none h),
    fun _ ht => ⟨execTcSer_of_room (serBody_of_denotes ht) hw, execTcSer_of_no_room (serBody_of_denotes ht)⟩⟩

/-! ## The tree read back -/

/-- The state in which the body of `TC.DES` ends when the tree `tr` stands at `RPOS`. -/
def rebuilt (s : State) (tr : Tree) : State := { parsed (discardTree s) tr with root := some 0 }

theorem rebuilt_nodes (s : State) (tr : Tree) : (rebuilt s tr).nodes = arenaOf 0 tr := List.nil_append _

theorem rebuilt_nodes_length (s : State) (tr : Tree) : (rebuilt s tr).nodes.length = Tree.size tr := by
  rw [rebuilt_nodes, arenaOf_length]

/-- `RPOS` stands just behind the tree. -/
theorem rebuilt_rpos {s : State} {tr : Tree} (hi : InputOk s) (h : BitsAt s s.rpos.toNat (serTree tr)) :
    (rebuilt s tr).rpos.toNat = s.rpos.toNat + (serTree tr).length :=
  advance_rpos_of_bitsAt hi (.inr h)

/-- The entries of the arena denote the tree that was parsed (44_tree_codec.md R175). -/
theorem rebuilt_denotes {s : State} {tr : Tree} (h : Tree.size tr ≤ 511) : Denotes (rebuilt s tr) tr := by
  have hspan := spans_arenaOf (t := tr) (pre := []) (post := []) (by simpa using h)
  rw [List.nil_append, List.append_nil, List.length_nil, ← rebuilt_nodes s tr] at hspan
  exact hspan.denotes rfl (by rw [rebuilt_nodes_length]; exact Tree.levels_le_size tr)

/-- The arena of `TC.DES` is empty when the parse begins. -/
theorem discardTree_room {s : State} {n k : Nat} (h : n ≤ k) : (discardTree s).nodes.length + n ≤ k := by
  rwa [discardTree_nodes, List.length_nil, Nat.zero_add]

theorem desBody_of_tree {s : State} {tr : Tree} (hi : InputOk s) (h : BitsAt s s.rpos.toNat (serTree tr))
    (hlevels : Tree.levels tr ≤ 256) (hsize : Tree.size tr ≤ 511) :
    desBody (discardTree s) = .ok (rebuilt s tr) := by
  have hbits : BitsAt (discardTree s) (discardTree s).rpos.toNat (serTree tr ++ []) := by rwa [List.append_nil]
  rw [desBody, parse_tree (levels := Config.maxDepth) (s := discardTree s) hi hbits hlevels (discardTree_room hsize)]
  rfl

/-- The single bit `0` gives no tree (44_tree_codec.md R170). -/
theorem execTcDes_of_nil {s : State} (hi : InputOk s) (h : BitsAt s s.rpos.toNat [false]) :
    exec .tcDes s = .next { s with err := .ok, rpos := s.rpos + 1, nodes := [], root := none } := by
  rw [exec, execTcDes_of_ok (parse_nil (s := discardTree s) hi (by decide) h), advance_rpos_eq_add]
  rfl

/-- Settles O29: the parser leaves the arena `arenaOf 0 tr`, and the rest is said of that arena. -/
theorem tcDesParsesTheSerializedTree : Obligations.TcDesParsesTheSerializedTree := by
  refine fun s hi => ⟨execTcDes_of_nil hi, fun tr hsize hlevels h => ?_⟩
  have hbody := desBody_of_tree hi h hlevels hsize
  have hnodes := rebuilt_nodes s tr
  refine ⟨setErr .ok (rebuilt s tr), ?_, rfl, rebuilt_denotes hsize, (desBody_arenaOk hbody).setErr .ok,
    rebuilt_rpos hi h, rebuilt_nodes_length s tr, hnodes, fun n hn => ?_, fun i w l r hn => ?_⟩
  · rw [exec, execTcDes, hbody, settle_ok]
  · rw [setErr_nodes, hnodes] at hn
    exact arenaOf_weight n hn
  · rw [setErr_nodes, hnodes] at hn
    have := arenaOf_left (base := 0) (by omega) hn
    omega

/-! ## What a success has consumed -/

/-- The body of `TC.DES` succeeds on the single bit `0` and on a serialized tree within the two bounds alone. -/
theorem desBody_ok {s t : State} (h : desBody (discardTree s) = .ok t) :
    (t = advance 1 (discardTree s) ∧ BitsAt s s.rpos.toNat [false]) ∨
      ∃ tr, t = rebuilt s tr ∧ BitsAt s s.rpos.toNat (serTree tr) ∧ Tree.size tr ≤ 511 ∧ Tree.levels tr ≤ 256 := by
  obtain ⟨⟨o, u⟩, hu, h⟩ := bind_ok h
  cases h
  rcases parse_ok hu with ⟨rfl, rfl, hbits⟩ | ⟨tr, rfl, rfl, hbits, hlevels, hsize, -⟩
  · exact .inl ⟨rfl, hbits⟩
  · rw [discardTree_nodes, List.length_nil, Nat.zero_add] at hsize
    exact .inr ⟨tr, rfl, hbits, hsize, hlevels⟩

/-- A `TC.DES` that reports no error has run its whole body. -/
theorem desBody_of_execTcDes {s t : State} (h : exec .tcDes s = .next t) (hok : t.err = .ok) :
    ∃ u, desBody (discardTree s) = .ok u ∧ t = setErr .ok u := by
  rcases settle_next h with hu | ⟨e, he, rfl⟩
  · exact hu
  · obtain rfl : e = .ok := hok
    exact absurd (desBody_raisesOnly _ _ he) (by decide)

/-- Settles O30: the body succeeds on these bits alone, and the state it ends in is known. -/
theorem tcDesConsumesTheSerializedTree : Obligations.TcDesConsumesTheSerializedTree := by
  intro s t hi h hok
  obtain ⟨u, hu, rfl⟩ := desBody_of_execTcDes h hok
  rcases desBody_ok hu with ⟨rfl, hbits⟩ | ⟨tr, rfl, hbits, hsize, hlevels⟩
  · exact .inl ⟨rfl, rfl, hbits, advance_rpos_of_bitsAt hi (.inr hbits)⟩
  · exact .inr ⟨tr, rebuilt_denotes hsize, hbits, rebuilt_rpos hi hbits, (rebuilt_nodes_length s tr).symm, hsize,
      hlevels⟩

/-! ## Failures -/

/-- A NIL child of an open node (44_tree_codec.md R173). -/
theorem execTcDes_of_nil_child {s : State} {p : OpenPath} (hi : InputOk s) (hp : OpenOk p) (hne : p ≠ [])
    (hlen : p.length < 256) (h : BitsAt s s.rpos.toNat (openBits p ++ [false])) :
    exec .tcDes s = .next { s with err := .malformedTree, nodes := [], root := none } :=
  execTcDes_of_error (parse_opened_nil (s := discardTree s) hi h hne (discardTree_room hp.1) hp.2 hlen)

/-- Settles O31: a missing child of the root is a missing child of a path with one open node. -/
theorem tcDesRejectsMalformedTrees : Obligations.TcDesRejectsMalformedTrees := by
  refine fun s hi => ⟨fun h => ?_, fun l hsize hlevels h => ?_, fun tr hbig h => ?_, fun p hp =>
    ⟨fun hne hlen h => execTcDes_of_nil_child hi hp hne hlen h, fun hlen h => ?_, fun q hq hfull hlen h => ?_⟩⟩
  · exact execTcDes_of_nil_child (p := [none]) hi ⟨by decide, by decide⟩ (by simp) (by decide) h
  · have hp : OpenOk [some l] := by
      constructor
      · simp only [openNodes, Config.nodeCap]
        omega
      · simp only [openLevels, Config.maxDepth]
        omega
    exact execTcDes_of_nil_child hi hp (by simp) (by simp) (by simpa [openBits] using h)
  · refine execTcDes_of_error (parse_too_big (s := discardTree s) (rest := []) hi (by rwa [List.append_nil]) ?_)
    rw [discardTree_nodes, List.length_nil, Nat.zero_add]
    exact hbig.symm
  · refine execTcDes_of_error ?_
    rw [show Config.maxDepth = p.length from hlen.symm]
    exact parse_opened_deep hi h (discardTree_room hp.1) (hlen.symm ▸ hp.2)
  · refine execTcDes_of_error (parse_opened_full (s := discardTree s) (rest := []) hi ?_ hq ?_ hp.2 hlen)
    · rwa [List.append_nil]
    · rw [discardTree_nodes, List.length_nil, Nat.zero_add, hfull]

/-- The input ends before the tree (44_tree_codec.md R170). -/
theorem parse_of_no_bits {levels : Nat} {s : State} (hl : levels ≠ 0) (h : 8 * s.inLen.toNat ≤ s.rpos.toNat) :
    parse levels s = .error (.raise .streamUnderrun) := by
  obtain ⟨lv, rfl⟩ := Nat.exists_eq_succ_of_ne_zero hl
  rw [parse, readBits_of_underrun (by omega)]
  rfl

/-- Settles O32: each place where the input can end is an underrun of the parser. -/
theorem tcDesUnderruns : Obligations.TcDesUnderruns := fun s hi =>
  ⟨fun h => execTcDes_of_error (parse_of_no_bits (s := discardTree s) (by decide) h),
    fun _ _ hsize hlevels hlt hend h =>
      execTcDes_of_error (parse_cut (s := discardTree s) hi hlevels (discardTree_room hsize) hlt hend h),
    fun _ _ _ hp hlen hk hend h =>
      execTcDes_of_error (parse_opened_cut (s := discardTree s) hi h hk (discardTree_room hp.1) hp.2 hlen hend)⟩

end Sys2Proof.Machine
end

section
/-! SUPPORT. The datapath's four commands (45_encoder_decoder_datapath.md R185 to R190): what `EN.SYM` and `EN.PAYLOAD`
append, where `EN.PAYLOAD` stops, and where `DE.SYM` and `DE.PAYLOAD` run out of bits. -/

namespace Sys2Proof.Machine

/-! ## Encoding one symbol -/

theorem encodeSymbol_of_none {v : Byte} {s : State} (h : codeOf s v = none) :
    encodeSymbol v s = .error (.raise .unmappedSymbol) := by
  rw [encodeSymbol, h]

theorem encodeSymbol_of_some {v : Byte} {q : Bits} {s : State} (h : codeOf s v = some q) :
    encodeSymbol v s = putSeq q s := by
  rw [encodeSymbol, h]

/-- A command whose body is one `PutSeq` appends the bits when they have room (43_bit_writer_reader.md R147). -/
theorem settle_putSeq_of_room {q : Bits} {s : State} (hw : WriterOk s) (room : writePos s + q.length ≤ writeCap s)
    (f : ErrCode → State) : ∃ t, settle f (putSeq q s) = .next t ∧ Appended s t q ∧ WriterOk t := by
  obtain ⟨happ, hwt⟩ := putSeq_appended hw (putSeq_of_room room)
  exact ⟨_, by rw [putSeq_of_room room, settle_ok], happ, hwt⟩

/-- Settles O33: the table test is a case of `encodeSymbol`, and with a code the command is one `PutSeq`. -/
theorem enSymAppendsTheCode : Obligations.EnSymAppendsTheCode := by
  refine fun s v hw => ⟨fun h => ?_, fun q h => ⟨fun hfull => ?_, fun room => ?_⟩⟩
  · rw [exec, execEnSym, encodeSymbol_of_none h, settle_raise]
    rfl
  · rw [exec, execEnSym, encodeSymbol_of_some h, putSeq_of_no_room hfull, settle_raise]
    rfl
  · rw [exec, execEnSym, encodeSymbol_of_some h]
    exact settle_putSeq_of_room hw room _

/-! ## Encoding the input -/

theorem execEnPayload_of_inputOk {s : State} (hi : InputOk s) :
    exec .enPayload s = settle (fun e => raiseErr e s) (encodeSymbols (inputBytes s) s) := by
  rw [exec, execEnPayload, payloadBody, if_neg (Nat.not_lt.2 hi)]

/-- A sum over a list of bytes, collected by byte value. -/
theorem sum_map_eq_sum_count (f : Byte → Nat) (bs : List Byte) :
    (bs.map f).sum =
      ((List.range 256).map (fun n => bs.count (BitVec.ofNat 8 n) * f (BitVec.ofNat 8 n))).sum := by
  have hval (b : Byte) : BitVec.ofNat 8 b.toNat = b := by rw [BitVec.ofNat_toNat, BitVec.setWidth_eq]
  rw [Finset.sum_list_map_count, ← List.sum_toFinset _ List.nodup_range]
  refine Finset.sum_of_injOn BitVec.toNat BitVec.toNat_injective.injOn (fun b _ => ?_) (fun n hn hout => ?_)
    fun b _ => by rw [hval, smul_eq_mul]
  · exact List.mem_toFinset.2 (List.mem_range.2 b.isLt)
  · have hlt : n < 256 := List.mem_range.1 (List.mem_toFinset.1 hn)
    have hnot : BitVec.ofNat 8 n ∉ bs := fun hmem =>
      hout ⟨_, List.mem_toFinset.2 hmem, by rw [BitVec.toNat_ofNat, Nat.mod_eq_of_lt hlt]⟩
    rw [List.count_eq_zero_of_not_mem hnot, Nat.zero_mul]

/-- The length of a payload, from the counts of its symbols (45_encoder_decoder_datapath.md R187). -/
theorem codesOf_length (s : State) (bs : List Byte) :
    (codesOf s bs).length =
      ((List.range 256).map (fun n =>
        bs.count (BitVec.ofNat 8 n) * (codeBits s (BitVec.ofNat 8 n)).length)).sum := by
  rw [codesOf, List.length_flatMap]
  exact sum_map_eq_sum_count (fun b => (codeBits s b).length) bs

/-- Settles O34: with a code for each byte the whole payload is one `PutSeq`. -/
theorem enPayloadAppendsTheCodes : Obligations.EnPayloadAppendsTheCodes := by
  intro s hw hi hcodes room
  obtain ⟨t, ht, happ, hwt⟩ := settle_putSeq_of_room hw room (fun e => raiseErr e s)
  refine ⟨t, ?_, happ, hwt, codesOf_length s (inputBytes s)⟩
  rw [execEnPayload_of_inputOk hi, encodeSymbols_eq hw hcodes, ht]

/-- Encoding stops at the first symbol that cannot be encoded behind those before it (45_encoder_decoder_datapath.md
R186). -/
theorem encodeSymbols_of_error {pre post : List Byte} {v : Byte} {s : State} {x : Exn} (hw : WriterOk s)
    (hcodes : ∀ b ∈ pre, (codeOf s b).isSome = true) (room : writePos s + (codesOf s pre).length ≤ writeCap s)
    (h : encodeSymbol v ((codesOf s pre).foldl putBit1 s) = .error x) :
    encodeSymbols (pre ++ v :: post) s = .error x := by
  rw [encodeSymbols_append, encodeSymbols_eq hw hcodes, putSeq_of_room room]
  simp only [encodeSymbols, bind, Except.bind, h]

theorem codeOf_foldl_putBit1 (q : Bits) (s : State) (b : Byte) : codeOf (q.foldl putBit1 s) b = codeOf s b := by
  rw [codeOf, foldl_putBit1_code, codeOf]

/-- Settles O35: `EN.PAYLOAD` ends where encoding stops, and a failure is said of the state before the command. -/
theorem enPayloadReportsTheFirstCause : Obligations.EnPayloadReportsTheFirstCause := by
  intro s pre post v hw hi hin hcodes room
  have hstop {e : ErrCode} (h : encodeSymbol v ((codesOf s pre).foldl putBit1 s) = .error (.raise e)) :
      exec .enPayload s = .next { s with err := e } := by
    rw [execEnPayload_of_inputOk hi, hin, encodeSymbols_of_error hw hcodes room h, settle_raise]
    rfl
  refine ⟨fun hnone => hstop (encodeSymbol_of_none ?_), fun q hq hfull => hstop ?_⟩
  · rwa [codeOf_foldl_putBit1]
  · rw [encodeSymbol_of_some ((codeOf_foldl_putBit1 ..).trans hq)]
    obtain ⟨-, hpos, -⟩ := foldl_putBit1_spec (codesOf s pre) hw room
    exact putSeq_of_no_room (by rwa [writeCap_foldl_putBit1, hpos])

/-! ## Decoding one symbol -/

theorem deSymBody_of_root_none {s : State} (h : s.root = none) :
    deSymBody s = .error (.raise .malformedHeader) := by
  rw [deSymBody, h]

theorem execDeSym_of_error {s : State} {e : ErrCode} (h : deSymBody s = .error (.raise e)) :
    exec .deSym s = .next { s with err := e } := by
  rw [exec, execDeSym, h]
  rfl

/-- Settles O36: the command is one descent, and where a descent along a path ends is known. -/
theorem deSymDescends : Obligations.DeSymDescends := by
  refine fun s => ⟨fun h => execDeSym_of_error (deSymBody_of_root_none h), fun tr b q hi ht hp =>
    ⟨fun hbits => ?_, fun hne hlt hpre => execDeSym_of_error ?_⟩⟩
  · have hd := descend_path (r := []) hp hi (by rwa [List.append_nil])
    refine ⟨setErr .ok (deliver b (advance q.length s)), ?_, rfl, advance_rpos_of_bitsAt hi hbits⟩
    rw [exec, execDeSym, deSymBody_of_denotes ht, hd]
    rfl
  · rw [deSymBody_of_denotes ht, descend_cut hi hp hne hlt hpre]
    rfl

/-! ## Decoding several symbols -/

/-- Settles O37: the symbols are appended to a fresh writer, where they are whole bytes, and nothing else changes but
`RPOS`. -/
theorem dePayloadDecodesPaths : Obligations.DePayloadDecodesPaths := by
  intro s tr ps hi ht hp room hbits
  have hexec := execDePayload_paths hi ht hp room hbits
  obtain ⟨hlen, hcnt, hacc, hread, hout⟩ := foldl_putBit1_symbolBits (writerOk_emptyWriter s) rfl room rfl
  obtain ⟨o, n, a, c, hframe⟩ := foldl_putBit1_frame (symbolBits ps) (emptyWriter s)
  rw [hframe] at hexec hlen hcnt hacc hread hout
  obtain rfl : c = 0 := hcnt
  obtain rfl : a = 0 := hacc
  exact ⟨_, hexec, rfl, hlen, advance_rpos_of_bitsAt hi hbits, hread, hout⟩

theorem decodeSymbols_add (t : Tree) (m n : Nat) (s : State) :
    decodeSymbols t (m + n) s = (do
      let s ← decodeSymbols t m s
      decodeSymbols t n s) := by
  induction m generalizing s with
  | zero =>
    rw [Nat.zero_add]
    rfl
  | succ m ih =>
    rw [Nat.succ_add]
    simp only [decodeSymbols, ih, bind_assoc]

/-- When the rest of the input is a beginning of `q ++ r` and not shorter than `q`, then `q` stands at `RPOS`, and what
is left behind it is a beginning of `r`. -/
theorem bitsLeft_prefix_append {s : State} {q r : Bits} (hi : InputOk s)
    (hlen : q.length ≤ 8 * s.inLen.toNat - s.rpos.toNat) (h : bitsLeft s <+: q ++ r) :
    (q = [] ∨ BitsAt s s.rpos.toNat q) ∧ bitsLeft (advance q.length s) <+: r := by
  by_cases hq : q = []
  · subst hq
    exact ⟨.inl rfl, by rwa [List.length_nil, advance_zero]⟩
  have hpos := List.length_pos_of_ne_nil hq
  obtain ⟨k, hk⟩ := Nat.exists_eq_add_of_le hlen
  rw [bitsLeft, hk, inBits_append] at h
  have hfst : inBits s s.rpos.toNat q.length = q :=
    (List.prefix_of_prefix_length_le ((List.prefix_append ..).trans h) (List.prefix_append ..)
      (by rw [inBits_length])).eq_of_length (inBits_length ..)
  have hat : BitsAt s s.rpos.toNat q := ⟨by omega, hfst⟩
  rw [hfst, List.prefix_append_right_inj] at h
  refine ⟨.inr hat, ?_⟩
  rwa [bitsLeft, advance_rpos_of_bitsAt hi (.inr hat), advance_inLen, inBits_advance,
    show 8 * s.inLen.toNat - (s.rpos.toNat + q.length) = k by omega]

/-- Decoding ends at the first descent that the input does not suffice for (45_encoder_decoder_datapath.md R189). -/
theorem decodeSymbols_cut {t : Tree} {ps : List (Byte × Bits)} {b : Byte} {q : Bits} {n : Nat} {s : State}
    (hi : InputOk s) (hw : WriterOk s) (hps : ∀ p ∈ ps, p ∈ Tree.paths t) (hp : (b, q) ∈ Tree.paths t) (hq : q ≠ [])
    (hn : ps.length < n) (room : writePos s + 8 * ps.length ≤ writeCap s)
    (hlen : (ps.flatMap Prod.snd).length ≤ 8 * s.inLen.toNat - s.rpos.toNat)
    (hlt : 8 * s.inLen.toNat < s.rpos.toNat + (ps.flatMap Prod.snd).length + q.length)
    (h : bitsLeft s <+: ps.flatMap Prod.snd ++ q) : decodeSymbols t n s = .error (.raise .streamUnderrun) := by
  obtain ⟨hbits, hrest⟩ := bitsLeft_prefix_append hi hlen h
  have hdec := decodeSymbols_paths (r := []) hi hw hps room (by rwa [List.append_nil])
  have hcut : descend t ((symbolBits ps).foldl putBit1 (advance (ps.flatMap Prod.snd).length s)) =
      .error (.raise .streamUnderrun) := by
    refine descend_cut (inputOk_foldl (inputOk_advance hi)) hp hq ?_ ?_
    · rwa [foldl_putBit1_inLen, foldl_putBit1_rpos, advance_inLen, advance_rpos_of_bitsAt hi hbits]
    · obtain ⟨o, m, a, c, hframe⟩ := foldl_putBit1_frame (symbolBits ps) (advance (ps.flatMap Prod.snd).length s)
      rw [hframe]
      exact hrest
  obtain ⟨k, rfl⟩ := Nat.exists_eq_add_of_lt hn
  rw [Nat.add_assoc, decodeSymbols_add, hdec]
  simp only [decodeSymbols, bind, Except.bind, hcut]

/-- A failing `DE.PAYLOAD` leaves an empty writer (60_exceptions.md R252). -/
theorem execDePayload_of_error {n : Word32} {s : State} {e : ErrCode} (h : dePayloadBody n s = .error (.raise e)) :
    exec (.dePayload n) s = .next { s with err := e, outLen := 0, wacc := 0, wcnt := 0 } := by
  rw [exec, execDePayload, h]
  rfl

/-- Settles O38: the tests of `dePayloadBody` in order, and behind them the first descent that is cut. -/
theorem dePayloadZeroAndFailures : Obligations.DePayloadZeroAndFailures := by
  refine fun s => ⟨rfl, fun n hn => ⟨fun hroot => ?_, fun hroot hfull => ?_, ?_⟩⟩
  · exact execDePayload_of_error (by rw [dePayloadBody, if_pos ⟨hn, hroot⟩])
  · exact execDePayload_of_error (by rw [dePayloadBody, if_neg fun h => hroot h.2, if_pos hfull])
  · intro tr ps b q hi ht hps hp hq hlt room hlen hcut hpre
    refine execDePayload_of_error ?_
    rw [dePayloadBody_of_room ht room]
    exact decodeSymbols_cut (s := emptyWriter s) hi (writerOk_emptyWriter s) hps hp hq hlt
      (show 0 + 8 * ps.length ≤ 8 * s.cfg.outCap.val by omega) hlen hcut hpre

end Sys2Proof.Machine
end

section
/-! SUPPORT. `COMPRESS` as one stream (46_compress.md R200): its first two steps are the commands `FQ.COUNT`, `TB.BUILD`
and `CG.GEN`, and its other steps append one bit string to a fresh writer and finalize it. -/

namespace Sys2Proof.Machine

/-! ## Steps that do not look at `ERR` -/

/-- A step that gives the same from every `ERR`, and does not write it. -/
def IgnoresErr (f : State → Except Exn State) : Prop :=
  ∀ e s, f (setErr e s) = (f s).map (setErr e)

theorem IgnoresErr.bind {f g : State → Except Exn State} (hf : IgnoresErr f) (hg : IgnoresErr g) :
    IgnoresErr (fun s => f s >>= g) := by
  intro e s
  dsimp only
  rw [hf e s]
  exact bind_map (hg e)

/-- A step that ignores `ERR` leaves it as it was. -/
theorem IgnoresErr.err_eq {f : State → Except Exn State} (hf : IgnoresErr f) {s t : State} (h : f s = .ok t) :
    t.err = s.err := by
  have hs := hf s.err s
  rw [setErr_of_err_eq rfl, h] at hs
  have ht : t = setErr s.err t := Except.ok.inj hs
  rw [ht, setErr_err]

theorem foldl_putBit1_setErr (e : ErrCode) (q : Bits) (s : State) :
    q.foldl putBit1 (setErr e s) = setErr e (q.foldl putBit1 s) := by
  induction q generalizing s with
  | nil => rfl
  | cons b q ih =>
    have hb : putBit1 (setErr e s) b = setErr e (putBit1 s b) := by
      rw [putBit1, putBit1, apply_ite (setErr e)]
      rfl
    rw [List.foldl_cons, hb, ih, List.foldl_cons]

theorem putSeq_ignoresErr (q : Bits) : IgnoresErr (putSeq q) := by
  intro e s
  rw [putSeq, putSeq, apply_ite (Except.map _)]
  exact if_congr Iff.rfl rfl (congrArg Except.ok (foldl_putBit1_setErr e q s))

theorem finalBody_ignoresErr : IgnoresErr finalBody := by
  intro e s
  rw [finalBody, finalBody, apply_ite (Except.map _), apply_ite (Except.map _)]
  rfl

theorem countBody_ignoresErr : IgnoresErr countBody := by
  have hfold (e : ErrCode) (bs : List Byte) (s : State) :
      bs.foldl countByte (setErr e s) = setErr e (bs.foldl countByte s) := by
    induction bs generalizing s with
    | nil => rfl
    | cons b bs ih => exact ih (countByte s b)
  intro e s
  rw [countBody, countBody, apply_ite (Except.map _)]
  exact if_congr Iff.rfl rfl (congrArg Except.ok
    (hfold e (inputBytes s) { s with freqCount := zeroCounts, freqOrder := [] }))

theorem buildBody_ignoresErr : IgnoresErr buildBody := by
  intro e s
  rw [buildBody, buildBody, apply_ite (Except.map _)]
  rfl

theorem genBody_ignoresErr : IgnoresErr genBody := by
  intro e s
  unfold genBody
  rw [setErr_root]
  cases s.root with
  | none => rfl
  | some r =>
    have htree : treeIn (setErr e s) r = treeIn s r := rfl
    simp only [htree]
    cases treeIn s r <;> rfl

theorem analyseBody_ignoresErr : IgnoresErr analyseBody :=
  countBody_ignoresErr.bind (buildBody_ignoresErr.bind genBody_ignoresErr)

/-- What a command leaves does not depend on the `ERR` its body ends with. -/
theorem settle_setErr (f : ErrCode → State) (e : ErrCode) (x : Except Exn State) :
    settle f (x.map (setErr e)) = settle f x := by
  rcases x with (_ | _) | _ <;> rfl

/-! ## The first steps -/

theorem Analysed.setErr {s a : State} (h : Analysed s a) (e : ErrCode) : Analysed (setErr e s) (setErr e a) where
  frame := congrArg (Machine.setErr e) h.frame
  tab := h.tab.setErr e
  arena := h.arena.setErr e
  empty := h.empty
  tree := h.tree

/-- The three commands compute what the first steps of `COMPRESS` compute. -/
theorem runOk_analyse {s : State} (hi : InputOk s) :
    ∃ a, analyseBody s = .ok a ∧ runOk [.fqCount, .tbBuild, .cgGen] s = some (setErr .ok a) ∧ Analysed s a := by
  obtain ⟨c, b, a, hc, hb, ha, hall, han⟩ := analyseBody_spec hi
  have hcount : exec .fqCount s = .next (setErr .ok c) := by rw [exec, execFqCount, hc, settle_ok]
  have hbuild : exec .tbBuild (setErr .ok c) = .next (setErr .ok b) := by
    rw [exec, execTbBuild, buildBody_ignoresErr, hb]
    rfl
  have hgen : exec .cgGen (setErr .ok b) = .next (setErr .ok a) := by
    rw [exec, execCgGen, genBody_ignoresErr, ha]
    rfl
  refine ⟨a, hall, ?_, han⟩
  rw [runOk_cons hcount rfl, runOk_cons hbuild rfl, runOk_cons hgen rfl, runOk]

/-! ## One stream on a fresh writer -/

/-- A bit string on a fresh writer, finalized. -/
def streamed (q : Bits) (s : State) : Except Exn State := putSeq q (emptyWriter s) >>= finalBody

theorem streamed_ignoresErr (q : Bits) : IgnoresErr (streamed q) :=
  fun e s => (putSeq_ignoresErr q).bind finalBody_ignoresErr e (emptyWriter s)

/-- `t` is `s` with the bit string `q`, padded, as its whole output. -/
structure Streamed (q : Bits) (s t : State) : Prop where
  frame : t = { s with outLen := t.outLen, wacc := 0, wcnt := 0, obuf := t.obuf }
  bits : writtenBits t = q ++ padding q.length
  len : t.outLen.toNat = (q.length + 7) / 8
  writer : WriterOk t
  outside : ObufSameOutside s t 0 t.outLen.toNat
  bytes : ∀ i, i < t.outLen.toNat → (t.obuf.read i).isSome = true

theorem streamed_of_no_room {q : Bits} {s : State} (h : writeCap s < q.length) :
    streamed q s = .error (.raise .capacityExceeded) := by
  have hput : putSeq q (emptyWriter s) = .error (.raise .capacityExceeded) :=
    putSeq_of_no_room (show writeCap s < 0 + q.length by omega)
  rw [streamed, hput]
  rfl

theorem streamed_of_room {q : Bits} {s : State} (room : q.length ≤ writeCap s) :
    ∃ t, streamed q s = .ok t ∧ Streamed q s t := by
  have hw := writerOk_emptyWriter s
  have hroom : writePos (emptyWriter s) + q.length ≤ writeCap (emptyWriter s) :=
    show 0 + q.length ≤ writeCap s by omega
  obtain ⟨hbits, hpos, hwu, -, hout⟩ := foldl_putBit1_spec q hw hroom
  have hsome (i : Nat) (hi) := foldl_putBit1_some q hw hroom (i := i) hi
  obtain ⟨o, n, x, c, hframe⟩ := foldl_putBit1_frame q (emptyWriter s)
  obtain ⟨t, ht, tbits, tcnt, tacc, twriter, tlen, tle, tout, tsome, tframe⟩ := finalBody_spec hwu
  have hpos' : writePos (q.foldl putBit1 (emptyWriter s)) = q.length := by rw [hpos]; exact Nat.zero_add _
  have hcnt : (q.foldl putBit1 (emptyWriter s)).wcnt.toNat % 8 = q.length % 8 := by
    rw [← hpos', writePos]
    omega
  refine ⟨t, ?_, ?_, ?_, ?_, twriter, fun i hi => ?_, fun i hi => ?_⟩
  · rw [streamed, putSeq_of_room hroom]
    exact ht
  · rw [tacc, tcnt, hframe] at tframe
    exact tframe
  · rw [tbits, hbits, padding_congr hcnt]
    rfl
  · rw [tlen, hpos']
  · rw [tout i (by omega), hout i (by omega)]
    rfl
  · by_cases hlt : i < (q.foldl putBit1 (emptyWriter s)).outLen.toNat
    · rw [tout i (by omega)]
      exact hsome i (Nat.zero_le i) hlt
    · exact tsome i (by omega) hi

section

variable {q : Bits} {s t : State} (h : Streamed q s t)

include h

/-- A finalized output is whole bytes. -/
theorem Streamed.wcnt_eq : t.wcnt = 0 := by rw [h.frame]

theorem Streamed.err_eq : t.err = s.err := by rw [h.frame]

theorem Streamed.freqOrder_eq : t.freqOrder = s.freqOrder := by rw [h.frame]

theorem Streamed.countOf_eq (b : Byte) : countOf t b = countOf s b := by
  rw [h.frame]
  rfl

theorem Streamed.code_eq : t.code = s.code := by rw [h.frame]

theorem Streamed.codeOf_eq (b : Byte) : codeOf t b = codeOf s b := by rw [codeOf, h.code_eq, codeOf]

end

/-- A byte of the output, from the eight bits that stand in its place. -/
theorem Streamed.read_eq {q p r : Bits} {s t : State} {v : Byte} {i : Nat} (h : Streamed q s t)
    (hq : q ++ padding q.length = p ++ (bitsOf v ++ r)) (hp : p.length = 8 * i) : t.obuf.read i = some v := by
  have hbits := h.bits.trans hq
  have hlen := congrArg List.length hbits
  rw [writtenBits_length, writePos, h.wcnt_eq] at hlen
  simp only [List.length_append, bitsOf_length, BitVec.ofNat_eq_ofNat, BitVec.toNat_ofNat, Nat.zero_mod] at hlen
  have hlt : i < t.outLen.toNat := by omega
  exact read_of_writtenBits hlt (h.bytes i hlt) hbits hp

/-- The first four bytes are those of the value in front, the most significant first (20_memory.md R65). -/
theorem Streamed.header {n : Word32} {q r : Bits} {s t : State} (h : Streamed q s t) (hq : q = bitsOf n ++ r) {i : Nat}
    (hi : i < 4) : t.obuf.read i = some (n.extractLsb' (24 - 8 * i) 8) := by
  refine h.read_eq (p := (bitsOf n).take (8 * i)) (r := (bitsOf n).drop (8 * i + 8) ++ (r ++ padding q.length)) ?_ ?_
  · calc q ++ padding q.length = bitsOf n ++ (r ++ padding q.length) := by
          conv_lhs => arg 1; rw [hq]
          rw [List.append_assoc]
      _ = _ := by
          conv_lhs => rw [bitsOf_word_eq n hi]
          rw [List.append_assoc, List.append_assoc]
  · rw [List.length_take, bitsOf_length]
    omega

/-! ## The whole command -/

/-- The stream of a state that has analysed its input: the header alone for an empty input, else header, tree and codes
(46_compress.md R200, R202). -/
def wholeStream (a : State) : Bits :=
  if a.freqOrder = [] then bitsOf a.inLen
  else bitsOf a.inLen ++ ((serBits a).toOption.getD [] ++ codesOf a (inputBytes a))

theorem wholeStream_of_empty {a : State} (h : a.freqOrder = []) : wholeStream a = bitsOf a.inLen :=
  if_pos h

theorem wholeStream_of_denotes {a : State} {tr : Tree} (hne : a.freqOrder ≠ []) (ht : Denotes a tr) :
    wholeStream a = streamBits a tr := by
  obtain ⟨r, hr, hin⟩ := ht.treeIn
  have hser : serBits a = .ok (serTree tr) := by
    simp only [serBits, hr, hin]
    rfl
  rw [wholeStream, if_neg hne, hser, streamBits, List.append_assoc]
  rfl

theorem emitBody_of_empty {a : State} (h : a.freqOrder = []) :
    emitBody (emptyWriter a) = (streamed (bitsOf a.inLen) a).map discardTree := by
  rw [streamed, emitBody]
  change (putSeq (bitsOf a.inLen) (emptyWriter a) >>= _) = _
  cases hput : putSeq (bitsOf a.inLen) (emptyWriter a) with
  | error x => rfl
  | ok u =>
    have hu : u.freqOrder = [] := by
      rw [((putSeq_touches hput).freq (by decide)).2]
      exact h
    simp only [bind, Except.bind, if_pos hu, pure, Except.pure]
    cases finalBody u <;> rfl

theorem emitBody_of_denotes {a : State} {tr : Tree} (hne : a.freqOrder ≠ []) (ht : Denotes a tr) :
    emitBody (emptyWriter a) = (streamed (streamBits a tr) a).map discardTree := by
  rw [emitBody_eq hne ht, streamed]
  cases putSeq (streamBits a tr) (emptyWriter a) with
  | error x => rfl
  | ok u =>
    change (finalBody u >>= _) = (finalBody u).map discardTree
    cases finalBody u <;> rfl

/-- Steps 3 to 6 write the whole stream. -/
theorem Analysed.emitBody_eq {s a : State} (h : Analysed s a) :
    emitBody (emptyWriter a) = (streamed (wholeStream a) a).map discardTree := by
  by_cases hne : a.freqOrder = []
  · rw [wholeStream_of_empty hne, emitBody_of_empty hne]
  · obtain ⟨tr, htr, -⟩ := h.tree hne
    rw [wholeStream_of_denotes hne htr, emitBody_of_denotes hne htr]

/-- `COMPRESS` in two parts: what the three commands leave, and one stream written from there. -/
structure Compresses (s a : State) : Prop where
  input : InputOk s
  body : analyseBody (setErr .ok s) = .ok a
  run : runOk [.fqCount, .tbBuild, .cgGen] s = some a
  analysed : Analysed (setErr .ok s) a
  exec_eq : exec .compress s = settle (compressFail a) ((streamed (wholeStream a) a).map discardTree)

section

variable {s a : State} (h : Compresses s a)

include h

theorem Compresses.err_eq : a.err = .ok := by
  rw [h.analysed.frame]
  rfl

theorem Compresses.inLen_eq : a.inLen = s.inLen := by
  rw [h.analysed.frame]
  rfl

theorem Compresses.inputBytes_eq : inputBytes a = inputBytes s :=
  h.analysed.inputBytes

theorem Compresses.obuf_eq : a.obuf = s.obuf := by
  rw [h.analysed.frame]
  rfl

theorem Compresses.writeCap_eq : writeCap a = 8 * s.cfg.outCap.val := by
  rw [h.analysed.frame]
  rfl

theorem Compresses.tab : Tabulates a (inputBytes s) :=
  h.analysed.tab

theorem Compresses.freqOrder_eq_nil_iff : a.freqOrder = [] ↔ s.inLen = 0 :=
  h.tab.freqOrder_eq_nil_iff.trans inputBytes_eq_nil_iff

theorem Compresses.freqOrder_length_le : a.freqOrder.length ≤ 256 := by
  refine (h.tab.freqOk ?_).length_le
  rw [inputBytes_length, h.analysed.frame]
  exact h.input

end

/-- `COMPRESS` takes these two parts on every legal input. -/
theorem exists_compresses {s : State} (hi : InputOk s) : ∃ a, Compresses s a := by
  obtain ⟨a, ha, hrun, han⟩ := runOk_analyse hi
  have hbody : analyseBody (setErr .ok s) = .ok (setErr .ok a) := by
    rw [analyseBody_ignoresErr, ha]
    rfl
  refine ⟨setErr .ok a, hi, hbody, hrun, han.setErr .ok, ?_⟩
  have hexec : exec .compress s = settle (compressFail a) (emitBody (emptyWriter a)) := by
    rw [exec, execCompress, ha]
  have hcomm (x : Except Exn State) :
      (x.map (setErr .ok)).map discardTree = (x.map discardTree).map (setErr .ok) := by cases x <;> rfl
  rw [hexec, han.emitBody_eq, streamed_ignoresErr, hcomm, settle_setErr]
  rfl

/-- The counter stops when there is more input than its buffer holds. -/
theorem countBody_of_not_inputOk {s : State} (h : ¬InputOk s) : countBody s = .error (.stop .ibufAddress) :=
  if_pos (Nat.not_le.1 h)

theorem inputOk_of_execFqCount {s t : State} (h : exec .fqCount s = .next t) : InputOk s := by
  by_contra hi
  rw [exec, execFqCount, countBody_of_not_inputOk hi] at h
  cases h

theorem inputOk_of_execCompress {s t : State} (h : exec .compress s = .next t) : InputOk s := by
  by_contra hi
  rw [exec, execCompress, analyseBody, countBody_of_not_inputOk hi] at h
  cases h

/-- When the stream is written `COMPRESS` succeeds, with the tree discarded. -/
theorem Compresses.of_streamed {s a u : State} (h : Compresses s a) (hu : streamed (wholeStream a) a = .ok u) :
    exec .compress s = .next (discardTree u) := by
  have herr : (discardTree u).err = .ok := ((streamed_ignoresErr _).err_eq hu).trans h.err_eq
  rw [h.exec_eq, hu]
  exact congrArg Host.Outcome.next (setErr_of_err_eq herr)

/-- With room for the stream it is written. -/
theorem Compresses.of_room {s a : State} (h : Compresses s a) (room : (wholeStream a).length ≤ writeCap a) :
    ∃ u, Streamed (wholeStream a) a u ∧ exec .compress s = .next (discardTree u) := by
  obtain ⟨u, hu, hst⟩ := streamed_of_room room
  exact ⟨u, hst, h.of_streamed hu⟩

/-- Without room for it `COMPRESS` leaves an empty writer and no tree. -/
theorem Compresses.of_no_room {s a : State} (h : Compresses s a) (hfull : writeCap a < (wholeStream a).length) :
    exec .compress s = .next (compressFail a .capacityExceeded) := by
  rw [h.exec_eq, streamed_of_no_room hfull]
  rfl

/-- What a successful `COMPRESS` has done. -/
theorem exists_streamed_of_execCompress {s t : State} (h : exec .compress s = .next t) (hok : t.err = .ok) :
    ∃ a u, Compresses s a ∧ streamed (wholeStream a) a = .ok u ∧ Streamed (wholeStream a) a u ∧
      t = discardTree u := by
  obtain ⟨a, ha⟩ := exists_compresses (inputOk_of_execCompress h)
  rcases Nat.lt_or_ge (writeCap a) (wholeStream a).length with hfull | room
  · rw [ha.of_no_room hfull] at h
    cases h
    cases hok
  · obtain ⟨u, hu, hst⟩ := streamed_of_room room
    exact ⟨a, u, ha, hu, hst, Host.Outcome.next.inj (h.symm.trans (ha.of_streamed hu))⟩

end Sys2Proof.Machine
end

section
/-! SUPPORT. What `COMPRESS` leaves (46_compress.md R200 to R205): the stream, its size, the empty input, and that the
sequence of primitives does the same. -/

namespace Sys2Proof.Machine

/-! ## The stream -/

/-- What the tree of a nonempty input looks like: a leaf for each symbol (41_tree_builder.md R126). -/
theorem Compresses.exists_tree {s a : State} (h : Compresses s a) (hne : s.inLen ≠ 0) :
    ∃ tr, Denotes a tr ∧ (Tree.symbols tr).Perm a.freqOrder ∧ (∀ b, codeOf a b = lastPath tr b) ∧
      wholeStream a = bitsOf s.inLen ++ serTree tr ++ codesOf a (inputBytes s) := by
  have horder : a.freqOrder ≠ [] := fun e => hne (h.freqOrder_eq_nil_iff.1 e)
  obtain ⟨tr, htr, hperm, hcode⟩ := h.analysed.tree horder
  refine ⟨tr, htr, hperm, hcode, ?_⟩
  rw [wholeStream_of_denotes horder htr, streamBits, h.inputBytes_eq, h.inLen_eq]

/-- Settles O40: the command is one stream on a fresh writer, and the stream has room or not. -/
theorem compressEmitsTheStream : Obligations.CompressEmitsTheStream := by
  intro s hi hne
  obtain ⟨a, ha⟩ := exists_compresses hi
  obtain ⟨tr, htr, hperm, -, hq⟩ := ha.exists_tree hne
  refine ⟨a, tr, wholeStream a, ha.run, htr, hperm, hq, fun room => ?_, fun hfull => ?_⟩
  · obtain ⟨u, hst, hexec⟩ := ha.of_room (ha.writeCap_eq ▸ room)
    refine ⟨discardTree u, hexec, congrArg discardTree hst.frame, hst.bits, hst.len, hst.writer, fun i hi => ?_⟩
    exact (hst.outside i hi).trans (by rw [ha.obuf_eq])
  · exact ha.of_no_room (ha.writeCap_eq ▸ hfull)

/-! ## The empty input -/

theorem Compresses.wholeStream_of_inLen_zero {s a : State} (h : Compresses s a) (h0 : s.inLen = 0) :
    wholeStream a = bitsOf (0 : Word32) := by
  rw [wholeStream_of_empty (h.freqOrder_eq_nil_iff.2 h0), h.inLen_eq, h0]

/-- Settles O41: with no symbol the stream is the header, which has room in every buffer. -/
theorem compressEmptyInput : Obligations.CompressEmptyInput := by
  intro s h0
  have hi : InputOk s := by
    rw [InputOk, h0]
    exact Nat.zero_le _
  obtain ⟨a, ha⟩ := exists_compresses hi
  have hq := ha.wholeStream_of_inLen_zero h0
  have hcap := s.cfg.outCap.property
  have room : (wholeStream a).length ≤ writeCap a := by
    rw [hq, bitsOf_length, ha.writeCap_eq]
    omega
  obtain ⟨u, hst, hexec⟩ := ha.of_room room
  have hlen : u.outLen = 4 := by
    refine BitVec.eq_of_toNat_eq (hst.len.trans ?_)
    rw [hq, bitsOf_length]
    rfl
  have horder := ha.freqOrder_eq_nil_iff.2 h0
  obtain ⟨-, -, hcode⟩ := ha.analysed.empty horder
  have hframe := hst.frame
  have haframe := ha.analysed.frame
  rw [horder] at haframe
  rw [hlen, haframe] at hframe
  refine ⟨discardTree u, hexec, ?_, fun i hi => ?_, fun i hi => ?_, fun b => ?_, fun b => ?_, ?_⟩
  · rw [hframe]
    rfl
  · exact (hst.header (r := []) (hq.trans (List.append_nil _).symm) hi).trans
      (congrArg some BitVec.extractLsb'_zero)
  · exact (hst.outside i (by rw [hlen]; exact hi)).trans (by rw [ha.obuf_eq])
  · exact (hst.codeOf_eq b).trans (hcode b)
  · refine (hst.countOf_eq b).trans (BitVec.eq_of_toNat_eq ?_)
    rw [ha.tab.count, inputBytes_eq_nil_iff.2 h0]
    rfl
  · rw [State.nsym, discardTree_freqOrder, hst.freqOrder_eq, horder]
    rfl

/-! ## The size of the output -/

/-- A sum over the bytes that a table counts, collected by symbol. -/
theorem Tabulates.sum_map {u : State} {bs : List Byte} (h : Tabulates u bs) (f : Byte → Nat) :
    (bs.map f).sum = (u.freqOrder.map (fun b => (countOf u b).toNat * f b)).sum := by
  have hset : u.freqOrder.toFinset = bs.toFinset := by
    ext b
    rw [List.mem_toFinset, List.mem_toFinset, h.mem]
  rw [Finset.sum_list_map_count, ← List.sum_toFinset _ h.nodup, hset]
  exact Finset.sum_congr rfl fun b _ => by rw [h.count, smul_eq_mul]

/-- Settles O45: a tree with a leaf for each symbol has `12 NSYM - 2` bits, and the codes' bits are collected by
symbol. -/
theorem compressOutputSize : Obligations.CompressOutputSize := by
  intro s t h hok
  obtain ⟨a, u, ha, -, hst, rfl⟩ := exists_streamed_of_execCompress h hok
  refine ⟨fun h0 => ?_, fun hne => ?_⟩
  · refine hst.len.trans ?_
    rw [ha.wholeStream_of_inLen_zero h0, bitsOf_length]
  · obtain ⟨tr, -, hperm, -, hq⟩ := ha.exists_tree hne
    have hleaves : Tree.leaves tr = a.freqOrder.length := (Tree.symbols_length tr).symm.trans hperm.length_eq
    have hser := serTree_length tr
    have hpos : 0 < a.freqOrder.length :=
      List.length_pos_iff.2 fun e => hne (ha.freqOrder_eq_nil_iff.1 e)
    have hle := ha.freqOrder_length_le
    have hcodes := ha.tab.sum_map fun b => (codeBits a b).length
    have hlen := hst.len
    rw [hq, List.length_append, List.length_append, bitsOf_length, codesOf, List.length_flatMap, hcodes] at hlen
    have horder : (discardTree u).freqOrder = a.freqOrder := hst.freqOrder_eq
    have hcount (b : Byte) : countOf (discardTree u) b = countOf a b := hst.countOf_eq b
    have hbits (b : Byte) : codeBits (discardTree u) b = codeBits a b := congrArg (·.getD []) (hst.codeOf_eq b)
    simp only [horder, hcount, hbits, discardTree_outLen]
    omega

/-! ## The sequence of primitives -/

/-- Two bit strings one after the other are one. -/
theorem putSeq_bind {q r : Bits} {s : State} (hw : WriterOk s) : putSeq q s >>= putSeq r = putSeq (q ++ r) s := by
  rcases putSeq_cases q s with ⟨-, hq⟩ | ⟨hfull, hq⟩
  · rw [hq]
    exact putSeq_append hq hw
  · rw [hq, putSeq_of_no_room (by rw [List.length_append]; omega)]
    rfl

/-- A run whose first command reports what its body raises goes on from what the body leaves. -/
theorem runOk_cons_toOption {f g : State → Except Exn State} {es : List ErrCode} {i : Instr} {is : List Instr}
    {s : State} (hi : exec i s = settle (fun e => raiseErr e s) (f s)) (hf : IgnoresErr f) (hes : RaisesOnly es (f s))
    (hne : .ok ∉ es) (hs : s.err = .ok)
    (hg : ∀ u, f s = .ok u → u.err = .ok → runOk is u = (g u).toOption) :
    runOk (i :: is) s = (f s >>= g).toOption := by
  rw [runOk, hi]
  rcases hx : f s with (e | x) | u
  · have he : e ≠ .ok := fun e0 => hne (e0 ▸ hes e hx)
    exact if_neg he
  · rfl
  · have hu := (hf.err_eq hx).trans hs
    rw [settle_ok, setErr_of_err_eq hu]
    exact (if_pos hu).trans (hg u hx hu)

theorem runOk_bwFinal {s : State} (hs : s.err = .ok) : runOk [.bwFinal] s = (finalBody s).toOption := by
  have h := runOk_cons_toOption (i := .bwFinal) (is := []) (g := .ok) rfl finalBody_ignoresErr
    (finalBody_raisesOnly s) (by decide) hs fun _ _ _ => rfl
  rw [h]
  cases finalBody s <;> rfl

/-- `EN.PAYLOAD` and `BW.FINAL`, with a code for each byte. -/
theorem runOk_enPayload {s : State} (hi : InputOk s) (hw : WriterOk s)
    (hcodes : ∀ b ∈ inputBytes s, (codeOf s b).isSome = true) (hs : s.err = .ok) :
    runOk [.enPayload, .bwFinal] s = (putSeq (codesOf s (inputBytes s)) s >>= finalBody).toOption := by
  refine runOk_cons_toOption ?_ (putSeq_ignoresErr _) (putSeq_raisesOnly _ s) (by decide) hs fun u _ hu =>
    runOk_bwFinal hu
  rw [execEnPayload_of_inputOk hi, encodeSymbols_eq hw hcodes]

/-- `TC.SER`, `EN.PAYLOAD` and `BW.FINAL`. -/
theorem runOk_tcSer {s : State} {tr : Tree} (hi : InputOk s) (hw : WriterOk s) (ht : Denotes s tr)
    (hcodes : ∀ b ∈ inputBytes s, (codeOf s b).isSome = true) (hs : s.err = .ok) :
    runOk [.tcSer, .enPayload, .bwFinal] s =
      (putSeq (serTree tr ++ codesOf s (inputBytes s)) s >>= finalBody).toOption := by
  rw [← putSeq_bind hw, bind_assoc]
  refine runOk_cons_toOption ?_ (putSeq_ignoresErr _) (putSeq_raisesOnly _ s) (by decide) hs fun u hput hu => ?_
  · rw [exec, execTcSer, serBody_of_denotes ht]
  · obtain ⟨-, hwu⟩ := putSeq_appended hw hput
    obtain ⟨o, n, x, c, rfl⟩ := putSeq_frame hput
    exact runOk_enPayload hi hwu hcodes hu

/-- `NSYM` has nine bits, and there are 256 symbols. -/
theorem nsym_eq_zero_iff {s : State} (h : s.freqOrder.length ≤ 256) : s.nsym = 0 ↔ s.freqOrder = [] := by
  rw [State.nsym, ← BitVec.toNat_inj, BitVec.toNat_ofNat, Nat.mod_eq_of_lt (by omega), ← List.length_eq_zero_iff]
  rfl

/-- A header on a fresh writer, which has room in every buffer (00_scope.md R6). -/
def withHeader (a : State) : State := (bitsOf a.inLen).foldl putBit1 (emptyWriter a)

theorem withHeader_nsym (a : State) : (withHeader a).nsym = a.nsym := by
  rw [State.nsym, withHeader, foldl_putBit1_freqOrder, emptyWriter_freqOrder, State.nsym]

theorem withHeader_err (a : State) : (withHeader a).err = a.err := by
  rw [withHeader, foldl_putBit1_err]
  rfl

theorem putSeq_header (a : State) : putSeq (bitsOf a.inLen) (emptyWriter a) = .ok (withHeader a) := by
  have hcap := a.cfg.outCap.property
  refine putSeq_of_room ?_
  rw [bitsOf_length]
  change 0 + 32 ≤ 8 * a.cfg.outCap.val
  omega

theorem streamed_header_append (a : State) (r : Bits) :
    streamed (bitsOf a.inLen ++ r) a = putSeq r (withHeader a) >>= finalBody := by
  rw [streamed, ← putSeq_bind (writerOk_emptyWriter a), putSeq_header]
  rfl

/-- The commands up to the header succeed. -/
theorem Compresses.run_header {s a : State} (h : Compresses s a) :
    runOk [.fqCount, .tbBuild, .cgGen, .bwInit, .bwPutu32 s.inLen] s = some (withHeader a) := by
  have herr := h.err_eq
  have hok : (withHeader a).err = .ok := (withHeader_err a).trans herr
  have hinit : exec .bwInit a = .next (emptyWriter a) := congrArg Host.Outcome.next (setErr_of_err_eq herr)
  have hput : exec (.bwPutu32 s.inLen) (emptyWriter a) = .next (withHeader a) := by
    rw [exec, execBwPutu32, appendOperand, putBits, ← h.inLen_eq, putSeq_header, settle_ok, setErr_of_err_eq hok]
  have hrun := runOk_append h.run [.bwInit, .bwPutu32 s.inLen]
  rw [runOk_cons hinit herr, runOk_cons hput hok, runOk] at hrun
  exact hrun

/-- The commands behind the header write the rest of the stream. -/
theorem Compresses.run_rest {s a : State} (h : Compresses s a) :
    runOk ((if (withHeader a).nsym ≠ 0 then [.tcSer, .enPayload] else []) ++ [.bwFinal]) (withHeader a) =
      (streamed (wholeStream a) a).toOption := by
  have hok : (withHeader a).err = .ok := (withHeader_err a).trans h.err_eq
  have hput := putSeq_header a
  obtain ⟨-, hw⟩ := putSeq_appended (writerOk_emptyWriter a) hput
  have hnsym := nsym_eq_zero_iff h.freqOrder_length_le
  rw [← withHeader_nsym] at hnsym
  obtain ⟨o, n, x, c, hframe⟩ := putSeq_frame hput
  by_cases hne : a.freqOrder = []
  · rw [if_neg (not_not.2 (hnsym.2 hne)), List.nil_append, runOk_bwFinal hok, wholeStream_of_empty hne, streamed, hput]
    exact congrArg _ (pure_bind (withHeader a) finalBody).symm
  · obtain ⟨tr, htr, hperm, hcode⟩ := h.analysed.tree hne
    have hi' : InputOk (withHeader a) := by
      rw [hframe, h.analysed.frame]
      exact h.input
    have ht : Denotes (withHeader a) tr := by
      rw [hframe]
      exact htr
    have hbytes : inputBytes (withHeader a) = inputBytes s := by
      rw [hframe]
      exact h.inputBytes_eq
    have hcodes : ∀ b ∈ inputBytes (withHeader a), (codeOf (withHeader a) b).isSome = true := by
      intro b hb
      rw [hframe]
      change (codeOf a b).isSome = true
      rw [hcode, lastPath_isSome, hperm.mem_iff, h.tab.mem]
      rwa [hbytes] at hb
    have hcodesOf : codesOf (withHeader a) (inputBytes (withHeader a)) = codesOf a (inputBytes a) := by
      rw [hframe]
      rfl
    rw [if_pos (hnsym.not.2 hne), List.cons_append, List.cons_append, List.nil_append, runOk_tcSer hi' hw ht hcodes hok,
      wholeStream_of_denotes hne htr, streamBits, List.append_assoc, streamed_header_append, hcodesOf]

/-- Settles O44: both sides write one stream, and succeed when it has room. -/
theorem compressEqualsThePrimitives : Obligations.CompressEqualsThePrimitives := by
  intro s t
  constructor
  · rintro ⟨h, hok⟩
    obtain ⟨a, u, ha, hu, -, rfl⟩ := exists_streamed_of_execCompress h hok
    refine ⟨withHeader a, u, ha.run_header, ?_, rfl⟩
    rw [ha.run_rest, hu]
    rfl
  · rintro ⟨a', u, hrun, hrest, rfl⟩
    obtain ⟨c, hc, -⟩ := exists_next_of_runOk_cons hrun
    have hi := inputOk_of_execFqCount hc
    obtain ⟨a, ha⟩ := exists_compresses hi
    rw [Option.some.inj (hrun.symm.trans ha.run_header), ha.run_rest] at hrest
    cases hu : streamed (wholeStream a) a with
    | error x =>
      rw [hu] at hrest
      cases hrest
    | ok v =>
      rw [hu] at hrest
      obtain rfl := Option.some.inj hrest
      exact ⟨ha.of_streamed hu, ((streamed_ignoresErr _).err_eq hu).trans ha.err_eq⟩

end Sys2Proof.Machine
end

section
/-! SUPPORT. `COMPRESS` depends on the input and the capacities alone (46_compress.md R203): equal input bytes give
equal counts, so equal trees, so equal codes and one stream. -/

namespace Sys2Proof.Machine

/-! ## The analysis -/

theorem foldl_countByte_sameFreq {s s' : State} (h : SameFreq s s') (bs : List Byte) :
    SameFreq (bs.foldl countByte s) (bs.foldl countByte s') := by
  induction bs generalizing s s' with
  | nil => exact h
  | cons b bs ih =>
    obtain ⟨hcount, horder⟩ := h
    have hb : countOf s' b = countOf s b := by rw [countOf, hcount, countOf]
    exact ih ⟨by simp only [countByte, hb, hcount], by simp only [countByte, hb, horder]⟩

theorem countBody_sameFreq {s s' c c' : State} (hbytes : inputBytes s' = inputBytes s) (h : countBody s = .ok c)
    (h' : countBody s' = .ok c') : SameFreq c c' := by
  unfold countBody at h h'
  rw [hbytes] at h'
  split at h <;> cases h
  split at h' <;> cases h'
  exact foldl_countByte_sameFreq (s := { s with freqCount := zeroCounts, freqOrder := [] })
    (s' := { s' with freqCount := zeroCounts, freqOrder := [] }) ⟨rfl, rfl⟩ (inputBytes s)

theorem buildBody_sameTree {c c' b b' : State} (hf : SameFreq c c') (h : buildBody c = .ok b)
    (h' : buildBody c' = .ok b') : SameTree b b' := by
  obtain ⟨hcount, horder⟩ := hf
  have hnodes : seedNodes c' = seedNodes c := by simp only [seedNodes, countOf, hcount, horder]
  have hqueue : seedQueue c' = seedQueue c := by simp only [seedQueue, countOf, hcount, horder]
  unfold buildBody at h h'
  rw [horder, hnodes, hqueue] at h'
  split at h <;> cases h
  split at h' <;> cases h'
  exact ⟨rfl, rfl⟩

theorem genBody_sameCode {b b' a a' : State} (ht : SameTree b b') (h : genBody b = .ok a)
    (h' : genBody b' = .ok a') : a'.code = a.code := by
  obtain ⟨hnodes, hroot⟩ := ht
  unfold genBody at h h'
  rw [hroot] at h'
  cases hr : b.root with
  | none =>
    rw [hr] at h h'
    cases h
    cases h'
    rfl
  | some r =>
    rw [hr] at h h'
    obtain ⟨tr, htr, h⟩ := bind_ok h
    obtain ⟨tr', htr', h'⟩ := bind_ok h'
    rw [treeIn, hnodes] at htr'
    obtain rfl := Except.ok.inj (htr.symm.trans htr')
    cases h
    cases h'
    rfl

theorem SameFreq.congr {s s' t t' : State} (h : SameFreq s s') (ht : SameFreq s t) (ht' : SameFreq s' t') :
    SameFreq t t' :=
  ⟨ht'.1.trans (h.1.trans ht.1.symm), ht'.2.trans (h.2.trans ht.2.symm)⟩

theorem SameTree.congr {s s' t t' : State} (h : SameTree s s') (ht : SameTree s t) (ht' : SameTree s' t') :
    SameTree t t' :=
  ⟨ht'.1.trans (h.1.trans ht.1.symm), ht'.2.trans (h.2.trans ht.2.symm)⟩

/-- Counts, tree and codes are functions of the input bytes. -/
theorem analyseBody_congr {s s' a a' : State} (hbytes : inputBytes s' = inputBytes s) (h : analyseBody s = .ok a)
    (h' : analyseBody s' = .ok a') : SameFreq a a' ∧ SameTree a a' ∧ a'.code = a.code := by
  obtain ⟨c, hc, h⟩ := bind_ok h
  obtain ⟨c', hc', h'⟩ := bind_ok h'
  obtain ⟨b, hb, h⟩ := bind_ok h
  obtain ⟨b', hb', h'⟩ := bind_ok h'
  have hfreq := countBody_sameFreq hbytes hc hc'
  have htree := buildBody_sameTree hfreq hb hb'
  have keepFreq {c b a : State} (hb : buildBody c = .ok b) (ha : genBody b = .ok a) : SameFreq c a :=
    (((buildBody_touches hb).mono (qs := [.tree, .code]) (by decide)).trans
      ((genBody_touches ha).mono (by decide))).freq (by decide)
  have keepTree {b a : State} (ha : genBody b = .ok a) : SameTree b a := (genBody_touches ha).tree (by decide)
  exact ⟨hfreq.congr (keepFreq hb h) (keepFreq hb' h'), htree.congr (keepTree h) (keepTree h'),
    genBody_sameCode htree h h'⟩

/-! ## The stream -/

theorem wholeStream_congr {a a' : State} (hlen : a'.inLen = a.inLen) (hbytes : inputBytes a' = inputBytes a)
    (hfreq : SameFreq a a') (htree : SameTree a a') (hcode : a'.code = a.code) : wholeStream a' = wholeStream a := by
  have hser : serBits a' = serBits a := by simp only [serBits, treeIn, htree.1, htree.2]
  have hbits : codeBits a' = codeBits a := by
    funext b
    rw [codeBits, codeOf, hcode, codeBits, codeOf]
  rw [wholeStream, wholeStream, hlen, hbytes, hfreq.2, hser, codesOf, codesOf, hbits]

/-- One stream written from two states gives the same bytes. -/
theorem Streamed.read_congr {q : Bits} {s s' t t' : State} (h : Streamed q s t) (h' : Streamed q s' t') {i : Nat}
    (hi : i < t.outLen.toNat) : t'.obuf.read i = t.obuf.read i := by
  have hi' : i < t'.outLen.toNat := by rwa [h'.len, ← h.len]
  obtain ⟨v, hv⟩ := Option.isSome_iff_exists.1 (h.bytes i hi)
  obtain ⟨w, hw⟩ := Option.isSome_iff_exists.1 (h'.bytes i hi')
  have hbyte := (writtenBits_byte hi').trans (by rw [h'.bits, ← h.bits, ← writtenBits_byte hi])
  rw [hv, hw, Option.getD_some, Option.getD_some] at hbyte
  rw [hv, hw, bitsOf_inj hbyte]

theorem inputBytes_congr {s s' : State} (hlen : s'.inLen = s.inLen)
    (h : ∀ i, i < s.inLen.toNat → inByte s' i = inByte s i) : inputBytes s' = inputBytes s := by
  rw [inputBytes, inputBytes, hlen]
  exact List.map_congr_left fun i hi => h i (List.mem_range.1 hi)

/-- Settles O43: from equal input bytes the two commands write one stream, or both have no room for it. -/
theorem compressIsDeterministic : Obligations.CompressIsDeterministic := by
  intro s s' t t' hcfg hlen hin h h'
  have hbytes := inputBytes_congr hlen hin
  obtain ⟨a, ha⟩ := exists_compresses (inputOk_of_execCompress h)
  obtain ⟨a', ha'⟩ := exists_compresses (inputOk_of_execCompress h')
  obtain ⟨hfreq, htree, hcode⟩ :=
    analyseBody_congr (s := setErr .ok s) (s' := setErr .ok s') hbytes ha.body ha'.body
  have hq : wholeStream a' = wholeStream a :=
    wholeStream_congr (by rw [ha.inLen_eq, ha'.inLen_eq, hlen]) (by rw [ha.inputBytes_eq, ha'.inputBytes_eq, hbytes])
      hfreq htree hcode
  have hcap : writeCap a' = writeCap a := by rw [ha.writeCap_eq, ha'.writeCap_eq, hcfg]
  rcases Nat.lt_or_ge (writeCap a) (wholeStream a).length with hfull | room
  · obtain rfl := Host.Outcome.next.inj (h.symm.trans (ha.of_no_room hfull))
    obtain rfl := Host.Outcome.next.inj (h'.symm.trans (ha'.of_no_room (by rwa [hcap, hq])))
    exact ⟨rfl, rfl, hcode, fun i hi => absurd hi (Nat.not_lt_zero i)⟩
  · obtain ⟨u, hst, hexec⟩ := ha.of_room room
    obtain ⟨u', hst', hexec'⟩ := ha'.of_room (by rwa [hcap, hq])
    obtain rfl := Host.Outcome.next.inj (h.symm.trans hexec)
    obtain rfl := Host.Outcome.next.inj (h'.symm.trans hexec')
    rw [hq] at hst'
    have herr : u'.err = u.err := by rw [hst.err_eq, hst'.err_eq, ha.err_eq, ha'.err_eq]
    have hcode' : u'.code = u.code := by rw [hst.code_eq, hst'.code_eq, hcode]
    exact ⟨herr, BitVec.eq_of_toNat_eq (hst'.len.trans hst.len.symm), hcode', fun i hi => hst.read_congr hst' hi⟩

end Sys2Proof.Machine
end

section
/-! SUPPORT. `DECOMPRESS` of a stream (47_decompress.md R215), and that it gives back what `COMPRESS` was given
(47_decompress.md R220, 46_compress.md R205). -/

namespace Sys2Proof.Machine

/-! ## `DECOMPRESS` of a stream -/

theorem BitsAt.left {u : State} {p : Nat} {q r : Bits} (h : BitsAt u p (q ++ r)) : BitsAt u p q := by
  obtain ⟨hroom, hbits⟩ := h
  rw [List.length_append] at hroom hbits
  rw [inBits_append] at hbits
  exact ⟨by omega, List.append_inj_left hbits (inBits_length ..)⟩

/-- The state in which `DECOMPRESS` begins to read: no tree, a fresh writer, `RPOS` at the start. -/
def atHeader (u : State) : State := { emptyWriter (discardTree u) with rpos := 0 }

/-- The state of `DECOMPRESS` behind the header. -/
def behindHeader (u : State) : State := advance 32 (atHeader u)

/-- The header is read off, and a count of 0 ends the command (47_decompress.md R216). -/
theorem decompressBody_of_header {u : State} {n : Word32} {r : Bits} (hi : InputOk u)
    (h : BitsAt u 0 (bitsOf n ++ r)) :
    decompressBody (emptyWriter (discardTree u)) =
        (if n = 0 then .ok (behindHeader u) else expandBody n (behindHeader u)) ∧
      BitsAt (behindHeader u) (behindHeader u).rpos.toNat r := by
  have hread : readBits 32 (atHeader u) = .ok (n, behindHeader u) := readBits_value hi h
  have hrest := bitsAt_advance (s := atHeader u) hi h
  have hlen := h.1
  rw [List.length_append, bitsOf_length] at hlen
  rw [bitsOf_length] at hrest
  refine ⟨?_, hrest⟩
  change (if u.inLen.toNat < 4 then _ else readBits 32 (atHeader u) >>= _) = _
  rw [if_neg (by omega), hread]
  rfl

/-- A stream of no symbols (46_compress.md R202, 47_decompress.md R216). -/
theorem execDecompress_of_zero {u : State} {r : Bits} (hi : InputOk u) (h : BitsAt u 0 (bitsOf (0 : Word32) ++ r)) :
    exec .decompress u = .next (setErr .ok (behindHeader u)) := by
  rw [exec, execDecompress, (decompressBody_of_header hi h).1, if_pos rfl, settle_ok]

theorem rebuilt_touches (s : State) (tr : Tree) : Touches [.tree, .rpos] s (rebuilt s tr) := by
  have hroot (u : State) (r : Option NodeIx) : Touches [.tree, .rpos] u { u with root := r } := by
    constructor <;> simp [SameInput, SameOwn, SameFreq, SameWriter]
  exact (((discardTree_touches s).mono (by decide)).trans (parsed_touches _ tr)).trans (hroot _ _)

theorem inputOk_rebuilt {s : State} (tr : Tree) (h : InputOk s) : InputOk (rebuilt s tr) := by
  have ht := rebuilt_touches s tr
  rwa [InputOk, ht.input.2, ht.own.1]

/-- The root is no part of the input. -/
theorem bitsAt_withRoot {s : State} {q : Bits} (r : Option NodeIx) (h : BitsAt s s.rpos.toNat q) :
    BitsAt { s with root := r } s.rpos.toNat q := h

/-- What stands behind the tree is read next. -/
theorem bitsAt_rebuilt {s : State} {tr : Tree} {rest : Bits} (hi : InputOk s)
    (h : BitsAt s s.rpos.toNat (serTree tr ++ rest)) : BitsAt (rebuilt s tr) (rebuilt s tr).rpos.toNat rest :=
  bitsAt_withRoot (some 0) (bitsAt_parsed (s := discardTree s) hi h)

/-- Building the tree leaves the fresh writer alone. -/
theorem rebuilt_behindHeader_writer (u : State) (tr : Tree) :
    WriterOk (rebuilt (behindHeader u) tr) ∧ writePos (rebuilt (behindHeader u) tr) = 0 ∧
      (rebuilt (behindHeader u) tr).cfg = u.cfg := by
  have ht := rebuilt_touches (behindHeader u) tr
  have hw := ht.writer (by decide)
  have ⟨_, hlen, hcnt, _⟩ := hw
  refine ⟨(writerOk_emptyWriter u).of_same hw ht.own.1, ?_, ht.own.1⟩
  rw [writePos, hlen, hcnt]
  rfl

/-- The state of `DECOMPRESS` behind a tree and the paths of some of its leaves: the tree is built and the leaves'
symbols are written. -/
def expanded (u : State) (tr : Tree) (ps : List (Byte × Bits)) : State :=
  (symbolBits ps).foldl putBit1 (advance (ps.flatMap Prod.snd).length (rebuilt (behindHeader u) tr))

/-- Tree and payload of a stream (47_decompress.md R215 steps 2 to 4). -/
theorem expandBody_of_stream {u : State} {tr : Tree} {ps : List (Byte × Bits)} {n : Word32} (hi : InputOk u)
    (hsize : Tree.size tr ≤ 511) (hlevels : Tree.levels tr ≤ 256) (hn : n.toNat = ps.length)
    (hps : ∀ p ∈ ps, p ∈ Tree.paths tr) (room : ps.length ≤ u.cfg.outCap.val)
    (h : BitsAt (behindHeader u) (behindHeader u).rpos.toNat (serTree tr ++ ps.flatMap Prod.snd)) :
    expandBody n (behindHeader u) = .ok (discardTree (expanded u tr ps)) := by
  have hi' : InputOk (behindHeader u) := hi
  have hparse : parse Config.maxDepth (behindHeader u) = .ok (some 0, parsed (behindHeader u) tr) :=
    parse_tree hi' h hlevels (show 0 + Tree.size tr ≤ 511 by omega)
  obtain ⟨r, hr, hin⟩ := (rebuilt_denotes (s := behindHeader u) hsize).treeIn
  obtain rfl : 0 = r := Option.some.inj hr
  have htree : treeIn (parsed (behindHeader u) tr) 0 = .ok tr := hin
  have hbits : BitsAt (rebuilt (behindHeader u) tr) (rebuilt (behindHeader u) tr).rpos.toNat
      (ps.flatMap Prod.snd ++ []) := by
    rw [List.append_nil]
    exact bitsAt_rebuilt hi' h
  obtain ⟨hw, hpos, hcfg⟩ := rebuilt_behindHeader_writer u tr
  have hdec : decodeSymbols tr n.toNat (rebuilt (behindHeader u) tr) = .ok (expanded u tr ps) := by
    rw [hn]
    exact decodeSymbols_paths (inputOk_rebuilt tr hi') hw hps (by rw [hpos, writeCap, hcfg]; omega) (.inr hbits)
  have hcap : ¬u.cfg.outCap.val < n.toNat := by omega
  rw [expandBody, hparse]
  change (if u.cfg.outCap.val < n.toNat then _ else treeIn (parsed (behindHeader u) tr) 0 >>= _) = _
  rw [if_neg hcap, htree]
  change decodeSymbols tr n.toNat (rebuilt (behindHeader u) tr) >>= _ = _
  rw [hdec]
  rfl

/-- `DECOMPRESS` of a header, a tree and the paths of as many of its leaves as the header says, whatever follows
(47_decompress.md R215). -/
theorem execDecompress_of_stream {u : State} {tr : Tree} {ps : List (Byte × Bits)} {n : Word32} (hi : InputOk u)
    (hsize : Tree.size tr ≤ 511) (hlevels : Tree.levels tr ≤ 256) (hn : n.toNat = ps.length) (hne : ps ≠ [])
    (hps : ∀ p ∈ ps, p ∈ Tree.paths tr) (room : ps.length ≤ u.cfg.outCap.val)
    (h : BitsAt u 0 (bitsOf n ++ (serTree tr ++ ps.flatMap Prod.snd))) :
    exec .decompress u = .next (setErr .ok (discardTree (expanded u tr ps))) := by
  obtain ⟨hbody, hrest⟩ := decompressBody_of_header hi h
  have hn0 : n ≠ 0 := by
    rintro rfl
    exact hne (List.length_eq_zero_iff.1 hn.symm)
  rw [exec, execDecompress, hbody, if_neg hn0, expandBody_of_stream hi hsize hlevels hn hps room hrest, settle_ok]

/-- What stands in the output then: the leaves' symbols, as bytes. -/
theorem expanded_output {u : State} (tr : Tree) {ps : List (Byte × Bits)} (room : ps.length ≤ u.cfg.outCap.val) :
    (expanded u tr ps).outLen.toNat = ps.length ∧
      ∀ i p, ps[i]? = some p → (expanded u tr ps).obuf.read i = some p.1 := by
  obtain ⟨hw, hpos, hcfg⟩ := rebuilt_behindHeader_writer u tr
  obtain ⟨hlen, -, -, hread, -⟩ := foldl_putBit1_symbolBits (ps := ps)
    (s := advance (ps.flatMap Prod.snd).length (rebuilt (behindHeader u) tr)) (writerOk_advance hw) hpos
    (by rwa [advance_cfg, hcfg]) rfl
  exact ⟨hlen, hread⟩

/-! ## The round trip -/

/-- The output of `COMPRESS` stands in the input of `u` when it is presented there. -/
theorem Streamed.bitsAt {q : Bits} {s t u : State} (h : Streamed q s t) (hp : Presented t u) : BitsAt u 0 q :=
  (hp.bitsAt h.wcnt_eq h.bits).left

/-- The codes of the input's bytes are paths of the tree that the input gave. -/
theorem Compresses.codedSymbols_mem_paths {s a : State} {tr : Tree} (h : Compresses s a)
    (hperm : (Tree.symbols tr).Perm a.freqOrder) (hcode : ∀ b, codeOf a b = lastPath tr b) :
    ∀ p ∈ codedSymbols a (inputBytes s), p ∈ Tree.paths tr :=
  Machine.codedSymbols_mem_paths hcode fun _ hb => hperm.mem_iff.2 ((h.tab.mem _).2 hb)

/-- The tree of an input is within the two bounds of the parser (44_tree_codec.md R171, R174). -/
theorem Compresses.tree_bounds {s a : State} {tr : Tree} (h : Compresses s a)
    (hperm : (Tree.symbols tr).Perm a.freqOrder) : Tree.size tr ≤ 511 ∧ Tree.levels tr ≤ 256 := by
  have hleaves := (Tree.symbols_length tr).symm.trans hperm.length_eq
  have hle := h.freqOrder_length_le
  have hsize := Tree.size_add_one tr
  have hlevels := Tree.levels_le_leaves tr
  omega

theorem inputBytes_getElem? {s : State} {i : Nat} (hi : i < s.inLen.toNat) :
    (inputBytes s)[i]? = some (inByte s i) := by
  rw [inputBytes, List.getElem?_map, List.getElem?_range hi, Option.map_some]

/-- Settles O50: the codes of the input are paths of its tree, and `DECOMPRESS` of a header, a tree and paths gives the
leaves' symbols. -/
theorem roundTrip : Obligations.RoundTrip := by
  intro s t u h hok hp hi room
  obtain ⟨a, w, ha, -, hst, rfl⟩ := exists_streamed_of_execCompress h hok
  have hbits : BitsAt u 0 (wholeStream a) := hst.bitsAt hp
  by_cases hne : s.inLen = 0
  · rw [ha.wholeStream_of_inLen_zero hne] at hbits
    refine ⟨_, execDecompress_of_zero (r := []) hi (by rwa [List.append_nil]), rfl, hne.symm, fun i hlt => ?_⟩
    rw [hne] at hlt
    exact absurd hlt (Nat.not_lt_zero i)
  · obtain ⟨tr, -, hperm, hcode, hq⟩ := ha.exists_tree hne
    obtain ⟨hsize, hlevels⟩ := ha.tree_bounds hperm
    have hlen : (codedSymbols a (inputBytes s)).length = s.inLen.toNat := by
      rw [codedSymbols_length, inputBytes_length]
    rw [hq, List.append_assoc, ← codedSymbols_flatMap] at hbits
    rw [← hlen] at room
    obtain ⟨hout, hread⟩ := expanded_output tr room
    have hsome : codedSymbols a (inputBytes s) ≠ [] := by
      rw [← List.length_pos_iff, hlen]
      exact Nat.pos_of_ne_zero fun e => hne (BitVec.eq_of_toNat_eq e)
    have hpaths := ha.codedSymbols_mem_paths hperm hcode
    refine ⟨_, execDecompress_of_stream hi hsize hlevels hlen.symm hsome hpaths room hbits, rfl,
      BitVec.eq_of_toNat_eq (hout.trans hlen), fun i hlt => ?_⟩
    exact hread i _ (codedSymbols_getElem? (inputBytes_getElem? hlt))

/-! ## One repeated byte value -/

theorem inputBytes_eq_replicate {s : State} {v : Byte} (h : ∀ i, i < s.inLen.toNat → inByte s i = v) :
    inputBytes s = List.replicate s.inLen.toNat v := by
  refine List.eq_replicate_iff.2 ⟨inputBytes_length s, fun b hb => ?_⟩
  obtain ⟨i, hi, rfl⟩ := List.mem_map.1 hb
  exact h i (List.mem_range.1 hi)

theorem Tabulates.freqOrder_of_replicate {u : State} {v : Byte} {n : Nat} (h : Tabulates u (List.replicate n v))
    (hn : n ≠ 0) : u.freqOrder = [v] := by
  have hperm : u.freqOrder.Perm [v] := (List.perm_ext_iff_of_nodup h.nodup (List.nodup_singleton v)).2 fun b => by
    rw [h.mem, List.mem_replicate, List.mem_singleton]
    exact and_iff_right hn
  exact List.perm_singleton.1 hperm

theorem Tree.eq_leaf_of_symbols {tr : Tree} {v : Byte} (h : Tree.symbols tr = [v]) : tr = .leaf v := by
  cases tr with
  | leaf b => exact congrArg Tree.leaf (List.singleton_inj.1 h)
  | node l r =>
    have hlen := congrArg List.length h
    rw [Tree.symbols_length, Tree.leaves, List.length_singleton] at hlen
    have hl := (Tree.levels_pos l).trans (Tree.levels_le_leaves l)
    have hr := (Tree.levels_pos r).trans (Tree.levels_le_leaves r)
    omega

theorem lastPath_leaf (v b : Byte) : lastPath (.leaf v) b = if b = v then some [] else none := by
  split
  · next h =>
    subst h
    exact lastPath_of_nodup (t := .leaf b) (List.nodup_singleton b) (List.mem_singleton_self _)
  · next h => exact lastPath_eq_none.2 fun hb => h (List.mem_singleton.1 hb)

/-- The ten bits of a tree that is one leaf, with the padding of its stream, are two bytes (46_compress.md R205). -/
theorem serTree_leaf_padded (v : Byte) :
    serTree (.leaf v) ++ padding 42 = bitsOf (0xC0#8 ||| (v >>> 2)) ++ bitsOf (v <<< 6) := by
  simp [serTree, padding, bitsOf, List.range_succ]

/-- The stream of one repeated byte value: its tree is one leaf, with the empty code (46_compress.md R205). -/
theorem Compresses.of_replicate {s a : State} {v : Byte} (h : Compresses s a) (hne : s.inLen ≠ 0)
    (hv : ∀ i, i < s.inLen.toNat → inByte s i = v) :
    a.freqOrder = [v] ∧ (∀ b, codeOf a b = if b = v then some [] else none) ∧
      wholeStream a = bitsOf s.inLen ++ serTree (.leaf v) := by
  have hbytes := inputBytes_eq_replicate hv
  have htab : Tabulates a (List.replicate s.inLen.toNat v) := hbytes ▸ h.tab
  have horder := htab.freqOrder_of_replicate fun e => hne (BitVec.eq_of_toNat_eq e)
  obtain ⟨tr, -, hperm, hcode, hq⟩ := h.exists_tree hne
  rw [horder] at hperm
  obtain rfl := Tree.eq_leaf_of_symbols (List.perm_singleton.1 hperm)
  have hcode' (b : Byte) : codeOf a b = if b = v then some [] else none := (hcode b).trans (lastPath_leaf v b)
  have hcodes : codesOf a (inputBytes s) = [] := by
    rw [hbytes, codesOf, List.flatMap_replicate, codeBits_of_some ((hcode' v).trans (if_pos rfl))]
    simp
  rw [hcodes, List.append_nil] at hq
  exact ⟨horder, hcode', hq⟩

/-- Settles O42: the stream has 42 bits whatever the length, and the way back is the round trip. -/
theorem compressDegenerateInput : Obligations.CompressDegenerateInput := by
  intro s v hi hne hv hcap
  obtain ⟨a, ha⟩ := exists_compresses hi
  obtain ⟨horder, hcode, hq⟩ := ha.of_replicate hne hv
  have hlen : (wholeStream a).length = 42 := by
    rw [hq, List.length_append, bitsOf_length]
    rfl
  obtain ⟨u, hst, hexec⟩ := ha.of_room (by rw [hlen, ha.writeCap_eq]; omega)
  have hok : (discardTree u).err = .ok := hst.err_eq.trans ha.err_eq
  have hcodeOf (b : Byte) : codeOf (discardTree u) b = if b = v then some [] else none :=
    (hst.codeOf_eq b).trans (hcode b)
  have hout : wholeStream a ++ padding (wholeStream a).length =
      bitsOf s.inLen ++ (bitsOf (0xC0#8 ||| (v >>> 2)) ++ bitsOf (v <<< 6)) := by
    rw [hlen, hq, List.append_assoc, serTree_leaf_padded]
  have hheader {i : Nat} := hst.header hq (i := i)
  refine ⟨discardTree u, hexec, hok, BitVec.eq_of_toNat_eq (hst.len.trans (by rw [hlen]; rfl)),
    hst.freqOrder_eq.trans horder, (hcodeOf v).trans (if_pos rfl), fun b hb => (hcodeOf b).trans (if_neg hb),
    hheader (by decide), hheader (by decide), hheader (by decide), hheader (by decide), ?_, ?_,
    fun w hp hiw room => ?_⟩
  · exact hst.read_eq hout (by simp)
  · refine hst.read_eq (p := bitsOf s.inLen ++ bitsOf (0xC0#8 ||| (v >>> 2))) (r := []) ?_ (by simp)
    rw [hout, List.append_nil, List.append_assoc]
  · obtain ⟨x, hx, hxok, hxlen, hxread⟩ := roundTrip s _ w hexec hok hp hiw room
    exact ⟨x, hx, hxok, hxlen, fun i hlt => (hxread i hlt).trans (congrArg some (hv i hlt))⟩

end Sys2Proof.Machine
end

section
/-! SUPPORT. Two runs side by side. `Agree R x y` says of two computations that they end alike: both with a result, in
the relation `R`, or both with one and the same exception. The parser keeps a relation of states that `Tracks`, and the
decoder one that is `TracksWriter` too; so a command that reads a tree or decodes with it takes related states to
related states. -/

namespace Sys2Proof.Machine

/-! ## Computations that end alike -/

/-- Both computations succeed, with related results, or both end with the same exception. -/
inductive Agree {α β : Type} (R : α → β → Prop) : Except Exn α → Except Exn β → Prop
  | ok {a : α} {b : β} (h : R a b) : Agree R (.ok a) (.ok b)
  | error (x : Exn) : Agree R (.error x) (.error x)

theorem Agree.bind {α β γ δ : Type} {R : α → β → Prop} {Q : γ → δ → Prop} {x : Except Exn α} {y : Except Exn β}
    {f : α → Except Exn γ} {g : β → Except Exn δ} (h : Agree R x y) (hf : ∀ a b, R a b → Agree Q (f a) (g b)) :
    Agree Q (x >>= f) (y >>= g) := by
  cases h with
  | ok hab => exact hf _ _ hab
  | error x => exact .error x

theorem Agree.ite {α β : Type} {R : α → β → Prop} {c d : Prop} [Decidable c] [Decidable d] {x x' : Except Exn α}
    {y y' : Except Exn β} (hc : c ↔ d) (h : Agree R x y) (h' : Agree R x' y') :
    Agree R (if c then x else x') (if d then y else y') := by
  by_cases hd : d
  · rwa [if_pos (hc.2 hd), if_pos hd]
  · rwa [if_neg (fun h => hd (hc.1 h)), if_neg hd]

theorem Agree.map {α β γ δ : Type} {R : α → β → Prop} {Q : γ → δ → Prop} {x : Except Exn α} {y : Except Exn β}
    {f : α → γ} {g : β → δ} (h : Agree R x y) (hf : ∀ a b, R a b → Q (f a) (g b)) : Agree Q (x.map f) (y.map g) := by
  cases h with
  | ok hab => exact .ok (hf _ _ hab)
  | error x => exact .error x

theorem Agree.eq_error {α β : Type} {R : α → β → Prop} {x : Except Exn α} {y : Except Exn β} {e : Exn}
    (h : Agree R x y) (hy : y = .error e) : x = .error e := by
  subst hy
  cases h
  rfl

/-- Equal values, delivered with related states. -/
def WithState {α : Type} (R : State → State → Prop) (a b : α × State) : Prop := a.1 = b.1 ∧ R a.2 b.2

/-- To agree in the graph of a function is to be its image. -/
theorem Agree.eq_map {α : Type} {f : State → State} {x y : Except Exn (α × State)}
    (h : Agree (WithState fun s s' => s' = f s) x y) : y = x.map (Prod.map id f) := by
  cases h with
  | ok hab => exact congrArg Except.ok (Prod.ext hab.1.symm hab.2)
  | error x => rfl

/-! ## Relations that a computation keeps -/

/-- Related states have the same capacities and the same tree, read the same bits to the same effect, and stay related
when both get a new arena. -/
structure Tracks (R : State → State → Prop) : Prop where
  cfg : ∀ {s s'}, R s s' → s'.cfg = s.cfg
  tree : ∀ {s s'}, R s s' → SameTree s s'
  arena : ∀ {s s'} (ns r), R s s' → R (withArena ns r s) (withArena ns r s')
  read : ∀ {s s'} (n), R s s' → Agree (WithState R) (readBits n s) (readBits n s')

/-- Related states also write at the same position, to the same effect. -/
structure TracksWriter (R : State → State → Prop) : Prop extends Tracks R where
  pos : ∀ {s s'}, R s s' → writePos s' = writePos s
  put : ∀ {s s'} (b), R s s' → R (putBit1 s b) (putBit1 s' b)
  fresh : ∀ {s s'}, R s s' → R (emptyWriter s) (emptyWriter s')

section

variable {R : State → State → Prop} {s s' : State}

theorem Tracks.treeIn_eq (hR : Tracks R) (h : R s s') (i : NodeIx) : treeIn s' i = treeIn s i := by
  rw [treeIn, (hR.tree h).1, treeIn]

theorem Tracks.withRoot (hR : Tracks R) (h : R s s') (r : Option NodeIx) :
    R { s with root := r } { s' with root := r } := by
  have hr := hR.arena s.nodes r h
  have hs' : { s' with root := r } = withArena s.nodes r s' := by rw [withArena, ← (hR.tree h).1]
  rwa [hs']

theorem Tracks.setNode (hR : Tracks R) (h : R s s') (i : NodeIx) (n : Node) : R (setNode i n s) (setNode i n s') := by
  obtain ⟨hnodes, hroot⟩ := hR.tree h
  have hr := hR.arena (s.nodes.set i.toNat n) s.root h
  have hs' : Machine.setNode i n s' = withArena (s.nodes.set i.toNat n) s.root s' := by
    rw [Machine.setNode, withArena, hnodes, ← hroot]
  rwa [hs']

theorem Tracks.allocNode (hR : Tracks R) (h : R s s') (n : Node) :
    Agree (WithState R) (allocNode n s) (allocNode n s') := by
  obtain ⟨hnodes, hroot⟩ := hR.tree h
  have hr := hR.arena (s.nodes ++ [n]) s.root h
  have hs' : { s' with nodes := s'.nodes ++ [n] } = withArena (s.nodes ++ [n]) s.root s' := by
    rw [withArena, hnodes, ← hroot]
  unfold Machine.allocNode
  rw [hs', hnodes]
  exact .ite Iff.rfl (.ok ⟨rfl, hr⟩) (.error _)

theorem Tracks.parse (hR : Tracks R) (levels : Nat) (h : R s s') :
    Agree (WithState R) (parse levels s) (parse levels s') := by
  induction levels generalizing s s' with
  | zero => exact .error _
  | succ levels ih =>
    refine (hR.read 1 h).bind fun ⟨e, s⟩ ⟨e', s'⟩ ⟨he, h⟩ => ?_
    obtain rfl : e = e' := he
    refine .ite Iff.rfl (.ok ⟨rfl, h⟩) ((hR.read 1 h).bind fun ⟨k, s⟩ ⟨k', s'⟩ ⟨hk, h⟩ => ?_)
    obtain rfl : k = k' := hk
    refine .ite Iff.rfl ?_ ?_
    · refine (hR.read 8 h).bind fun ⟨b, s⟩ ⟨b', s'⟩ ⟨hb, h⟩ => ?_
      obtain rfl : b = b' := hb
      exact (hR.allocNode h _).bind fun _ _ ⟨hi, h⟩ => .ok ⟨congrArg some hi, h⟩
    · refine (hR.allocNode h _).bind fun ⟨i, s⟩ ⟨i', s'⟩ ⟨hi, h⟩ => ?_
      obtain rfl : i = i' := hi
      refine (ih h).bind fun ⟨l, s⟩ ⟨l', s'⟩ ⟨hl, h⟩ => ?_
      obtain rfl : l = l' := hl
      cases l with
      | none => exact .error _
      | some l =>
        refine (ih h).bind fun ⟨r, s⟩ ⟨r', s'⟩ ⟨hr, h⟩ => ?_
        obtain rfl : r = r' := hr
        cases r with
        | none => exact .error _
        | some r => exact .ok ⟨rfl, hR.setNode h _ _⟩

theorem Tracks.desBody (hR : Tracks R) (h : R s s') : Agree R (desBody s) (desBody s') := by
  refine (hR.parse Config.maxDepth h).bind fun ⟨r, s⟩ ⟨r', s'⟩ ⟨hr, h⟩ => ?_
  obtain rfl : r = r' := hr
  exact .ok (hR.withRoot h r)

theorem Tracks.descend (hR : Tracks R) (tr : Tree) (h : R s s') :
    Agree (WithState R) (descend tr s) (descend tr s') := by
  induction tr generalizing s s' with
  | leaf b => exact .ok ⟨rfl, h⟩
  | node l r ihl ihr =>
    refine (hR.read 1 h).bind fun ⟨b, s⟩ ⟨b', s'⟩ ⟨hb, h⟩ => ?_
    obtain rfl : b = b' := hb
    exact .ite Iff.rfl (ihl h) (ihr h)

theorem TracksWriter.foldl_putBit1 (hR : TracksWriter R) (q : Bits) (h : R s s') :
    R (q.foldl putBit1 s) (q.foldl putBit1 s') := by
  induction q generalizing s s' with
  | nil => exact h
  | cons b q ih => exact ih (hR.put b h)

theorem TracksWriter.putSeq (hR : TracksWriter R) (q : Bits) (h : R s s') :
    Agree R (putSeq q s) (putSeq q s') := by
  refine .ite ?_ (.error _) (.ok (hR.foldl_putBit1 q h))
  rw [hR.pos h, writeCap, writeCap, hR.cfg h]

theorem TracksWriter.decodeSymbols (hR : TracksWriter R) (tr : Tree) (n : Nat) (h : R s s') :
    Agree R (decodeSymbols tr n s) (decodeSymbols tr n s') := by
  induction n generalizing s s' with
  | zero => exact .ok h
  | succ n ih =>
    refine (hR.descend tr h).bind fun ⟨b, s⟩ ⟨b', s'⟩ ⟨hb, h⟩ => ?_
    obtain rfl : b = b' := hb
    exact (hR.putSeq _ h).bind fun _ _ => ih

theorem TracksWriter.decodeCount (hR : TracksWriter R) (n : Word32) (h : R s s') :
    Agree R (decodeCount n s) (decodeCount n s') := by
  refine .ite Iff.rfl (.ok h) ?_
  rw [(hR.tree h).2]
  cases s.root with
  | none => exact .error _
  | some r =>
    dsimp only
    rw [hR.treeIn_eq h]
    cases treeIn s r with
    | error x => exact .error x
    | ok tr => exact hR.decodeSymbols tr n.toNat h

theorem TracksWriter.dePayloadBody (hR : TracksWriter R) (n : Word32) (h : R s s') :
    Agree R (dePayloadBody n s) (dePayloadBody n s') := by
  refine .ite ?_ (.error _) (.ite ?_ (.error _) (hR.decodeCount n (hR.fresh h)))
  · rw [(hR.tree h).2]
  · rw [hR.cfg h]

end

/-! ## States that differ in `ERR` and `RESULT` -/

/-- The states differ in `ERR` and `RESULT` at most. -/
def SameButReport (s s' : State) : Prop := s' = { s with err := s'.err, result := s'.result }

theorem sameButReport_tracksWriter : TracksWriter SameButReport where
  cfg h := by rw [h]
  tree h := by
    rw [h]
    exact ⟨rfl, rfl⟩
  arena ns r h := congrArg (withArena ns r) h
  read n h := by
    rw [h]
    exact .ite Iff.rfl (.error _) (.ite Iff.rfl (.error _) (.ok ⟨rfl, rfl⟩))
  pos h := by
    rw [h]
    rfl
  put {s s'} b h := by
    have he : (putBit1 s' b).err = s'.err := foldl_putBit1_err [b] s'
    have hr : (putBit1 s' b).result = s'.result := foldl_putBit1_result [b] s'
    rw [SameButReport, he, hr]
    conv_lhs => rw [h]
    rcases putBit1_cases s b with ⟨hc, hs⟩ | ⟨hc, hs⟩
    · rw [hs]
      exact if_pos hc
    · rw [hs]
      exact if_neg hc
  fresh h := congrArg emptyWriter h

theorem SameButReport.setErr {s s' : State} (h : SameButReport s s') (e : ErrCode) : SameButReport s (setErr e s') := by
  rw [h]
  rfl

end Sys2Proof.Machine
end

section
/-! SUPPORT. `DECOMPRESS` (47_decompress.md R215 to R219): the header, then what `TC.DES` and `DE.PAYLOAD` do behind it,
so that its errors come in their order and its success is theirs. -/

namespace Sys2Proof.Machine

/-! ## The header -/

/-- The state in which `DECOMPRESS` begins to parse, but for its writer. -/
def behindCount (s : State) : State := discardTree { s with rpos := 32 }

/-- What a failing `DECOMPRESS` leaves (60_exceptions.md R252). -/
def decompressFail (s : State) (e : ErrCode) : State := raiseErr e (emptyWriter (discardTree s))

theorem toNat_ofNat_word {k : Nat} (h : k < 2 ^ 32) : (BitVec.ofNat 32 k).toNat = k := by
  rw [BitVec.toNat_ofNat, Nat.mod_eq_of_lt h]

theorem headerCount_lt (s : State) : headerCount s < 2 ^ 32 := by
  have h := numOf_lt (inBits s 0 32)
  rwa [inBits_length, ← headerCount_eq] at h

/-- The header has room in every buffer (00_scope.md R6), so its count is read whatever `IN_LEN` is. -/
theorem readBits_header {s : State} {n : Word32} (h0 : s.rpos = 0) (h4 : 4 ≤ s.inLen.toNat)
    (hn : n.toNat = headerCount s) : readBits 32 s = .ok (n, advance 32 s) := by
  have hcap := s.cfg.inCap.property
  have hpos : s.rpos.toNat = 0 := by
    rw [h0]
    rfl
  rw [readBits, hpos, if_neg (by omega), if_neg (by omega), ← headerCount_eq, ← hn, BitVec.ofNat_toNat,
    BitVec.setWidth_eq]

theorem execDecompress_of_short {s : State} (h : s.inLen.toNat < 4) :
    exec .decompress s = .next (decompressFail s .malformedHeader) := by
  have hbody : decompressBody (emptyWriter (discardTree s)) = .error (.raise .malformedHeader) := if_pos h
  rw [exec, execDecompress, hbody]
  rfl

/-- What `DECOMPRESS` does behind its header. -/
theorem decompressBody_of_count {s : State} {n : Word32} (h4 : 4 ≤ s.inLen.toNat) (hn : n.toNat = headerCount s) :
    decompressBody (emptyWriter (discardTree s)) =
      if n = 0 then .ok (behindHeader s) else expandBody n (behindHeader s) := by
  change (if s.inLen.toNat < 4 then _ else readBits 32 (atHeader s) >>= _) = _
  rw [if_neg (by omega), readBits_header (s := atHeader s) rfl h4 hn]
  rfl

/-! ## Tree and payload -/

/-- A fresh writer is nothing to the parser. -/
theorem emptyWriter_tracks : Tracks fun s s' => s' = emptyWriter s where
  cfg h := by
    rw [h]
    rfl
  tree h := by
    rw [h]
    exact ⟨rfl, rfl⟩
  arena ns r h := congrArg (withArena ns r) h
  read n h := by
    rw [h]
    exact .ite Iff.rfl (.error _) (.ite Iff.rfl (.error _) (.ok ⟨rfl, rfl⟩))

/-- Without a tree there is nothing to decode with (45_encoder_decoder_datapath.md R189). -/
theorem dePayloadBody_of_root_none {n : Word32} {s : State} (hn : n ≠ 0) (hr : s.root = none) :
    dePayloadBody n s = .error (.raise .malformedHeader) :=
  if_pos ⟨hn, hr⟩

/-- With a root, the test for room comes first (45_encoder_decoder_datapath.md R189). -/
theorem dePayloadBody_of_root_some {n : Word32} {s : State} {i : NodeIx} (hn : n ≠ 0) (hr : s.root = some i) :
    dePayloadBody n s =
      if s.cfg.outCap.val < n.toNat then .error (.raise .capacityExceeded)
      else treeIn s i >>= fun tr => decodeSymbols tr n.toNat (emptyWriter s) := by
  rw [dePayloadBody, if_neg (by simp [hr]), decodeCount, if_neg hn, emptyWriter_root, hr]
  rfl

/-- Tree and payload of a stream are what `TC.DES` and `DE.PAYLOAD` make of it, with the tree discarded
(47_decompress.md R217). -/
theorem expandBody_eq {n : Word32} (hn : n ≠ 0) (s : State) :
    expandBody n (emptyWriter s) = (desBody s >>= dePayloadBody n).map discardTree := by
  have hbind (x : Except Exn State) : (x >>= fun u => .ok (discardTree u)) = x.map discardTree := by cases x <;> rfl
  rw [expandBody, (emptyWriter_tracks.parse Config.maxDepth (s := s) rfl).eq_map, desBody]
  rcases parse Config.maxDepth s with x | ⟨_ | i, u⟩
  · rfl
  · exact congrArg (Except.map discardTree) (dePayloadBody_of_root_none (s := { u with root := none }) hn rfl).symm
  · have hpay := congrArg (Except.map discardTree)
      (dePayloadBody_of_root_some (s := { u with root := some i }) hn rfl)
    rw [apply_ite (Except.map discardTree)] at hpay
    refine Eq.trans (if_congr Iff.rfl rfl ?_) hpay.symm
    change (treeIn u i >>= fun tr => decodeSymbols tr n.toNat (emptyWriter { u with root := some i }) >>= _) =
      (treeIn u i >>= _).map discardTree
    cases treeIn u i with
    | error x => rfl
    | ok tr => exact hbind _

/-- Behind a header with a nonzero count, `DECOMPRESS` is what `TC.DES` and `DE.PAYLOAD` do there. -/
theorem decompressBody_eq {s : State} {n : Word32} (h4 : 4 ≤ s.inLen.toNat) (hn : n.toNat = headerCount s)
    (hn0 : n ≠ 0) :
    decompressBody (emptyWriter (discardTree s)) = (desBody (behindCount s) >>= dePayloadBody n).map discardTree := by
  rw [decompressBody_of_count h4 hn, if_neg hn0]
  exact expandBody_eq hn0 (behindCount s)

/-- When `DECOMPRESS` succeeds behind such a header, so do they, and it discards the tree they leave. -/
theorem decompressBody_ok {s u : State} {n : Word32} (h4 : 4 ≤ s.inLen.toNat) (hn : n.toNat = headerCount s)
    (hn0 : n ≠ 0) (h : decompressBody (emptyWriter (discardTree s)) = .ok u) :
    ∃ v, (desBody (behindCount s) >>= dePayloadBody n) = .ok v ∧ u = discardTree v := by
  rw [decompressBody_eq h4 hn hn0] at h
  cases hv : desBody (behindCount s) >>= dePayloadBody n with
  | error x =>
    rw [hv] at h
    cases h
  | ok v =>
    rw [hv] at h
    exact ⟨v, rfl, (Except.ok.inj h).symm⟩

/-! ## The length of the output -/

/-- Each symbol that is decoded is one byte of the output. -/
theorem decodeSymbols_writePos {tr : Tree} {n : Nat} {s t : State} (hw : WriterOk s)
    (h : decodeSymbols tr n s = .ok t) : writePos t = writePos s + 8 * n := by
  induction n generalizing s with
  | zero =>
    cases h
    rfl
  | succ n ih =>
    obtain ⟨⟨b, u⟩, hu, h⟩ := bind_ok h
    obtain ⟨q, -, -, rfl⟩ := descend_ok hu
    obtain ⟨v, hv, h⟩ := bind_ok h
    obtain ⟨⟨-, -, hpos, -⟩, hwv⟩ := putSeq_appended (writerOk_advance hw) hv
    have hposv : writePos v = writePos s + (bitsOf b).length := hpos
    rw [ih hwv h, hposv, bitsOf_length]
    omega

theorem dePayloadBody_outLen {n : Word32} {s t : State} (hn : n ≠ 0) (h : dePayloadBody n s = .ok t) :
    t.outLen.toNat = n.toNat := by
  cases hr : s.root with
  | none =>
    rw [dePayloadBody_of_root_none hn hr] at h
    cases h
  | some i =>
    rw [dePayloadBody_of_root_some hn hr] at h
    split at h
    · cases h
    · obtain ⟨tr, -, h⟩ := bind_ok h
      have hpos := decodeSymbols_writePos (writerOk_emptyWriter s) h
      have hcnt := t.wcnt.isLt
      change 8 * t.outLen.toNat + t.wcnt.toNat = 0 + 8 * n.toNat at hpos
      omega

/-- A command that reports no error has run its whole body. -/
theorem settle_next_ok {es : List ErrCode} {f : ErrCode → State} {x : Except Exn State} {t : State}
    (hx : RaisesOnly es x) (hne : .ok ∉ es) (hf : ∀ e, (f e).err = e) (h : settle f x = .next t) (hok : t.err = .ok) :
    ∃ u, x = .ok u ∧ t = setErr .ok u := by
  rcases settle_next h with hu | ⟨e, he, rfl⟩
  · exact hu
  · rw [hf] at hok
    exact absurd (hx e he) (hok ▸ hne)

/-- Settles O46: the header's count is read or `IN_LEN` is below 4, and behind it as many symbols are decoded. -/
theorem decompressReadsTheHeader : Obligations.DecompressReadsTheHeader := by
  intro s
  have hn : (BitVec.ofNat 32 (headerCount s)).toNat = headerCount s :=
    toNat_ofNat_word (headerCount_lt s)
  refine ⟨fun h => execDecompress_of_short h, fun _ h4 h0 => ?_, fun t h4 h hok => ?_⟩
  · have hbody := decompressBody_of_count (n := 0) h4 h0.symm
    rw [exec, execDecompress, hbody, if_pos rfl]
    rfl
  · obtain ⟨u, hu, rfl⟩ := settle_next_ok (decompressBody_raisesOnly _) (by decide) (fun _ => rfl) h hok
    by_cases h0 : BitVec.ofNat 32 (headerCount s) = 0
    · rw [decompressBody_of_count h4 hn, if_pos h0] at hu
      cases hu
      rw [← hn, h0]
      rfl
    · obtain ⟨v, hv, rfl⟩ := decompressBody_ok h4 hn h0 hu
      obtain ⟨w, -, hv⟩ := bind_ok hv
      exact (dePayloadBody_outLen h0 hv).trans hn

/-! ## The stream -/

theorem behindHeader_eq (s : State) :
    behindHeader s = { s with outLen := 0, wacc := 0, wcnt := 0, rpos := 32, nodes := [], root := none } := rfl

theorem rebuilt_eq (s : State) (tr : Tree) :
    rebuilt s tr = { s with rpos := (rebuilt s tr).rpos, nodes := arenaOf 0 tr, root := some 0 } := rfl

/-- The state behind the tree of a stream, when `DECOMPRESS` began in `s`. -/
theorem rebuilt_behindHeader (s : State) (tr : Tree) :
    ∃ r, rebuilt (behindHeader s) tr = { s with
      outLen := 0, wacc := 0, wcnt := 0, rpos := r, nodes := arenaOf 0 tr, root := some 0 } :=
  ⟨_, (rebuilt_eq ..).trans (by rw [behindHeader_eq])⟩

/-- The reader stands just behind the last path. -/
theorem expanded_rpos {s : State} {tr : Tree} {ps : List (Byte × Bits)} (hi : InputOk s)
    (h : BitsAt (behindHeader s) (behindHeader s).rpos.toNat (serTree tr ++ ps.flatMap Prod.snd)) :
    (expanded s tr ps).rpos.toNat = 32 + (serTree tr).length + (ps.flatMap Prod.snd).length := by
  have hi' : InputOk (behindHeader s) := hi
  rw [expanded, foldl_putBit1_rpos, advance_rpos_of_bitsAt (inputOk_rebuilt tr hi') (.inr (bitsAt_rebuilt hi' h)),
    rebuilt_rpos hi' h.left]
  rfl

/-- Settles O47: `expanded` is a fresh writer with the symbols on it, and the tree that was built is discarded. -/
theorem decompressDecodesAStream : Obligations.DecompressDecodesAStream := by
  intro s tr ps hi hsize hlevels hne hps room h
  have hcap := s.cfg.outCap.property
  have hn : (BitVec.ofNat 32 ps.length).toNat = ps.length := toNat_ofNat_word (by omega)
  rw [List.append_assoc] at h
  have hexec := execDecompress_of_stream hi hsize hlevels hn hne hps room h
  have hrpos := expanded_rpos hi (decompressBody_of_header hi h).2
  obtain ⟨hw, hpos, hcfg⟩ := rebuilt_behindHeader_writer s tr
  obtain ⟨r, hbuilt⟩ := rebuilt_behindHeader s tr
  generalize he : expanded s tr ps = e at hexec hrpos
  obtain ⟨hlen, hcnt, hacc, hread, hout⟩ :=
    foldl_putBit1_symbolBits (writerOk_advance hw) hpos (by rwa [advance_cfg, hcfg]) he
  obtain ⟨o, m, a, c, hframe⟩ := foldl_putBit1_frame (symbolBits ps)
    (advance (ps.flatMap Prod.snd).length (rebuilt (behindHeader s) tr))
  obtain rfl := he.symm.trans hframe
  obtain rfl : c = 0 := hcnt
  obtain rfl : a = 0 := hacc
  rw [hbuilt] at hexec hlen hrpos hread hout
  exact ⟨_, hexec, rfl, hlen, hrpos, hread, hout⟩

/-! ## The sequence of primitives -/

/-- A run whose first command sets `ERR` by its body's outcome goes on from what the body leaves, whatever a failure of
it would leave. -/
theorem runOk_cons_of_settle {es : List ErrCode} {i : Instr} {is : List Instr} {s : State} {f : ErrCode → State}
    {x : Except Exn State} (hi : exec i s = settle f x) (hx : RaisesOnly es x) (hne : .ok ∉ es)
    (hf : ∀ e, (f e).err = e) : runOk (i :: is) s = x.toOption.bind (fun u => runOk is (setErr .ok u)) := by
  rw [runOk, hi]
  rcases x with (e | x) | u
  · have he : (f e).err ≠ .ok := fun h => hne (((hf e).symm.trans h) ▸ hx e rfl)
    exact if_neg he
  · rfl
  · exact if_pos rfl

/-- What `BR.SEEK 0` and `BR.GETU32` leave, when the count is `n`. -/
def countRead (n : Word32) (s : State) : State := { s with rpos := 32, result := n, err := .ok }

theorem runOk_header {s : State} {n : Word32} (h4 : 4 ≤ s.inLen.toNat) (hn : n.toNat = headerCount s)
    (is : List Instr) : runOk (.brSeek 0 :: .brGetu32 :: is) s = runOk is (countRead n s) := by
  have hseek : exec (.brSeek 0) s = .next (setErr .ok { s with rpos := 0 }) := rfl
  have hget : exec .brGetu32 (setErr .ok { s with rpos := 0 }) = .next (countRead n s) :=
    (readResult_ok (readBits_header (s := setErr .ok { s with rpos := 0 }) rfl h4 hn)).trans
      (by rw [deliver, BitVec.setWidth_eq]; rfl)
  rw [runOk_cons hseek rfl, runOk_cons hget rfl]

/-- The commands behind the header do what `DECOMPRESS` does there. -/
theorem runOk_behindCount (n : Word32) (s : State) :
    ∃ x, runOk [.tcDes, .dePayload n] (countRead n s) = x.toOption.map (setErr .ok) ∧
      Agree SameButReport (desBody (behindCount s) >>= dePayloadBody n) x := by
  refine ⟨desBody (discardTree (countRead n s)) >>= fun u => dePayloadBody n (setErr .ok u), ?_, ?_⟩
  · rw [runOk_cons_of_settle rfl (desBody_raisesOnly _) (by decide) fun _ => rfl]
    have hpay (u : State) : runOk [.dePayload n] u = (dePayloadBody n u).toOption.map (setErr .ok) := by
      rw [runOk_cons_of_settle rfl (dePayloadBody_raisesOnly n u) (by decide) fun _ => rfl]
      cases dePayloadBody n u <;> rfl
    simp only [hpay]
    cases desBody (discardTree (countRead n s)) <;> rfl
  · have hdes : Agree SameButReport (desBody (behindCount s)) (desBody (discardTree (countRead n s))) :=
      sameButReport_tracksWriter.desBody rfl
    exact hdes.bind fun u u' hu => sameButReport_tracksWriter.dePayloadBody n (hu.setErr .ok)

theorem SameButReport.exists_eq {s s' : State} (h : SameButReport s s') :
    ∃ e v, s' = { s with err := e, result := v } :=
  ⟨_, _, h⟩

/-- Settles O48: the commands behind the header are the body of `DECOMPRESS`, but for `ERR` and `RESULT`. -/
theorem decompressEqualsThePrimitives : Obligations.DecompressEqualsThePrimitives := by
  intro s t n _ h4 hn hn0
  obtain ⟨x, hrun, hagree⟩ := runOk_behindCount n s
  rw [runOk_header h4 hn, hrun]
  have hresult {v : State} (h : desBody (behindCount s) >>= dePayloadBody n = .ok v) : v.result = s.result := by
    obtain ⟨u, hu, hv⟩ := bind_ok h
    exact ((dePayloadBody_touches hv).result (by decide)).trans ((desBody_touches hu).result (by decide))
  have hfinal {v w : State} (h : desBody (behindCount s) >>= dePayloadBody n = .ok v) (hw : SameButReport v w) :
      setErr .ok (discardTree v) = { setErr .ok w with nodes := [], root := none, result := s.result } := by
    obtain ⟨e, r, rfl⟩ := hw.exists_eq
    rw [← hresult h]
    rfl
  constructor
  · rintro ⟨h, hok⟩
    obtain ⟨u, hu, rfl⟩ := settle_next_ok (decompressBody_raisesOnly _) (by decide) (fun _ => rfl) h hok
    obtain ⟨v, hv, rfl⟩ := decompressBody_ok h4 hn hn0 hu
    rw [hv] at hagree
    cases hagree with
    | ok hw => exact ⟨_, rfl, hfinal hv hw⟩
  · rintro ⟨u, hu, rfl⟩
    cases hv : desBody (behindCount s) >>= dePayloadBody n with
    | error e =>
      rw [hv] at hagree
      cases hagree
      cases hu
    | ok v =>
      rw [hv] at hagree
      cases hagree with
      | ok hw =>
        cases hu
        refine ⟨?_, rfl⟩
        rw [← hfinal hv hw, exec, execDecompress, decompressBody_eq h4 hn hn0, hv]
        rfl

/-! ## The order of the errors -/

theorem RaisesOnly.bind_of_ok {α β : Type} {es : List ErrCode} {x : Except Exn α} {f : α → Except Exn β}
    (h : RaisesOnly es x) (hf : ∀ a, x = .ok a → RaisesOnly es (f a)) : RaisesOnly es (x >>= f) := by
  cases x with
  | ok a => exact hf a rfl
  | error y =>
    rintro e ⟨⟩
    exact h e rfl

/-- With room for the symbols, only the input can run out. -/
theorem decodeSymbols_raisesOnly_of_room {tr : Tree} {n : Nat} {s : State} (hw : WriterOk s)
    (room : writePos s + 8 * n ≤ writeCap s) : RaisesOnly [.streamUnderrun] (decodeSymbols tr n s) := by
  induction n generalizing s with
  | zero => exact raisesOnly_ok _
  | succ n ih =>
    refine (descend_raisesOnly tr s).bind_of_ok fun ⟨b, u⟩ hu => ?_
    obtain ⟨q, -, -, rfl⟩ := descend_ok hu
    have hroom : writePos (advance q.length s) + (bitsOf b).length ≤ writeCap (advance q.length s) := by
      rw [bitsOf_length]
      change writePos s + 8 ≤ writeCap s
      omega
    obtain ⟨-, hpos, hwv, -⟩ := foldl_putBit1_spec (bitsOf b) (writerOk_advance hw) hroom
    change RaisesOnly _ (putSeq (bitsOf b) (advance q.length s) >>= decodeSymbols tr n)
    rw [putSeq_of_room hroom]
    refine ih hwv ?_
    rw [hpos, writeCap_foldl_putBit1, bitsOf_length]
    change writePos s + 8 + 8 * n ≤ writeCap s
    omega

theorem dePayloadBody_raisesOnly_of_room {n : Word32} {s : State} (hn : n ≠ 0) (hr : s.root ≠ none)
    (room : n.toNat ≤ s.cfg.outCap.val) : RaisesOnly [.streamUnderrun] (dePayloadBody n s) := by
  obtain ⟨i, hi⟩ := Option.ne_none_iff_exists'.1 hr
  rw [dePayloadBody_of_root_some hn hi, if_neg (by omega)]
  refine ((treeIn_raisesOnly s i).mono (by decide)).bind fun tr => ?_
  refine decodeSymbols_raisesOnly_of_room (writerOk_emptyWriter s) ?_
  change 0 + 8 * n.toNat ≤ 8 * s.cfg.outCap.val
  omega

/-- Settles O49: the tests stand in the two bodies in this order, and with a tree and room nothing but the input can
fail. -/
theorem decompressReportsInOrder : Obligations.DecompressReportsInOrder := by
  intro s p n _ h4 hn hn0 hp fail hfail
  have hexec {e : ErrCode} (h : desBody (behindCount s) >>= dePayloadBody n = .error (.raise e)) :
      exec .decompress s = .next (fail e) := by
    rw [exec, execDecompress, decompressBody_eq h4 hn hn0, h, hfail]
    rfl
  rcases settle_next hp with ⟨u, hu, rfl⟩ | ⟨e, he, rfl⟩
  · have hbody : desBody (behindCount s) >>= dePayloadBody n = dePayloadBody n u := by
      rw [show desBody (behindCount s) = .ok u from hu]
      rfl
    have hcfg : u.cfg = s.cfg := (desBody_touches hu).own.1
    rw [hbody] at hexec
    refine ⟨fun h => absurd rfl h, fun _ hr => hexec (dePayloadBody_of_root_none hn0 hr), fun _ hr hfull => ?_,
      fun f _ hr room hf hfe => ?_⟩
    all_goals rw [setErr_root] at hr
    · obtain ⟨i, hi⟩ := Option.ne_none_iff_exists'.1 hr
      exact hexec ((dePayloadBody_of_root_some hn0 hi).trans (if_pos (hcfg ▸ hfull)))
    · rcases settle_next hf with ⟨v, -, rfl⟩ | ⟨e, he, rfl⟩
      · exact absurd rfl hfe
      · have hagree : Agree SameButReport (dePayloadBody n u) (dePayloadBody n (setErr .ok u)) :=
          sameButReport_tracksWriter.dePayloadBody n rfl
        have hu' := hagree.eq_error he
        obtain rfl := List.mem_singleton.1 (dePayloadBody_raisesOnly_of_room hn0 hr (hcfg ▸ room) e hu')
        exact ⟨rfl, hexec hu'⟩
  · have hne : e ≠ .ok := by
      rintro rfl
      exact absurd (desBody_raisesOnly _ _ he) (by decide)
    have hbody : desBody (behindCount s) >>= dePayloadBody n = .error (.raise e) := by
      rw [show desBody (behindCount s) = .error (.raise e) from he]
      rfl
    exact ⟨fun _ => hexec hbody, fun h => absurd h hne, fun h => absurd h hne, fun _ h => absurd h hne⟩

end Sys2Proof.Machine
end

section
/-! SUPPORT. A stream cut short (47_decompress.md R221): a header, then a part of a tree, or a tree and a part of the
paths. -/

namespace Sys2Proof.Machine

/-! ## Where a stream is cut -/

/-- A proper beginning of an output, whole bytes, ends before the output's own bits do. -/
theorem Streamed.bitsAt_cut {q : Bits} {s t u : State} (h : Streamed q s t) (hp : PresentedCut t u) :
    8 * u.inLen.toNat < q.length ∧ BitsAt u 0 (q.take (8 * u.inLen.toNat)) := by
  obtain ⟨hlt, hbytes⟩ := hp
  have hlen := h.len
  have hcut : 8 * u.inLen.toNat < q.length := by omega
  have htake : (q.take (8 * u.inLen.toNat)).length = 8 * u.inLen.toNat := by
    rw [List.length_take]
    omega
  refine ⟨hcut, by omega, ?_⟩
  rw [htake, inBits_of_bytes hlt.le hbytes, h.bits, List.take_append_of_le_length hcut.le]

theorem headerCount_of_bitsAt {u : State} {n : Word32} {r : Bits} (h : BitsAt u 0 (bitsOf n ++ r)) :
    headerCount u = n.toNat := by
  have hbits := h.left.2
  rw [bitsOf_length] at hbits
  rw [headerCount_eq, hbits, numOf_bitsOf]

/-- What stands behind the header is what `TC.DES` finds at offset 32. -/
theorem bitsAt_behind_header {u : State} {n : Word32} {r : Bits} (h : BitsAt u 0 (bitsOf n ++ r)) :
    BitsAt { u with rpos := 32 } 32 r := by
  have hr := h.of_append
  rwa [bitsOf_length] at hr

theorem InputOk.of_touches {ps : List Part} {s t : State} (h : InputOk s) (ht : Touches ps s t) : InputOk t := by
  rwa [InputOk, ht.input.2, ht.own.1]

theorem BitsAt.of_touches {ps : List Part} {s t : State} {p : Nat} {q : Bits} (h : BitsAt s p q)
    (ht : Touches ps s t) : BitsAt t p q := by
  obtain ⟨hibuf, hlen⟩ := ht.input
  obtain ⟨-, -, -, hresets⟩ := ht.own
  have hbits (k : Nat) : inBits t p k = inBits s p k := by
    simp only [inBits, inBit, inByte, hibuf, hresets]
  rwa [BitsAt, hbits, hlen]

/-- The path in which the first `m` bits of a list of paths end. -/
theorem exists_cut_path {ps : List (Byte × Bits)} {m : Nat} (h : m < (ps.flatMap Prod.snd).length) :
    ∃ pre p post, ps = pre ++ p :: post ∧ (pre.flatMap Prod.snd).length ≤ m ∧
      m < (pre.flatMap Prod.snd).length + p.2.length := by
  induction ps generalizing m with
  | nil => exact absurd h (Nat.not_lt_zero m)
  | cons p ps ih =>
    rw [List.flatMap_cons, List.length_append] at h
    by_cases hm : m < p.2.length
    · exact ⟨[], p, ps, rfl, Nat.zero_le m, by simpa using hm⟩
    · obtain ⟨pre, p', post, rfl, hle, hlt⟩ := ih (m := m - p.2.length) (by omega)
      refine ⟨p :: pre, p', post, rfl, ?_, ?_⟩ <;> rw [List.flatMap_cons, List.length_append] <;> omega

/-- `DE.PAYLOAD` of a list of paths that the input ends in (45_encoder_decoder_datapath.md R189). -/
theorem execDePayload_of_cut {s : State} {n : Word32} {tr : Tree} {ps : List (Byte × Bits)} {m : Nat} (hi : InputOk s)
    (hn0 : n ≠ 0) (htr : Denotes s tr) (hn : n.toNat = ps.length) (room : n.toNat ≤ s.cfg.outCap.val)
    (hps : ∀ p ∈ ps, p ∈ Tree.paths tr) (hm : m < (ps.flatMap Prod.snd).length)
    (hend : s.rpos.toNat + m = 8 * s.inLen.toNat) (h : BitsAt s s.rpos.toNat ((ps.flatMap Prod.snd).take m)) :
    exec (.dePayload n) s = .next { s with err := .streamUnderrun, outLen := 0, wacc := 0, wcnt := 0 } := by
  obtain ⟨pre, ⟨b, q⟩, post, rfl, hle, hlt⟩ := exists_cut_path hm
  dsimp only at hlt
  have hq : q ≠ [] := by
    rintro rfl
    rw [List.length_nil] at hlt
    omega
  have hleft : 8 * s.inLen.toNat - s.rpos.toNat = m := by omega
  have hrest := h.2
  rw [List.length_take, Nat.min_eq_left hm.le] at hrest
  have hprefix : inBits s s.rpos.toNat m <+: pre.flatMap Prod.snd ++ q := by
    rw [hrest]
    refine List.prefix_of_prefix_length_le (List.take_prefix ..) ⟨post.flatMap Prod.snd, ?_⟩ ?_
    · rw [List.flatMap_append, List.flatMap_cons, List.append_assoc]
    · rw [List.length_append]
      exact (List.length_take_le ..).trans hlt.le
  rw [List.length_append, List.length_cons] at hn
  obtain ⟨-, hcases⟩ := dePayloadZeroAndFailures s
  obtain ⟨-, -, hcut⟩ := hcases n hn0
  rw [hleft] at hcut
  exact hcut tr pre b q hi htr (fun p hp => hps p (List.mem_append_left _ hp))
    (hps _ (List.mem_append_right _ List.mem_cons_self)) hq (by omega) room hle (by omega) hprefix

/-! ## `DECOMPRESS` of a cut stream -/

section

variable {u : State} {n : Word32} {tr : Tree} (hi : InputOk u) (hn0 : n ≠ 0) (hsize : Tree.size tr ≤ 511)
  (hlevels : Tree.levels tr ≤ 256)

include hi hn0 hsize hlevels

/-- Cut inside the tree. -/
theorem execDecompress_of_cut_tree {k : Nat} (hk : k < (serTree tr).length) (hend : 32 + k = 8 * u.inLen.toNat)
    (h : BitsAt u 0 (bitsOf n ++ (serTree tr).take k)) :
    exec .decompress u = .next (decompressFail u .streamUnderrun) := by
  obtain ⟨-, hcut, -⟩ := tcDesUnderruns { u with rpos := 32 } hi
  have hp := hcut tr k hsize hlevels hk hend (bitsAt_behind_header h)
  obtain ⟨hfirst, -⟩ := decompressReportsInOrder u _ n hi (by omega) (headerCount_of_bitsAt h).symm hn0 hp
    (decompressFail u) fun _ => rfl
  exact hfirst (by simp)

/-- Cut inside the paths: the tree is complete, and then the room is tested first (47_decompress.md R219). -/
theorem execDecompress_of_cut_paths {ps : List (Byte × Bits)} {m : Nat} (hn : n.toNat = ps.length)
    (hps : ∀ p ∈ ps, p ∈ Tree.paths tr) (hm : m < (ps.flatMap Prod.snd).length)
    (hend : 32 + (serTree tr).length + m = 8 * u.inLen.toNat)
    (h : BitsAt u 0 (bitsOf n ++ (serTree tr ++ (ps.flatMap Prod.snd).take m))) :
    exec .decompress u = .next (decompressFail u
      (if u.cfg.outCap.val < n.toNat then .capacityExceeded else .streamUnderrun)) := by
  have h4 : 4 ≤ u.inLen.toNat := by omega
  have hbits := bitsAt_behind_header h
  obtain ⟨-, hparse⟩ := tcDesParsesTheSerializedTree { u with rpos := 32 } hi
  obtain ⟨p, hp, hframe, htr, -, hrpos, -⟩ := hparse tr hsize hlevels hbits.left
  have ht := execTcDes_touches hp
  have hip : InputOk p := InputOk.of_touches (s := { u with rpos := 32 }) hi ht
  have hpos : p.rpos.toNat = 32 + (serTree tr).length := hrpos
  have hlen : p.inLen = u.inLen := ht.input.2
  have hcfg : p.cfg = u.cfg := ht.own.1
  have hrest := hbits.of_append.of_touches ht
  rw [← hpos, ← hlen] at hend
  rw [← hpos] at hrest
  have hok : p.err = .ok := by rw [hframe]
  have hroot : p.root ≠ none := by
    rw [hframe]
    exact Option.some_ne_none 0
  obtain ⟨-, -, hfull, hpay⟩ := decompressReportsInOrder u p n hi h4 (headerCount_of_bitsAt h).symm hn0 hp
    (decompressFail u) fun _ => rfl
  split
  · next hcap => exact hfull hok hroot hcap
  · next hcap =>
    have room := Nat.not_lt.1 hcap
    have hf := execDePayload_of_cut hip hn0 htr hn (hcfg ▸ room) hps hm hend hrest
    exact (hpay _ hok hroot room hf (by simp)).2

end

/-- Settles O51: the cut is in the header, in the tree, or in the codes, which are paths of the tree. -/
theorem truncatedStreamIsRejected : Obligations.TruncatedStreamIsRejected := by
  intro s t u h hok hp hi
  obtain ⟨a, w, ha, -, hst, rfl⟩ := exists_streamed_of_execCompress h hok
  by_cases h4 : u.inLen.toNat < 4
  · exact ⟨_, execDecompress_of_short h4, rfl, fun _ => rfl, fun h => absurd h4 (Nat.not_lt.2 h),
      fun h => absurd h4 (Nat.not_lt.2 h)⟩
  obtain ⟨hlt, hbits⟩ := hst.bitsAt_cut hp
  have hne : s.inLen ≠ 0 := by
    intro h0
    rw [ha.wholeStream_of_inLen_zero h0, bitsOf_length] at hlt
    omega
  obtain ⟨tr, -, hperm, hcode, hq⟩ := ha.exists_tree hne
  obtain ⟨hsize, hlevels⟩ := ha.tree_bounds hperm
  have hpaths := ha.codedSymbols_mem_paths hperm hcode
  have hlen : s.inLen.toNat = (codedSymbols a (inputBytes s)).length := by
    rw [codedSymbols_length, inputBytes_length]
  obtain ⟨k, hk⟩ := Nat.exists_eq_add_of_le (show (bitsOf s.inLen).length ≤ 8 * u.inLen.toNat by
    rw [bitsOf_length]
    omega)
  rw [hq, List.append_assoc, ← codedSymbols_flatMap, hk] at hlt hbits
  rw [List.take_length_add_append] at hbits
  rw [List.length_append, List.length_append] at hlt
  rw [bitsOf_length] at hk
  rcases Nat.lt_or_ge k (serTree tr).length with htree | htree
  · rw [List.take_append_of_le_length htree.le] at hbits
    have hexec := execDecompress_of_cut_tree hi hne hsize hlevels htree hk.symm hbits
    exact ⟨_, hexec, rfl, fun h => absurd h h4, fun _ _ => rfl, fun _ _ => .inl rfl⟩
  · rw [List.take_append, List.take_of_length_le htree] at hbits
    have hexec := execDecompress_of_cut_paths hi hne hsize hlevels hlen hpaths (by omega) (by omega) hbits
    exact ⟨_, hexec, rfl, fun h => absurd h h4, fun _ room => if_neg (Nat.not_lt.2 room),
      fun _ hfull => .inr (if_pos hfull)⟩

end Sys2Proof.Machine
end

section
/-! SUPPORT. `DECOMPRESS` depends on the input and the capacities alone (10_state.md R47): it sets everything else that
it looks at. -/

namespace Sys2Proof.Machine

/-- The states look alike to a command that parses a tree and decodes with it: they agree in the capacities, in the
input below `IN_LEN`, the reader, the tree, the writer and the output below `OUT_LEN`. -/
structure LooksAlike (s s' : State) : Prop where
  cfg : s'.cfg = s.cfg
  inLen : s'.inLen = s.inLen
  inBytes : ∀ i, i < s.inLen.toNat → inByte s' i = inByte s i
  rpos : s'.rpos = s.rpos
  tree : SameTree s s'
  outLen : s'.outLen = s.outLen
  wcnt : s'.wcnt = s.wcnt
  wacc : s'.wacc = s.wacc
  outBytes : ∀ i, i < s.outLen.toNat → s'.obuf.read i = s.obuf.read i

section

variable {s s' : State} (h : LooksAlike s s')

include h

theorem LooksAlike.inBits_eq {p n : Nat} (hp : p + n ≤ 8 * s.inLen.toNat) : inBits s' p n = inBits s p n := by
  refine List.map_congr_left fun k hk => ?_
  have hk := List.mem_range.1 hk
  rw [inBit, h.inBytes _ (by omega), inBit]

theorem LooksAlike.advance (n : Nat) : LooksAlike (advance n s) (advance n s') :=
  ⟨h.cfg, h.inLen, h.inBytes, by rw [advance_rpos, h.rpos, advance_rpos], h.tree, h.outLen, h.wcnt, h.wacc, h.outBytes⟩

theorem LooksAlike.readBits (n : Nat) :
    Agree (WithState LooksAlike) (readBits n s) (readBits n s') := by
  unfold Machine.readBits
  rw [h.inLen, h.rpos, h.cfg]
  split
  · exact .error _
  · next hroom =>
    split
    · exact .error _
    · exact .ok ⟨congrArg (fun q => BitVec.ofNat n (numOf q)) (h.inBits_eq (Nat.not_lt.1 hroom)).symm, h.advance n⟩

theorem LooksAlike.storeByte (v : Byte) : LooksAlike (storeByte v s) (storeByte v s') := by
  refine ⟨h.cfg, h.inLen, h.inBytes, h.rpos, h.tree, congrArg (· + 1) h.outLen, rfl, rfl, fun i hi => ?_⟩
  rw [storeByte_obuf, storeByte_obuf, h.outLen, Memory.read_write, Memory.read_write]
  split
  · rfl
  · next hne =>
    have hle : (s.outLen + 1).toNat ≤ s.outLen.toNat + 1 := Nat.mod_le ..
    rw [storeByte_outLen] at hi
    exact h.outBytes i (by omega)

theorem LooksAlike.putBit1 (b : Bool) : LooksAlike (putBit1 s b) (putBit1 s' b) := by
  have hacc : accWith b s' = accWith b s := by rw [accWith, h.wacc, h.wcnt, accWith]
  rw [Machine.putBit1, Machine.putBit1, h.wcnt, hacc]
  split
  · exact h.storeByte _
  · exact ⟨h.cfg, h.inLen, h.inBytes, h.rpos, h.tree, h.outLen, rfl, rfl, h.outBytes⟩

end

theorem looksAlike_tracksWriter : TracksWriter LooksAlike where
  cfg h := h.cfg
  tree h := h.tree
  arena ns r h := ⟨h.cfg, h.inLen, h.inBytes, h.rpos, ⟨rfl, rfl⟩, h.outLen, h.wcnt, h.wacc, h.outBytes⟩
  read n h := h.readBits n
  pos h := by rw [writePos, h.outLen, h.wcnt, writePos]
  put b h := h.putBit1 b
  fresh h := ⟨h.cfg, h.inLen, h.inBytes, h.rpos, h.tree, rfl, rfl, rfl, fun i hi => absurd hi (Nat.not_lt_zero i)⟩

theorem headerCount_congr {s s' : State} (h4 : 4 ≤ s.inLen.toNat)
    (hin : ∀ i, i < s.inLen.toNat → inByte s' i = inByte s i) : headerCount s' = headerCount s := by
  rw [headerCount, hin 0 (by omega), hin 1 (by omega), hin 2 (by omega), hin 3 (by omega), headerCount]

/-- The body of `DECOMPRESS` from two states with one input. -/
theorem decompressBody_agree {s s' : State} (hcfg : s'.cfg = s.cfg) (hlen : s'.inLen = s.inLen)
    (hin : ∀ i, i < s.inLen.toNat → inByte s' i = inByte s i) :
    Agree LooksAlike (decompressBody (emptyWriter (discardTree s)))
      (decompressBody (emptyWriter (discardTree s'))) := by
  have hstart : LooksAlike (behindHeader s) (behindHeader s') :=
    ⟨hcfg, hlen, hin, rfl, ⟨rfl, rfl⟩, rfl, rfl, rfl, fun i hi => absurd hi (Nat.not_lt_zero i)⟩
  rcases Nat.lt_or_ge s.inLen.toNat 4 with hshort | h4
  · rw [show decompressBody (emptyWriter (discardTree s)) = _ from if_pos hshort,
      show decompressBody (emptyWriter (discardTree s')) = _ from if_pos (hlen ▸ hshort)]
    exact .error _
  · have hn := toNat_ofNat_word (headerCount_lt s)
    generalize BitVec.ofNat 32 (headerCount s) = n at hn
    rw [decompressBody_of_count h4 hn, decompressBody_of_count (hlen ▸ h4) (hn.trans (headerCount_congr h4 hin).symm)]
    by_cases hn0 : n = 0
    · rw [if_pos hn0, if_pos hn0]
      exact .ok hstart
    · have hbody (u : State) := expandBody_eq hn0 (behindHeader u)
      have hfresh (u : State) : emptyWriter (behindHeader u) = behindHeader u := rfl
      rw [if_neg hn0, if_neg hn0, ← hfresh s, ← hfresh s', hbody, hbody]
      refine Agree.map ((looksAlike_tracksWriter.desBody hstart).bind fun _ _ =>
        looksAlike_tracksWriter.dePayloadBody n) fun _ _ => looksAlike_tracksWriter.arena [] none

/-- Settles O52: from one input the two bodies end alike, and a failure leaves an empty writer. -/
theorem decompressDependsOnTheInputAlone : Obligations.DecompressDependsOnTheInputAlone := by
  intro s s' t t' hcfg hlen hin h h'
  have hagree := decompressBody_agree hcfg hlen hin
  have hraises := decompressBody_raisesOnly (emptyWriter (discardTree s))
  rw [exec, execDecompress] at h h'
  generalize decompressBody (emptyWriter (discardTree s)) = x, decompressBody (emptyWriter (discardTree s')) = x' at *
  cases hagree with
  | ok hu =>
    cases h
    cases h'
    exact ⟨rfl, hu.outLen, fun _ => hu.rpos, hu.outBytes⟩
  | error y =>
    rcases y with e | f
    · cases h
      cases h'
      refine ⟨rfl, rfl, fun he => ?_, fun i hi => absurd hi (Nat.not_lt_zero i)⟩
      obtain rfl : e = .ok := he
      exact absurd (hraises _ rfl) (by decide)
    · cases h

end Sys2Proof.Machine
end

section
/-! SUPPORT. `RESET` and the external reset event from any state (48_system.md R230, 70_reset_and_hazards.md R270,
10_state.md R44). -/

namespace Sys2Proof.Machine

theorem exec_reset (s : State) : exec .reset s = .next (resetState s) := rfl

theorem hostAct_resetEvent (s : State) : hostAct .resetEvent s = .next (resetState s) := rfl

@[simp] theorem resetState_nsym (s : State) : (resetState s).nsym = 0 := rfl

@[simp] theorem resetState_nnodes (s : State) : (resetState s).nnodes = 0 := rfl

@[simp] theorem countOf_resetState (s : State) (b : Byte) : countOf (resetState s) b = 0 := by
  rw [countOf, resetState_freqCount, tableGet_zeroCounts]

@[simp] theorem codeOf_resetState (s : State) (b : Byte) : codeOf (resetState s) b = none := by
  rw [codeOf, resetState_code, tableGet_emptyTable]

/-- The host reads no byte of `OBUF` at or beyond `OUT_LEN` (10_state.md R46). -/
theorem hostAct_readObuf_of_le {s : State} {i : Nat} (h : s.outLen.toNat ≤ i) :
    hostAct (.readObuf i) s = .refused .hostObufNoValue := by
  simp only [hostAct, readObufByte, if_neg (Nat.not_lt.2 h)]

/-- Settles O10: both resets end in `resetState`, which has each value; with `OUT_LEN` 0 no byte of `OBUF` can be
read. -/
theorem resetCommandRestoresResetValues : Obligations.ResetCommandRestoresResetValues := by
  refine ⟨decode_encode .reset, fun s => ⟨resetState s, exec_reset s, hostAct_resetEvent s, resetState_err s,
    resetState_result s, resetState_inLen s, resetState_outLen s, resetState_rpos s, resetState_wacc s,
    resetState_wcnt s, resetState_nsym s, resetState_nnodes s, resetState_root s, countOf_resetState s,
    codeOf_resetState s, fun i => hostAct_readObuf_of_le ?_, resetState_cfg s, resetState_hostQueue s⟩⟩
  rw [resetState_outLen]
  exact Nat.zero_le i

end Sys2Proof.Machine
end

section
/-! SUPPORT. How a command ends (60_exceptions.md R252, R254): what it leaves when it fails, and that it does end.
`Completes x` says of a computation that it meets nothing that does not exist; each operation has one such rule, under
the invariants it needs, and a command answers a next state when its body completes. -/

namespace Sys2Proof.Machine

/-! ## What a failing command leaves -/

/-- A command that reports an error has left what its failure leaves. -/
theorem settle_failed {f : ErrCode → State} {x : Except Exn State} {t : State} (h : settle f x = .next t)
    (hf : ∀ e, (f e).err = e) (hne : t.err ≠ .ok) : t = f t.err := by
  rcases settle_next h with ⟨u, -, rfl⟩ | ⟨e, -, rfl⟩
  · exact absurd rfl hne
  · rw [hf]

/-- A failing command leaves all but the code, when it is none of the exceptions of 60_exceptions.md R252. -/
theorem exec_failed {i : Instr} {s t : State} (hdes : i ≠ .tcDes) (hdec : i ≠ .decompress) (hcom : i ≠ .compress)
    (hpay : ∀ n, i ≠ .dePayload n) (h : exec i s = .next t) (hne : t.err ≠ .ok) : t = raiseErr t.err s := by
  cases i with
  | reset | bwInit | brSeek n =>
    cases h
    exact absurd rfl hne
  | tcDes => exact absurd rfl hdes
  | decompress => exact absurd rfl hdec
  | compress => exact absurd rfl hcom
  | dePayload n => exact absurd rfl (hpay n)
  | fqCount | tbBuild | cgGen | bwPutbit _ | bwPutbyte _ | bwPutu32 _ | bwFinal | brGetbit | brGetbyte | brGetu32
  | tcSer | enSym _ | enPayload | deSym => exact settle_failed h (fun _ => rfl) hne

/-- A failing `COMPRESS` had no room for its stream, and counts, tree and codes had been computed before. -/
theorem exists_compresses_of_failed {s t : State} (h : exec .compress s = .next t) (hne : t.err ≠ .ok) :
    ∃ a, Compresses s a ∧ t = compressFail a .capacityExceeded := by
  obtain ⟨a, ha⟩ := exists_compresses (inputOk_of_execCompress h)
  refine ⟨a, ha, ?_⟩
  rw [ha.exec_eq] at h
  rcases Nat.lt_or_ge (writeCap a) (wholeStream a).length with hfull | room
  · rw [streamed_of_no_room hfull] at h
    exact (Host.Outcome.next.inj h).symm
  · obtain ⟨u, hu, -⟩ := streamed_of_room room
    rw [hu] at h
    cases h
    exact absurd rfl hne

/-- Settles O54: a failure is one of the four states that `settle` is given, and that of `COMPRESS` is said of the state
that the three commands leave. -/
theorem failuresLeaveTheState : Obligations.FailuresLeaveTheState := by
  intro i s t h hne
  refine ⟨fun hdes hdec hcom hpay => exec_failed hdes hdec hcom hpay h hne, ?_, ?_, ?_, ?_⟩
  · rintro rfl
    exact settle_failed h (fun _ => rfl) hne
  · rintro n rfl
    exact settle_failed h (fun _ => rfl) hne
  · rintro rfl
    exact settle_failed h (fun _ => rfl) hne
  · rintro rfl
    obtain ⟨a, ha, rfl⟩ := exists_compresses_of_failed h hne
    refine ⟨rfl, a, ha.run, rfl, ?_, ?_⟩ <;> rw [ha.analysed.frame] <;> rfl

/-! ## Computations that meet nothing that does not exist -/

/-- A computation succeeds or raises an error: it does not stop with a fault. -/
def Completes {α : Type} (x : Except Exn α) : Prop := ∀ f, x ≠ .error (.stop f)

section

variable {α β : Type}

theorem completes_ok (a : α) : Completes (.ok a) :=
  fun _ h => nomatch h

theorem completes_raise (e : ErrCode) : Completes (.error (.raise e) : Except Exn α) :=
  fun _ h => nomatch h

theorem completes_of_eq_ok {x : Except Exn α} {a : α} (h : x = .ok a) : Completes x :=
  h ▸ completes_ok a

theorem completes_of_error {x : Except Exn α} (h : ∀ y, x = .error y → ∃ e, y = .raise e) : Completes x := by
  intro f hf
  obtain ⟨e, he⟩ := h _ hf
  cases he

theorem Completes.bind {x : Except Exn α} {f : α → Except Exn β} (h : Completes x)
    (hf : ∀ a, x = .ok a → Completes (f a)) : Completes (x >>= f) := by
  cases x with
  | ok a => exact hf a rfl
  | error y =>
    rintro g ⟨⟩
    exact h g rfl

theorem Completes.map {x : Except Exn α} (h : Completes x) (g : α → β) : Completes (x.map g) :=
  h.bind fun a _ => completes_ok (g a)

theorem Completes.ite {c : Prop} [Decidable c] {x y : Except Exn α} (hx : Completes x) (hy : Completes y) :
    Completes (if c then x else y) := by
  split
  · exact hx
  · exact hy

end

/-! ## The writer -/

theorem putSeq_completes (q : Bits) (s : State) : Completes (putSeq q s) :=
  .ite (completes_raise _) (completes_ok _)

/-- A partial byte has room, so `BW.FINAL` never fails (43_bit_writer_reader.md R151). -/
theorem finalBody_completes {s : State} (hw : WriterOk s) : Completes (finalBody s) := by
  obtain ⟨t, ht, -⟩ := finalBody_spec hw
  exact completes_of_eq_ok ht

theorem encodeSymbol_completes (v : Byte) (s : State) : Completes (encodeSymbol v s) := by
  unfold encodeSymbol
  split
  · exact completes_raise _
  · exact putSeq_completes _ s

theorem encodeSymbols_completes (bs : List Byte) (s : State) : Completes (encodeSymbols bs s) := by
  induction bs generalizing s with
  | nil => exact completes_ok s
  | cons b bs ih => exact (encodeSymbol_completes b s).bind fun u _ => ih u

theorem payloadBody_completes {s : State} (hi : InputOk s) : Completes (payloadBody s) := by
  rw [payloadBody, if_neg (Nat.not_lt.2 hi)]
  exact encodeSymbols_completes _ s

/-! ## The reader -/

theorem readBits_completes {n : Nat} {s : State} (hi : InputOk s) : Completes (readBits n s) :=
  completes_of_error fun _ h => ⟨_, readBits_error hi h⟩

theorem descend_completes {tr : Tree} {s : State} (hi : InputOk s) : Completes (descend tr s) :=
  completes_of_error fun _ h => ⟨_, descend_error hi h⟩

theorem desBody_completes {s : State} (hi : InputOk s) : Completes (desBody s) := by
  have hparse : Completes (parse Config.maxDepth s) :=
    completes_of_error fun _ h => (parse_error hi h).elim (⟨_, ·⟩) (⟨_, ·⟩)
  exact hparse.bind fun _ _ => completes_ok _

theorem decodeSymbols_completes {tr : Tree} {n : Nat} {s : State} (hi : InputOk s) :
    Completes (decodeSymbols tr n s) := by
  induction n generalizing s with
  | zero => exact completes_ok s
  | succ n ih =>
    refine (descend_completes hi).bind fun ⟨b, u⟩ hu => (putSeq_completes _ u).bind fun v hv => ?_
    exact ih ((hi.of_touches (descend_touches hu)).of_touches (putSeq_touches hv))

/-! ## The tree: with no root it is not looked at, else it denotes one -/

theorem genBody_completes {s : State} (ha : ArenaOk s) : Completes (genBody s) := by
  obtain ⟨t, ht, -⟩ := genBody_spec ha
  exact completes_of_eq_ok ht

theorem serBody_completes {s : State} (ha : ArenaOk s) : Completes (serBody s) := by
  by_cases hr : s.root = none
  · have hbits : serBits s = .ok [false] := by rw [serBits, hr]
    exact (completes_of_eq_ok hbits).bind fun q _ => putSeq_completes q s
  · obtain ⟨tr, htr, -⟩ := ha.denotes hr
    rw [serBody_of_denotes htr]
    exact putSeq_completes _ s

theorem deSymBody_completes {s : State} (hi : InputOk s) (ha : ArenaOk s) : Completes (deSymBody s) := by
  by_cases hr : s.root = none
  · rw [deSymBody_of_root_none hr]
    exact completes_raise _
  · obtain ⟨tr, htr, -⟩ := ha.denotes hr
    rw [deSymBody_of_denotes htr]
    exact (descend_completes hi).bind fun _ _ => completes_ok _

theorem dePayloadBody_completes {n : Word32} {s : State} (hi : InputOk s) (ha : ArenaOk s) :
    Completes (dePayloadBody n s) := by
  by_cases hr : s.root = none
  · by_cases hn : n = 0
    · subst hn
      exact completes_ok (emptyWriter s)
    · rw [dePayloadBody_of_root_none hn hr]
      exact completes_raise _
  · obtain ⟨tr, htr, -⟩ := ha.denotes hr
    rw [dePayloadBody_of_denotes htr]
    exact .ite (completes_raise _) (decodeSymbols_completes hi)

/-- Behind its header `DECOMPRESS` is `TC.DES` and `DE.PAYLOAD`, and the tree of the first is there for the second. -/
theorem decompressBody_completes {s : State} (hi : InputOk s) :
    Completes (decompressBody (emptyWriter (discardTree s))) := by
  rcases Nat.lt_or_ge s.inLen.toNat 4 with hshort | h4
  · have hbody : decompressBody (emptyWriter (discardTree s)) = .error (.raise .malformedHeader) := if_pos hshort
    rw [hbody]
    exact completes_raise _
  · have hn := toNat_ofNat_word (headerCount_lt s)
    by_cases h0 : BitVec.ofNat 32 (headerCount s) = 0
    · rw [decompressBody_of_count h4 hn, if_pos h0]
      exact completes_ok _
    · have hi' : InputOk (behindCount s) := hi
      rw [decompressBody_eq h4 hn h0]
      refine Completes.map ((desBody_completes hi').bind fun u hu => ?_) discardTree
      exact dePayloadBody_completes (hi'.of_touches (desBody_touches hu)) (desBody_arenaOk hu)

/-! ## The commands -/

/-- A command answers a next state when its body completes. -/
theorem Completes.settle_next {x : Except Exn State} (h : Completes x) (f : ErrCode → State) :
    ∃ t, settle f x = .next t := by
  match x with
  | .ok u => exact ⟨_, settle_ok f u⟩
  | .error (.raise e) => exact ⟨_, settle_raise f e⟩
  | .error (.stop y) => exact absurd rfl (h y)

theorem appendOperand_completes {n : Nat} (v : BitVec n) (s : State) : ∃ t, appendOperand v s = .next t :=
  (putSeq_completes (bitsOf v) s).settle_next _

theorem readResult_completes (n : Nat) {s : State} (hi : InputOk s) : ∃ t, readResult n s = .next t :=
  ((readBits_completes hi).bind fun _ _ => completes_ok _).settle_next _

/-- On a legal input `COMPRESS` writes its stream or has no room for it. -/
theorem execCompress_completes {s : State} (hi : InputOk s) : ∃ t, exec .compress s = .next t := by
  obtain ⟨a, ha⟩ := exists_compresses hi
  rcases Nat.lt_or_ge (writeCap a) (wholeStream a).length with hfull | room
  · exact ⟨_, ha.of_no_room hfull⟩
  · obtain ⟨u, -, hu⟩ := ha.of_room room
    exact ⟨_, hu⟩

/-- Settles O55: under the invariants each command's body completes. -/
theorem commandsAlwaysComplete : Obligations.CommandsAlwaysComplete := by
  intro i s hs
  cases i with
  | reset | bwInit | brSeek n => exact ⟨_, rfl⟩
  | fqCount =>
    obtain ⟨t, ht, -⟩ := countBody_spec hs.input
    exact (completes_of_eq_ok ht).settle_next _
  | tbBuild =>
    obtain ⟨t, ht, -⟩ := buildBody_arena hs.freq
    exact (completes_of_eq_ok ht).settle_next _
  | cgGen => exact (genBody_completes hs.arena).settle_next _
  | bwPutbit b => exact appendOperand_completes b s
  | bwPutbyte v => exact appendOperand_completes v s
  | bwPutu32 n => exact appendOperand_completes n s
  | bwFinal => exact (finalBody_completes hs.writer).settle_next _
  | brGetbit => exact readResult_completes 1 hs.input
  | brGetbyte => exact readResult_completes 8 hs.input
  | brGetu32 => exact readResult_completes 32 hs.input
  | tcSer => exact (serBody_completes hs.arena).settle_next _
  | tcDes => exact (desBody_completes (s := discardTree s) hs.input).settle_next _
  | enSym v => exact (encodeSymbol_completes v s).settle_next _
  | enPayload => exact (payloadBody_completes hs.input).settle_next _
  | deSym => exact (deSymBody_completes hs.input hs.arena).settle_next _
  | dePayload n => exact (dePayloadBody_completes hs.input hs.arena).settle_next _
  | compress => exact execCompress_completes hs.input
  | decompress => exact (decompressBody_completes hs.input).settle_next _

end Sys2Proof.Machine
end
